-- ==== Sys2Proof/Word.lean ====
section
/-! DEFINITION. The widths of AFX-CORE's words: `00_scope.md` rule R8, `20_memory.md` rules R53 to R57. -/

namespace Sys2Proof

/-- One byte of the command port (R53). -/
abbrev Byte := BitVec 8

/-- A 16-bit field: the IMM field, a CSR address, a stream error code (R69, R32, R121). -/
abbrev Half := BitVec 16

/-- A 32-bit `word` (R8): the command word. -/
abbrev Word := BitVec 32

/-- A 64-bit `dword` (R8): an operand, a result, a CSR. -/
abbrev Dword := BitVec 64

/-- A dword read as an IEEE 754 binary64 value (R54): bit 63 is the sign, bits 62 to 52 the biased
exponent, bits 51 to 0 the fraction. -/
abbrev F64 := BitVec 64

end Sys2Proof
end

