-- ==== Sys2Proof/Syntax.lean ====
section
/-! DEFINITION. The commands of AFX-CORE: one constructor of `Instr` for each row of
`30_encoding.md` rule R75 (`opcode_table.json`). A constructor carries the fields of the command word
that the row does not fix to 0, and then the operand dwords. -/

namespace Sys2Proof

/-- A command with its operands (R68, R75). -/
inductive Instr where
  /-- NOP (R85). -/
  | nop
  /-- RESET (R86). -/
  | reset
  /-- CSR_READ (R87): the CSR address. -/
  | csrRead (addr : Half)
  /-- CSR_WRITE (R88): the CSR address and the raw value. -/
  | csrWrite (addr : Half) (v : Dword)
  /-- BQ_INIT (R93): the instance and the five coefficients. -/
  | bqInit (inst : Byte) (b0 b1 b2 a1 a2 : F64)
  /-- BQ_PROCESS (R94): the instance and the sample. -/
  | bqProcess (inst : Byte) (x : F64)
  /-- FIR_INIT (R98): the instance, the factor p and the half-width a. -/
  | firInit (inst : Byte) (p a : Dword)
  /-- FIR_PROCESS (R99): the instance and the sample. -/
  | firProcess (inst : Byte) (x : F64)
  /-- LAG_INIT (R102): the instance, the two time constants and the gain. -/
  | lagInit (inst : Byte) (tauRise tauFall gain : F64)
  /-- LAG_PROCESS (R103): the instance and the input. -/
  | lagProcess (inst : Byte) (x : F64)
  /-- LAG_PROCESS_INITIAL (R104): the instance and the input. -/
  | lagProcessInitial (inst : Byte) (x : F64)
  /-- LAG_SETTLING_LEN (R105): the time constant. -/
  | lagSettlingLen (tauRise : F64)
  /-- MMX_INIT (R109): the instance and the window length. -/
  | mmxInit (inst : Byte) (w : Dword)
  /-- MMX_PROCESS (R110): the instance and the sample. -/
  | mmxProcess (inst : Byte) (x : F64)
  /-- MRMS_INIT (R114): the instance, the window length and the gain. -/
  | mrmsInit (inst : Byte) (w : Dword) (gain : F64)
  /-- MRMS_PROCESS (R115): the instance and the sample. -/
  | mrmsProcess (inst : Byte) (x : F64)
  /-- MRMS_REFRESH (R116): the instance. -/
  | mrmsRefresh (inst : Byte)
  /-- MRMS_READ_ACC (R117): the instance. -/
  | mrmsReadAcc (inst : Byte)
  /-- FD_INIT (R119). -/
  | fdInit
  /-- FD_PUSH (R120): the sample. -/
  | fdPush (x : F64)
  /-- FD_PUSH_ERR (R121): the stream's error code. -/
  | fdPushErr (code : Half)
  /-- FD_END (R122). -/
  | fdEnd
  /-- FD_READ (R123): the channel. -/
  | fdRead (chan : Byte)
  /-- LU_INIT (R131). -/
  | luInit
  /-- LU_FRAME (R136). -/
  | luFrame
  /-- LU_FINALIZE (R137). -/
  | luFinalize
  /-- LU_RESULT (R141): the accumulator. -/
  | luResult (acc : Byte)
  /-- LU_HIST_READ (R142): the accumulator and the bin. -/
  | luHistRead (acc : Byte) (bin : Dword)
  /-- LU_COEF_READ (R143): the selector IMM[3:0] of R77. -/
  | luCoefRead (sel : BitVec 4)
  /-- TP_INIT (R146). -/
  | tpInit
  /-- TP_FRAME (R147). -/
  | tpFrame
  /-- TP_RESULT (R148): the accumulator. -/
  | tpResult (acc : Byte)
  /-- CP_INIT (R155). -/
  | cpInit
  /-- CP_FRAME (R160): the ZERO bit, IMM[0]. -/
  | cpFrame (zero : Bool)
  /-- CP_FRAME_INITIAL (R162). -/
  | cpFrameInitial
  deriving DecidableEq, Repr

/-- The 35 assigned opcodes of R75, without their operands. -/
inductive Opcode where
  | nop | reset | csrRead | csrWrite
  | bqInit | bqProcess
  | firInit | firProcess
  | lagInit | lagProcess | lagProcessInitial | lagSettlingLen
  | mmxInit | mmxProcess
  | mrmsInit | mrmsProcess | mrmsRefresh | mrmsReadAcc
  | fdInit | fdPush | fdPushErr | fdEnd | fdRead
  | luInit | luFrame | luFinalize | luResult | luHistRead | luCoefRead
  | tpInit | tpFrame | tpResult
  | cpInit | cpFrame | cpFrameInitial
  deriving DecidableEq, Repr

/-- The families of R76: the high nibble of OP. -/
inductive Family where
  | control | biquad | fir | lag1 | movMax | movRms | frameDemux | loudness | truePeak | compressor
  deriving DecidableEq, Repr

/-- What R75 says of the IDX field: `0`, an instance, a channel or an accumulator (R73). -/
inductive IdxKind where
  | zero | inst | chan | acc
  deriving DecidableEq, Repr

/-- What R75 says of the IMM field: `0`, a CSR address, a stream error code, the LU_COEF_READ
selector of R77, or CP_FRAME's ZERO bit. -/
inductive ImmKind where
  | zero | csr | streamCode | coefSelector | zeroBit
  deriving DecidableEq, Repr

/-- The stage of a K-weighting coefficient (R77): IMM[3]. -/
inductive KStage where
  | shelf | highPass
  deriving DecidableEq, Repr

/-- A coefficient of a second-order section (R77): IMM[2:0] = 0 to 4. -/
inductive Coef where
  | b0 | b1 | b2 | a1 | a2
  deriving DecidableEq, Repr

/-- Why the decoder rejects a command word (R78): the three kinds of illegal encoding. -/
inductive Reject where
  /-- An OP that R75 does not assign. -/
  | unassignedOp
  /-- A non-zero value in a field or bits that R75 marks 0. -/
  | reservedField
  /-- A reserved LU_COEF_READ selector (R77). -/
  | reservedSelector
  deriving DecidableEq, Repr

end Sys2Proof
end

