-- ==== Sys2Proof/Config.lean ====
section
/-! DEFINITION. What an implementation fixes: the storage sizes of `00_scope.md` rule R6, and the open
model parameters and free values of R7, R14 and R15. An `opaque` constant has no body: nothing proves a
value of it. -/

namespace Sys2Proof.Config

/-! ## Storage sizes (R6): the AFX-CORE values -/

/-- C_MAX, the maximum channel count. -/
abbrev cMax : Nat := 8
/-- N_BQ, the Biquad instances. -/
abbrev nBq : Nat := 8
/-- N_FIR, the FIR instances. -/
abbrev nFir : Nat := 4
/-- N_LAG, the Lag1 instances. -/
abbrev nLag : Nat := 8
/-- N_MMX, the MovMax instances. -/
abbrev nMmx : Nat := 8
/-- N_MRMS, the MovRms instances. -/
abbrev nMrms : Nat := 8
/-- FIR_MAX_TAPS, the longest FIR kernel. -/
abbrev firMaxTaps : Nat := 255
/-- WIN_MAX, the longest MovMax or MovRms window. -/
abbrev winMax : Nat := 1048576
/-- CP_LMAX, the longest compressor delay in frames. -/
abbrev cpLMax : Nat := 65536
/-- FS_MAX, the highest sample rate in Hz. -/
abbrev fsMax : Nat := 384000

/-! ## Open parameters (R7) -/

/-- The half-width TP_A less one. R6 asks `FIR_MAX_TAPS ≥ 2·(4·TP_A − 1) + 1`, so TP_A is 1 to 32. -/
opaque tpAPred : Fin 32

/-- TP_A, the Lanczos half-width of the true-peak FIR (R7, R145): an integer from 1 to 32. -/
def tpA : Nat := tpAPred.val + 1

/-- The place of RMS_COMP_GAIN among the binary64 values above 0, whose patterns are 1 to
0x7FF0_0000_0000_0000. -/
opaque rmsCompGainPred : Fin 0x7FF0000000000000

/-- RMS_COMP_GAIN (R7, R153): a binary64 value above 0. -/
def rmsCompGain : F64 := BitVec.ofNat 64 (rmsCompGainPred.val + 1)

/-- PEAK_RECTIFY (R7, R154): `true` is `abs`, `false` is `none`. -/
opaque peakRectifyAbs : Bool

/-- KW_COEFFS(fs) (R7, R127), one coefficient at a time. -/
opaque kwCoeff (fs : Word) (stage : KStage) (k : Coef) : F64

/-- KNEE_GAIN(ld, T, KW, R, M) (R7, R159). -/
opaque kneeGain (ld t kw r m : F64) : F64

/-- fn_sin outside the special values of R14. -/
opaque fnSinRaw : F64 → F64
/-- fn_tan (R14 gives it no special value). -/
opaque fnTan : F64 → F64
/-- fn_log10 outside the special values of R14. -/
opaque fnLog10Raw : F64 → F64
/-- fn_pow outside the special values of R14. -/
opaque fnPowRaw : F64 → F64 → F64

/-! ## Free values -/

/-- The sign and fraction of the n-th NaN draw (R15; log entry 3). -/
opaque nanDraw : Nat → BitVec 53

/-- The first bin of R139's second pass when the index j is a NaN, for which R139 states no maximum
(log entry 9). -/
opaque gateBinOfNaN : Nat → Nat

end Sys2Proof.Config
end

