-- ==== Sys2Proof/Machine/Float64.lean ====
section
/-! DEFINITION. IEEE 754 binary64 arithmetic: `00_scope.md` rules R11 to R16 and `20_memory.md` rule R54.
Every finite value is an exact whole number of units of 2^-1074, so each operation computes its result
exactly on numbers and rounds once, to nearest with ties to even (R11). Subnormals are kept (R15). -/

namespace Sys2Proof.Machine

/-! ## Fields (R54) -/

/-- The sign bit. -/
def fsign (x : F64) : Bool := x.getLsbD 63

/-- Bits 62 to 0 as a number: the magnitude's encoding. -/
def fmag (x : F64) : Nat := x.toNat % 2 ^ 63

/-- The magnitude encoding of infinity. -/
def infMag : Nat := 0x7FF0000000000000

/-- isNaN(x) (R12). -/
def isNaN (x : F64) : Bool := decide (infMag < fmag x)
/-- x is +inf or −inf. -/
def isInf (x : F64) : Bool := fmag x == infMag
/-- x is +0.0 or −0.0. -/
def isZero (x : F64) : Bool := fmag x == 0
/-- x is finite. -/
def isFinite (x : F64) : Bool := decide (fmag x < infMag)

/-- The value with this sign and magnitude encoding. -/
def mkF64 (sign : Bool) (mag : Nat) : F64 := BitVec.ofNat 64 ((if sign then 2 ^ 63 else 0) + mag)

/-- |x|: x with its sign bit cleared (R12). -/
def fabs (x : F64) : F64 := mkF64 false (fmag x)
/-- x with its sign bit inverted. -/
def fneg (x : F64) : F64 := mkF64 (!fsign x) (fmag x)

/-- Infinity with this sign. -/
def fInf (sign : Bool) : F64 := mkF64 sign infMag
/-- Zero with this sign. -/
def fZero (sign : Bool) : F64 := mkF64 sign 0

/-- The NaN that stands for "some NaN" inside a computation. R15 leaves its sign and payload open, and
no rule reads them: a NaN that a command stores or returns is a draw (`drawNaN`). -/
def qNaN : F64 := 0x7FF8000000000000#64

/-! ## Constants -/

/-- +0.0. -/
def f0 : F64 := 0x0000000000000000#64
/-- 1.0. -/
def f1 : F64 := 0x3FF0000000000000#64
/-- 2.0. -/
def f2 : F64 := 0x4000000000000000#64
/-- 10.0. -/
def f10 : F64 := 0x4024000000000000#64
/-- 20.0. -/
def f20 : F64 := 0x4034000000000000#64

/-! ## Exact values and rounding -/

/-- The number of units of 2^-1074 in 1.0. Irreducible, so that a proof search never computes with it. -/
@[irreducible] def oneUnits : Nat := 2 ^ 1074

/-- |x| in units of 2^-1074, for a finite x. -/
def units (x : F64) : Nat :=
  let e := fmag x / 2 ^ 52
  let f := fmag x % 2 ^ 52
  if e = 0 then f else (2 ^ 52 + f) <<< (e - 1)

/-- The signed value in units of 2^-1074, for a finite x. -/
def sunits (x : F64) : Int := if fsign x then -(units x : Int) else units x

/-- The number of bits of a number. -/
def bitLen (n : Nat) : Nat := if n = 0 then 0 else Nat.log2 n + 1

/-- Rounds a quotient with these last digit and remainder to nearest, ties to even. -/
def roundEven (q : Nat) (above tie : Bool) : Nat := if above || (tie && q % 2 == 1) then q + 1 else q

/-- The magnitude encoding of `num / den` units of 2^-1074, rounded to nearest with ties to even (R11).
The quotient keeps 53 bits, or fewer at the subnormal end; a magnitude at or past 2^1024 after rounding
is infinity. -/
def roundUnits (num den : Nat) : Nat :=
  let d := bitLen (num / den) - 53
  let unit := den <<< d
  let q := num / unit
  let r := num % unit
  min (d * 2 ^ 52 + roundEven q (decide (unit < 2 * r)) (2 * r == unit)) infMag

/-- A signed number of units, rounded; an exact zero takes the sign `zs`. -/
def fOfSUnits (v : Int) (zs : Bool) : F64 :=
  if v = 0 then fZero zs else mkF64 (decide (v < 0)) (roundUnits v.natAbs 1)

/-- f64(n): the value nearest to n (R13). -/
def fOfNat (n : Nat) : F64 := mkF64 false (roundUnits (n * oneUnits) 1)

/-- f64(k) of a signed integer k (R13, R96). -/
def fOfInt (k : Int) : F64 := mkF64 (decide (k < 0)) (roundUnits (k.natAbs * oneUnits) 1)

/-! ## The four operations (R11) -/

/-- x + y. -/
def fadd (x y : F64) : F64 :=
  if isNaN x || isNaN y then qNaN
  else if isInf x then (if isInf y && (fsign x != fsign y) then qNaN else x)
  else if isInf y then y
  else fOfSUnits (sunits x + sunits y) (fsign x && fsign y)

/-- x − y, which IEEE 754 makes x + (−y). -/
def fsub (x y : F64) : F64 := fadd x (fneg y)

/-- x · y. -/
def fmul (x y : F64) : F64 :=
  let s := fsign x != fsign y
  if isNaN x || isNaN y then qNaN
  else if isInf x || isInf y then (if isZero x || isZero y then qNaN else fInf s)
  else mkF64 s (roundUnits (units x * units y) oneUnits)

/-- x / y. -/
def fdiv (x y : F64) : F64 :=
  let s := fsign x != fsign y
  if isNaN x || isNaN y then qNaN
  else if isInf x then (if isInf y then qNaN else fInf s)
  else if isInf y then fZero s
  else if isZero y then (if isZero x then qNaN else fInf s)
  else mkF64 s (roundUnits (units x * oneUnits) (units y))

/-! ## Comparisons (R12) -/

/-- The value of a non-NaN as an integer that orders as the values do; both zeros give 0. -/
def fkey (x : F64) : Int := if fsign x then -(fmag x : Int) else fmag x

/-- x < y; false with a NaN operand. -/
def flt (x y : F64) : Bool := !isNaN x && !isNaN y && decide (fkey x < fkey y)
/-- x ≤ y; false with a NaN operand. -/
def fle (x y : F64) : Bool := !isNaN x && !isNaN y && decide (fkey x ≤ fkey y)
/-- x == y; false with a NaN operand, and −0.0 == +0.0. -/
def feq (x y : F64) : Bool := !isNaN x && !isNaN y && decide (fkey x = fkey y)

/-! ## Exact functions (R13) -/

/-- The bits of the integer square root of `m`, from bit `k − 1` down, added to `acc`. -/
def isqrtFrom : Nat → Nat → Nat → Nat
  | 0, _, acc => acc
  | k + 1, m, acc =>
    isqrtFrom k m (if (acc + 2 ^ k) * (acc + 2 ^ k) ≤ m then acc + 2 ^ k else acc)

/-- The magnitude encoding of the correctly rounded square root of a positive number of units. -/
def sqrtUnits (n : Nat) : Nat :=
  let big := n * oneUnits
  let d := (bitLen big + 1) / 2 - 53
  let q := isqrtFrom 53 (big >>> (2 * d)) 0
  let mid := ((2 * q + 1) * (2 * q + 1)) <<< (2 * d)
  d * 2 ^ 52 + roundEven q (decide (mid < 4 * big)) (mid == 4 * big)

/-- sqrt(x): correctly rounded; sqrt(−0.0) = −0.0, sqrt(x < 0) is a NaN, sqrt(+inf) = +inf. -/
def fsqrt (x : F64) : F64 :=
  if isNaN x then qNaN
  else if isZero x then x
  else if fsign x then qNaN
  else if isInf x then x
  else mkF64 false (sqrtUnits (units x))

/-- A whole number with a sign, as a binary64 integral value. -/
def fIntegral (sign : Bool) (i : Nat) : F64 := mkF64 sign (roundUnits (i * oneUnits) 1)

/-- trunc(x): towards zero; a NaN or an infinity is itself. -/
def ftrunc (x : F64) : F64 :=
  if isFinite x then fIntegral (fsign x) (units x / oneUnits) else x

/-- floor(x): towards −inf. -/
def ffloor (x : F64) : F64 :=
  if isFinite x then
    fIntegral (fsign x)
      (if fsign x && units x % oneUnits != 0 then units x / oneUnits + 1 else units x / oneUnits)
  else x

/-- round(x): to nearest, halves away from zero. -/
def fround (x : F64) : F64 :=
  if isFinite x then fIntegral (fsign x) ((2 * units x + oneUnits) / (2 * oneUnits)) else x

/-- The integer a finite x ≥ 0 truncates to. -/
def fToNat (x : F64) : Nat := units x / oneUnits

/-- sat_u64(x) (R16). -/
def satU64 (x : F64) : Dword :=
  if isNaN x || flt x f1 then 0#64
  else if fle (fOfNat (2 ^ 64)) x then BitVec.allOnes 64
  else BitVec.ofNat 64 (fToNat x)

/-! ## Transcendental functions (R14): free but for the special values -/

/-- fn_sin(x): fn_sin(±0.0) = ±0.0. -/
def fnSin (x : F64) : F64 := if isZero x then x else Config.fnSinRaw x

/-- fn_log10(x): log10(x) of R14. -/
def fnLog10 (x : F64) : F64 :=
  if isNaN x then qNaN
  else if isZero x then fInf true
  else if fsign x then qNaN
  else if isInf x then fInf false
  else if x = f1 then f0
  else Config.fnLog10Raw x

/-- fn_pow(b, x): R14 gives the special values for b = 10.0. -/
def fnPow (b x : F64) : F64 :=
  if b = f10 then
    if isNaN x then qNaN
    else if isZero x then f1
    else if isInf x then (if fsign x then f0 else fInf false)
    else Config.fnPowRaw b x
  else Config.fnPowRaw b x

/-- exp10(x) = fn_pow(10.0, x) (R14). -/
def exp10 (x : F64) : F64 := fnPow f10 x

/-! ## NaN draws (R15) -/

/-- The NaN whose sign is bit 52 and whose fraction is bits 51 to 0 of `b`. A zero fraction would be an
infinity, and stands for fraction 1. -/
def nanOfDraw (b : BitVec 53) : F64 :=
  mkF64 (b.getLsbD 52) (infMag + (if b.toNat % 2 ^ 52 = 0 then 1 else b.toNat % 2 ^ 52))

/-- The result x of a computation as stored or returned: a NaN has the sign and payload of draw `d`. -/
def drawNaN (d : Nat) (x : F64) : F64 := if isNaN x then nanOfDraw (Config.nanDraw d) else x

/-- A list of results, the k-th with draw `d + k`. -/
def drawNaNs : Nat → List F64 → List F64
  | _, [] => []
  | d, x :: xs => drawNaN d x :: drawNaNs (d + 1) xs

end Sys2Proof.Machine
end

