-- ==== Sys2Proof/WellFormed.lean ====
section
/-! DEFINITION. Which instruction terms have an encoding. The constructors' field widths leave one
check: LU_COEF_READ's selector (`30_encoding.md` rule R77). An IDX at or above its bound is an encodable
command that raises ILLEGAL_INDEX (R73), so it is well formed. -/

namespace Sys2Proof

/-- R77: IMM[2:0] is one of 0 to 4. -/
def selectorOk (sel : BitVec 4) : Bool := (sel.extractLsb' 0 3).toNat ≤ 4

/-- The instruction has an encoding in R75 to R77. -/
def Instr.wellFormed : Instr → Bool
  | .nop => true
  | .reset => true
  | .csrRead _ => true
  | .csrWrite _ _ => true
  | .bqInit _ _ _ _ _ _ => true
  | .bqProcess _ _ => true
  | .firInit _ _ _ => true
  | .firProcess _ _ => true
  | .lagInit _ _ _ _ => true
  | .lagProcess _ _ => true
  | .lagProcessInitial _ _ => true
  | .lagSettlingLen _ => true
  | .mmxInit _ _ => true
  | .mmxProcess _ _ => true
  | .mrmsInit _ _ _ => true
  | .mrmsProcess _ _ => true
  | .mrmsRefresh _ => true
  | .mrmsReadAcc _ => true
  | .fdInit => true
  | .fdPush _ => true
  | .fdPushErr _ => true
  | .fdEnd => true
  | .fdRead _ => true
  | .luInit => true
  | .luFrame => true
  | .luFinalize => true
  | .luResult _ => true
  | .luHistRead _ _ => true
  | .luCoefRead sel => selectorOk sel
  | .tpInit => true
  | .tpFrame => true
  | .tpResult _ => true
  | .cpInit => true
  | .cpFrame _ => true
  | .cpFrameInitial => true

end Sys2Proof
end

