-- ==== Sys2Proof/Decode.lean ====
section
/-! DEFINITION. The command stream's bytes, words and dwords (`20_memory.md` rule R53), the opcode table
(`30_encoding.md` rule R75), the decoder, total on any bytes (R70), and the encoder. -/

namespace Sys2Proof

/-! ## Byte order (R53): the least significant byte first -/

/-- The word whose bytes, least significant first, are given. -/
def wordOfBytes (b0 b1 b2 b3 : Byte) : Word := b3 ++ b2 ++ b1 ++ b0

/-- The dword whose low and high words are given. -/
def dwordOfWords (lo hi : Word) : Dword := hi ++ lo

/-- The four bytes of a word, least significant first. -/
def bytesOfWord (w : Word) : List Byte :=
  [w.extractLsb' 0 8, w.extractLsb' 8 8, w.extractLsb' 16 8, w.extractLsb' 24 8]

/-- The eight bytes of a dword, least significant first. -/
def bytesOfDword (d : Dword) : List Byte :=
  bytesOfWord (d.extractLsb' 0 32) ++ bytesOfWord (d.extractLsb' 32 32)

/-- Takes a word from the front of the stream; `none` when fewer than four bytes wait. -/
def takeWord : List Byte → Option (Word × List Byte)
  | b0 :: b1 :: b2 :: b3 :: rest => some (wordOfBytes b0 b1 b2 b3, rest)
  | _ => none

/-- Takes a dword from the front of the stream. -/
def takeDword (bs : List Byte) : Option (Dword × List Byte) :=
  match takeWord bs with
  | none => none
  | some (lo, bs') =>
    match takeWord bs' with
    | none => none
    | some (hi, rest) => some (dwordOfWords lo hi, rest)

/-- Takes `n` dwords: "the next NOPS(op) dwords of the command stream" (R83). -/
def takeDwords : Nat → List Byte → Option (List Dword × List Byte)
  | 0, bs => some ([], bs)
  | n + 1, bs =>
    match takeDword bs with
    | none => none
    | some (d, bs') =>
      match takeDwords n bs' with
      | none => none
      | some (ds, rest) => some (d :: ds, rest)

/-! ## The command word (R69) -/

/-- cmd.OP = cmd[31:24]. -/
def opField (w : Word) : Byte := w.extractLsb' 24 8
/-- cmd.IDX = cmd[23:16]. -/
def idxField (w : Word) : Byte := w.extractLsb' 16 8
/-- cmd.IMM = cmd[15:0]. -/
def immField (w : Word) : Half := w.extractLsb' 0 16
/-- The command word with these fields. -/
def mkWord (op idx : Byte) (imm : Half) : Word := op ++ idx ++ imm

/-! ## The opcode table (R75) -/

/-- One row of R75: OP, the kinds of IDX and IMM, NOPS, NRES and the family. `nres` is the fixed result
count; CP_FRAME's (R74) depends on the state, and its row holds 0. -/
structure Row where
  code : Byte
  idx : IdxKind
  imm : ImmKind
  nops : Nat
  nres : Nat
  family : Family
  deriving DecidableEq, Repr

/-- R75, row by row. -/
def Opcode.row : Opcode → Row
  | .nop => ⟨0x00#8, .zero, .zero, 0, 0, .control⟩
  | .reset => ⟨0x01#8, .zero, .zero, 0, 0, .control⟩
  | .csrRead => ⟨0x02#8, .zero, .csr, 0, 1, .control⟩
  | .csrWrite => ⟨0x03#8, .zero, .csr, 1, 0, .control⟩
  | .bqInit => ⟨0x10#8, .inst, .zero, 5, 0, .biquad⟩
  | .bqProcess => ⟨0x11#8, .inst, .zero, 1, 1, .biquad⟩
  | .firInit => ⟨0x20#8, .inst, .zero, 2, 0, .fir⟩
  | .firProcess => ⟨0x21#8, .inst, .zero, 1, 1, .fir⟩
  | .lagInit => ⟨0x30#8, .inst, .zero, 3, 0, .lag1⟩
  | .lagProcess => ⟨0x31#8, .inst, .zero, 1, 1, .lag1⟩
  | .lagProcessInitial => ⟨0x32#8, .inst, .zero, 1, 1, .lag1⟩
  | .lagSettlingLen => ⟨0x33#8, .zero, .zero, 1, 1, .lag1⟩
  | .mmxInit => ⟨0x40#8, .inst, .zero, 1, 0, .movMax⟩
  | .mmxProcess => ⟨0x41#8, .inst, .zero, 1, 1, .movMax⟩
  | .mrmsInit => ⟨0x50#8, .inst, .zero, 2, 0, .movRms⟩
  | .mrmsProcess => ⟨0x51#8, .inst, .zero, 1, 1, .movRms⟩
  | .mrmsRefresh => ⟨0x52#8, .inst, .zero, 0, 0, .movRms⟩
  | .mrmsReadAcc => ⟨0x53#8, .inst, .zero, 0, 1, .movRms⟩
  | .fdInit => ⟨0x60#8, .zero, .zero, 0, 0, .frameDemux⟩
  | .fdPush => ⟨0x61#8, .zero, .zero, 1, 0, .frameDemux⟩
  | .fdPushErr => ⟨0x62#8, .zero, .streamCode, 0, 0, .frameDemux⟩
  | .fdEnd => ⟨0x63#8, .zero, .zero, 0, 0, .frameDemux⟩
  | .fdRead => ⟨0x64#8, .chan, .zero, 0, 1, .frameDemux⟩
  | .luInit => ⟨0x70#8, .zero, .zero, 0, 0, .loudness⟩
  | .luFrame => ⟨0x71#8, .zero, .zero, 0, 0, .loudness⟩
  | .luFinalize => ⟨0x72#8, .zero, .zero, 0, 0, .loudness⟩
  | .luResult => ⟨0x73#8, .acc, .zero, 0, 1, .loudness⟩
  | .luHistRead => ⟨0x74#8, .acc, .zero, 1, 1, .loudness⟩
  | .luCoefRead => ⟨0x75#8, .zero, .coefSelector, 0, 1, .loudness⟩
  | .tpInit => ⟨0x80#8, .zero, .zero, 0, 0, .truePeak⟩
  | .tpFrame => ⟨0x81#8, .zero, .zero, 0, 0, .truePeak⟩
  | .tpResult => ⟨0x82#8, .acc, .zero, 0, 1, .truePeak⟩
  | .cpInit => ⟨0x90#8, .zero, .zero, 0, 0, .compressor⟩
  | .cpFrame => ⟨0x91#8, .zero, .zeroBit, 0, 0, .compressor⟩
  | .cpFrameInitial => ⟨0x92#8, .zero, .zero, 0, 0, .compressor⟩

/-- Every assigned opcode, in R75's order. -/
def Opcode.all : List Opcode :=
  [.nop, .reset, .csrRead, .csrWrite, .bqInit, .bqProcess, .firInit, .firProcess,
   .lagInit, .lagProcess, .lagProcessInitial, .lagSettlingLen, .mmxInit, .mmxProcess,
   .mrmsInit, .mrmsProcess, .mrmsRefresh, .mrmsReadAcc,
   .fdInit, .fdPush, .fdPushErr, .fdEnd, .fdRead,
   .luInit, .luFrame, .luFinalize, .luResult, .luHistRead, .luCoefRead,
   .tpInit, .tpFrame, .tpResult, .cpInit, .cpFrame, .cpFrameInitial]

/-- The opcode that R75 assigns to this OP value, if any. -/
def opcodeOf (op : Byte) : Option Opcode := Opcode.all.find? fun o => o.row.code == op

/-- NOPS(op) (R83): 0 for an unassigned OP (R70). -/
def nopsOf (op : Byte) : Nat :=
  match opcodeOf op with
  | none => 0
  | some o => o.row.nops

/-! ## Decoding -/

/-- R75, R78: IDX is 0 where the row says `0`. -/
def idxOk (k : IdxKind) (idx : Byte) : Bool :=
  match k with
  | .zero => idx == 0#8
  | .inst => true
  | .chan => true
  | .acc => true

/-- R75, R78, R168: the IMM bits that must be 0 are 0. -/
def immReservedOk (k : ImmKind) (imm : Half) : Bool :=
  match k with
  | .zero => imm == 0#16
  | .csr => true
  | .streamCode => true
  | .coefSelector => true
  | .zeroBit => imm.extractLsb' 1 15 == 0#15

/-- R77: IMM[15:4] is 0 and IMM[2:0] is at most 4. -/
def immSelectorOk (k : ImmKind) (imm : Half) : Bool :=
  match k with
  | .coefSelector => imm.extractLsb' 4 12 == 0#12 && selectorOk (imm.extractLsb' 0 4)
  | .zero => true
  | .csr => true
  | .streamCode => true
  | .zeroBit => true

/-- The instruction of an accepted command word and its operand dwords (R71): `opnd k` is the k-th. -/
def buildInstr (o : Opcode) (idx : Byte) (imm : Half) (opnd : Nat → Dword) : Instr :=
  match o with
  | .nop => .nop
  | .reset => .reset
  | .csrRead => .csrRead imm
  | .csrWrite => .csrWrite imm (opnd 0)
  | .bqInit => .bqInit idx (opnd 0) (opnd 1) (opnd 2) (opnd 3) (opnd 4)
  | .bqProcess => .bqProcess idx (opnd 0)
  | .firInit => .firInit idx (opnd 0) (opnd 1)
  | .firProcess => .firProcess idx (opnd 0)
  | .lagInit => .lagInit idx (opnd 0) (opnd 1) (opnd 2)
  | .lagProcess => .lagProcess idx (opnd 0)
  | .lagProcessInitial => .lagProcessInitial idx (opnd 0)
  | .lagSettlingLen => .lagSettlingLen (opnd 0)
  | .mmxInit => .mmxInit idx (opnd 0)
  | .mmxProcess => .mmxProcess idx (opnd 0)
  | .mrmsInit => .mrmsInit idx (opnd 0) (opnd 1)
  | .mrmsProcess => .mrmsProcess idx (opnd 0)
  | .mrmsRefresh => .mrmsRefresh idx
  | .mrmsReadAcc => .mrmsReadAcc idx
  | .fdInit => .fdInit
  | .fdPush => .fdPush (opnd 0)
  | .fdPushErr => .fdPushErr imm
  | .fdEnd => .fdEnd
  | .fdRead => .fdRead idx
  | .luInit => .luInit
  | .luFrame => .luFrame
  | .luFinalize => .luFinalize
  | .luResult => .luResult idx
  | .luHistRead => .luHistRead idx (opnd 0)
  | .luCoefRead => .luCoefRead (imm.extractLsb' 0 4)
  | .tpInit => .tpInit
  | .tpFrame => .tpFrame
  | .tpResult => .tpResult idx
  | .cpInit => .cpInit
  | .cpFrame => .cpFrame (imm.getLsbD 0)
  | .cpFrameInitial => .cpFrameInitial

/-- Decodes a command word with its operand dwords, or names the rule of R78 it breaks. The checks of
R168 that concern the encoding are made here, in R168's order. -/
def decodeWord (w : Word) (ops : List Dword) : Except Reject Instr :=
  match opcodeOf (opField w) with
  | none => .error .unassignedOp
  | some o =>
    if idxOk o.row.idx (idxField w) && immReservedOk o.row.imm (immField w) then
      if immSelectorOk o.row.imm (immField w) then
        .ok (buildInstr o (idxField w) (immField w) fun k => ops.getD k 0#64)
      else .error .reservedSelector
    else .error .reservedField

/-- What the front of the command stream holds. -/
inductive Decoded where
  /-- Fewer bytes than the command at the front needs. -/
  | incomplete
  /-- An illegal command word (R78), its operand dwords taken, and the rest of the stream. -/
  | illegal (why : Reject) (w : Word) (rest : List Byte)
  /-- A command and the rest of the stream. -/
  | command (i : Instr) (rest : List Byte)
  deriving DecidableEq, Repr

/-- Reads the command at the front of the stream (R70, R83). -/
def decode (bs : List Byte) : Decoded :=
  match takeWord bs with
  | none => .incomplete
  | some (w, bs') =>
    match takeDwords (nopsOf (opField w)) bs' with
    | none => .incomplete
    | some (ops, rest) =>
      match decodeWord w ops with
      | .ok i => .command i rest
      | .error why => .illegal why w rest

/-! ## Encoding -/

/-- The opcode of an instruction. -/
def Instr.opcode : Instr → Opcode
  | .nop => .nop
  | .reset => .reset
  | .csrRead _ => .csrRead
  | .csrWrite _ _ => .csrWrite
  | .bqInit _ _ _ _ _ _ => .bqInit
  | .bqProcess _ _ => .bqProcess
  | .firInit _ _ _ => .firInit
  | .firProcess _ _ => .firProcess
  | .lagInit _ _ _ _ => .lagInit
  | .lagProcess _ _ => .lagProcess
  | .lagProcessInitial _ _ => .lagProcessInitial
  | .lagSettlingLen _ => .lagSettlingLen
  | .mmxInit _ _ => .mmxInit
  | .mmxProcess _ _ => .mmxProcess
  | .mrmsInit _ _ _ => .mrmsInit
  | .mrmsProcess _ _ => .mrmsProcess
  | .mrmsRefresh _ => .mrmsRefresh
  | .mrmsReadAcc _ => .mrmsReadAcc
  | .fdInit => .fdInit
  | .fdPush _ => .fdPush
  | .fdPushErr _ => .fdPushErr
  | .fdEnd => .fdEnd
  | .fdRead _ => .fdRead
  | .luInit => .luInit
  | .luFrame => .luFrame
  | .luFinalize => .luFinalize
  | .luResult _ => .luResult
  | .luHistRead _ _ => .luHistRead
  | .luCoefRead _ => .luCoefRead
  | .tpInit => .tpInit
  | .tpFrame => .tpFrame
  | .tpResult _ => .tpResult
  | .cpInit => .cpInit
  | .cpFrame _ => .cpFrame
  | .cpFrameInitial => .cpFrameInitial

/-- The IDX field of an instruction. -/
def Instr.idx : Instr → Byte
  | .bqInit i _ _ _ _ _ => i
  | .bqProcess i _ => i
  | .firInit i _ _ => i
  | .firProcess i _ => i
  | .lagInit i _ _ _ => i
  | .lagProcess i _ => i
  | .lagProcessInitial i _ => i
  | .mmxInit i _ => i
  | .mmxProcess i _ => i
  | .mrmsInit i _ _ => i
  | .mrmsProcess i _ => i
  | .mrmsRefresh i => i
  | .mrmsReadAcc i => i
  | .fdRead c => c
  | .luResult k => k
  | .luHistRead k _ => k
  | .tpResult k => k
  | .nop => 0#8
  | .reset => 0#8
  | .csrRead _ => 0#8
  | .csrWrite _ _ => 0#8
  | .lagSettlingLen _ => 0#8
  | .fdInit => 0#8
  | .fdPush _ => 0#8
  | .fdPushErr _ => 0#8
  | .fdEnd => 0#8
  | .luInit => 0#8
  | .luFrame => 0#8
  | .luFinalize => 0#8
  | .luCoefRead _ => 0#8
  | .tpInit => 0#8
  | .tpFrame => 0#8
  | .cpInit => 0#8
  | .cpFrame _ => 0#8
  | .cpFrameInitial => 0#8

/-- The IMM field of an instruction. -/
def Instr.imm : Instr → Half
  | .csrRead a => a
  | .csrWrite a _ => a
  | .fdPushErr e => e
  | .luCoefRead sel => 0#12 ++ sel
  | .cpFrame z => 0#15 ++ BitVec.ofBool z
  | .nop => 0#16
  | .reset => 0#16
  | .bqInit _ _ _ _ _ _ => 0#16
  | .bqProcess _ _ => 0#16
  | .firInit _ _ _ => 0#16
  | .firProcess _ _ => 0#16
  | .lagInit _ _ _ _ => 0#16
  | .lagProcess _ _ => 0#16
  | .lagProcessInitial _ _ => 0#16
  | .lagSettlingLen _ => 0#16
  | .mmxInit _ _ => 0#16
  | .mmxProcess _ _ => 0#16
  | .mrmsInit _ _ _ => 0#16
  | .mrmsProcess _ _ => 0#16
  | .mrmsRefresh _ => 0#16
  | .mrmsReadAcc _ => 0#16
  | .fdInit => 0#16
  | .fdPush _ => 0#16
  | .fdEnd => 0#16
  | .fdRead _ => 0#16
  | .luInit => 0#16
  | .luFrame => 0#16
  | .luFinalize => 0#16
  | .luResult _ => 0#16
  | .luHistRead _ _ => 0#16
  | .tpInit => 0#16
  | .tpFrame => 0#16
  | .tpResult _ => 0#16
  | .cpInit => 0#16
  | .cpFrameInitial => 0#16

/-- The operand dwords of an instruction, in R75's order. -/
def Instr.operands : Instr → List Dword
  | .csrWrite _ v => [v]
  | .bqInit _ b0 b1 b2 a1 a2 => [b0, b1, b2, a1, a2]
  | .bqProcess _ x => [x]
  | .firInit _ p a => [p, a]
  | .firProcess _ x => [x]
  | .lagInit _ tr tf g => [tr, tf, g]
  | .lagProcess _ x => [x]
  | .lagProcessInitial _ x => [x]
  | .lagSettlingLen t => [t]
  | .mmxInit _ w => [w]
  | .mmxProcess _ x => [x]
  | .mrmsInit _ w g => [w, g]
  | .mrmsProcess _ x => [x]
  | .fdPush x => [x]
  | .luHistRead _ b => [b]
  | .nop => []
  | .reset => []
  | .csrRead _ => []
  | .mrmsRefresh _ => []
  | .mrmsReadAcc _ => []
  | .fdInit => []
  | .fdPushErr _ => []
  | .fdEnd => []
  | .fdRead _ => []
  | .luInit => []
  | .luFrame => []
  | .luFinalize => []
  | .luResult _ => []
  | .luCoefRead _ => []
  | .tpInit => []
  | .tpFrame => []
  | .tpResult _ => []
  | .cpInit => []
  | .cpFrame _ => []
  | .cpFrameInitial => []

/-- The command word of an instruction (R69). -/
def encodeWord (i : Instr) : Word := mkWord i.opcode.row.code i.idx i.imm

/-- The bytes of an instruction on the command port: the command word and then the operand dwords
(R68), each least significant byte first (R53). -/
def encode (i : Instr) : List Byte := bytesOfWord (encodeWord i) ++ i.operands.flatMap bytesOfDword

/-! ## The opcode table's own numbering -/

/-- The bytes, least significant first, of the `n`-byte number `w`. -/
def bytesOfNat : Nat → Nat → List Byte
  | 0, _ => []
  | n + 1, w => BitVec.ofNat 8 w :: bytesOfNat n (w / 256)

/-- The length in bytes of the longest command, BQ_INIT: a word and five dwords. -/
def maxCommandBytes : Nat := 44

/-- The command whose bits are `w`, `nbits` of them given and every later bit 0, as the host's bytes on
the command port, up to the longest command. -/
def tableBytes (nbits w : Nat) : List Byte := bytesOfNat maxCommandBytes (w % 2 ^ nbits)

/-- The instruction the decoder reads from a row of the opcode table. -/
def decodeTableWord (nbits w : Nat) : Option Instr :=
  match decode (tableBytes nbits w) with
  | .command i _ => some i
  | .illegal _ _ _ => none
  | .incomplete => none

end Sys2Proof
end

