-- ==== Sys2Proof/Machine/State.lean ====
section
/-! DEFINITION. The state of AFX-CORE (`10_state.md` rules R17 to R31), the reasons a step can stop, and
the state after reset (R50). Integer items are 64 bits wide (`00_scope.md` rule R10) but for the fields
latched from narrower CSR fields. -/

namespace Sys2Proof.Machine

/-- Why a step stops with a fault. Nobody raises one: every error of the block is latched and the block
goes on (`60_exceptions.md` rules R164 and R170), so the type is empty. Safe: there is nothing to raise. -/
inductive Fault where
  deriving DecidableEq, Repr

/-- Why a step is refused. -/
inductive Refusal where
  /-- Raised by an arm of `exec` whose instruction has no meaning yet. Safe: nothing is claimed of it.
  No arm raises it now. -/
  | notModelled (mnemonic : String)
  deriving DecidableEq, Repr

/-- The coefficients of a second-order section, a0 = 1 not stored (R19, R91). -/
structure BqCoef where
  b0 : F64
  b1 : F64
  b2 : F64
  a1 : F64
  a2 : F64
  deriving DecidableEq, Repr

/-- The last two inputs and outputs of a second-order section (R19, R25). -/
structure BqState where
  x1 : F64
  x2 : F64
  y1 : F64
  y2 : F64
  deriving DecidableEq, Repr

/-- A standalone Biquad instance (R19). -/
structure Biquad where
  ready : Bool
  coef : BqCoef
  st : BqState
  deriving DecidableEq, Repr

/-- A standalone FIR instance (R20); `len` is the spec's L. -/
structure Fir where
  ready : Bool
  p : Dword
  a : Dword
  len : Dword
  h : List F64
  buf : List F64
  deriving DecidableEq, Repr

/-- A Lag1 state (R21): the factors, the output gain and the level. -/
structure Lag where
  rise : F64
  fall : F64
  gain : F64
  level : F64
  deriving DecidableEq, Repr

/-- A standalone Lag1 instance (R21). -/
structure LagInst where
  ready : Bool
  lag : Lag
  deriving DecidableEq, Repr

/-- A MovMax state (R22): W, the window and the candidates, each oldest (front) first. -/
structure MovMax where
  w : Dword
  win : List F64
  cand : List F64
  deriving DecidableEq, Repr

/-- A standalone MovMax instance (R22). -/
structure MmxInst where
  ready : Bool
  mm : MovMax
  deriving DecidableEq, Repr

/-- A MovRms state (R23): W, the gain, the ring of squares (oldest first), the sum and the counter. -/
structure MovRms where
  w : Dword
  gain : F64
  sq : List F64
  acc : F64
  cnt : Dword
  deriving DecidableEq, Repr

/-- A standalone MovRms instance (R23). -/
structure MrmsInst where
  ready : Bool
  rms : MovRms
  deriving DecidableEq, Repr

/-- The frame demultiplexer FD (R24). -/
structure FrameDemux where
  ready : Bool
  c : Byte
  frame : Vector F64 Config.cMax
  cnt : Dword
  eos : Bool
  deriving DecidableEq, Repr

/-- One channel of the loudness unit (R25): its weight and its two filter states. -/
structure LuChan where
  w : F64
  shelf : BqState
  hp : BqState
  deriving DecidableEq, Repr

/-- One accumulator of the loudness unit (R25): the block ring (oldest first), its fill, and the
histogram. -/
structure LuAcc where
  blk : List F64
  len : Dword
  hist : List Dword
  deriving DecidableEq, Repr

/-- The loudness unit LU (R25); `blockN` is B, `hopN` is O. -/
structure Loudness where
  ready : Bool
  c : Byte
  fs : Word
  indep : Bool
  strict : Bool
  blockN : Dword
  hopN : Dword
  ks : BqCoef
  kh : BqCoef
  chans : List LuChan
  na : Byte
  accs : List LuAcc
  n : Dword
  committed : Bool
  deriving DecidableEq, Repr

/-- The true-peak unit TP (R26); `len` is L. -/
structure TruePeak where
  ready : Bool
  c : Byte
  indep : Bool
  len : Dword
  h : List F64
  tbuf : List (List F64)
  na : Byte
  m : List F64
  deriving DecidableEq, Repr

/-- The compressor's preprocessor (R27): a MovMax state when DET = 0, a MovRms state when DET = 1. -/
inductive CpPre where
  | peak (mm : MovMax)
  | rms (r : MovRms)
  deriving DecidableEq, Repr

/-- The compressor unit CP (R27); `len` is L, `holdN` is Hn, `winN` is Wp, `det` is DET (`true` = RMS). -/
structure Compressor where
  ready : Bool
  c : Byte
  fs : Word
  det : Bool
  t : F64
  r : F64
  kw : F64
  m : F64
  tauA : F64
  tauR : F64
  len : Dword
  holdN : Dword
  winN : Dword
  pre : CpPre
  env : Lag
  fifo : List (List F64)
  envObs : F64
  gainDb : F64
  deriving DecidableEq, Repr

/-- The eight compressor settings, CSRs 0x0040 to 0x0047 (R46). -/
structure CpSettings where
  thresholdDb : F64
  ratio : F64
  kneeDb : F64
  attackS : F64
  releaseS : F64
  lookaheadS : F64
  holdS : F64
  makeupDb : F64
  deriving DecidableEq, Repr

/-- The read-write CSRs (R34, R40 to R46): the defined bits only, since reserved bits read 0 (R32). -/
structure ConfigRegs where
  channels : Byte
  fs : Word
  lu : BitVec 2
  tp : BitVec 1
  cp : BitVec 1
  luWeight : Vector F64 Config.cMax
  set : CpSettings
  deriving DecidableEq, Repr

/-- The whole machine: the items of R18 to R27, the two ports (R52, R53, R62), and the model's own
counter of NaN draws (log entry 3). -/
structure State where
  err : Byte
  errInfo : Dword
  cfg : ConfigRegs
  bq : Vector Biquad Config.nBq
  fir : Vector Fir Config.nFir
  lag : Vector LagInst Config.nLag
  mmx : Vector MmxInst Config.nMmx
  mrms : Vector MrmsInst Config.nMrms
  fd : FrameDemux
  lu : Loudness
  tp : TruePeak
  cp : Compressor
  port : List Byte
  results : List Dword
  draws : Nat
  deriving DecidableEq, Repr

/-! ## Reset (R50): every READY bit 0, every binary64 +0.0, every integer 0, every buffer empty -/

/-- All coefficients +0.0. -/
def BqCoef.zero : BqCoef := ⟨0#64, 0#64, 0#64, 0#64, 0#64⟩
/-- All four values +0.0. -/
def BqState.zero : BqState := ⟨0#64, 0#64, 0#64, 0#64⟩
/-- R19's reset value. -/
def Biquad.reset : Biquad := ⟨false, .zero, .zero⟩
/-- R20's reset value. -/
def Fir.reset : Fir := ⟨false, 0#64, 0#64, 0#64, [], []⟩
/-- All four values +0.0. -/
def Lag.zero : Lag := ⟨0#64, 0#64, 0#64, 0#64⟩
/-- R21's reset value. -/
def LagInst.reset : LagInst := ⟨false, .zero⟩
/-- A MovMax state with window length `w` and nothing in it. -/
def MovMax.empty (w : Dword) : MovMax := ⟨w, [], []⟩
/-- R22's reset value. -/
def MmxInst.reset : MmxInst := ⟨false, .empty 0#64⟩
/-- R23's reset value. -/
def MrmsInst.reset : MrmsInst := ⟨false, ⟨0#64, 0#64, [], 0#64, 0#64⟩⟩
/-- R24's reset value. -/
def FrameDemux.reset : FrameDemux := ⟨false, 0#8, Vector.replicate _ 0#64, 0#64, false⟩
/-- R25's reset value. -/
def Loudness.reset : Loudness :=
  ⟨false, 0#8, 0#32, false, false, 0#64, 0#64, .zero, .zero, [], 0#8, [], 0#64, false⟩
/-- R26's reset value. -/
def TruePeak.reset : TruePeak := ⟨false, 0#8, false, 0#64, [], [], 0#8, []⟩
/-- R27's reset value. -/
def Compressor.reset : Compressor where
  ready := false
  c := 0#8
  fs := 0#32
  det := false
  t := 0#64
  r := 0#64
  kw := 0#64
  m := 0#64
  tauA := 0#64
  tauR := 0#64
  len := 0#64
  holdN := 0#64
  winN := 0#64
  pre := .peak (.empty 0#64)
  env := .zero
  fifo := []
  envObs := 0#64
  gainDb := 0#64
/-- R46's reset values. -/
def CpSettings.reset : CpSettings := ⟨0#64, 0#64, 0#64, 0#64, 0#64, 0#64, 0#64, 0#64⟩
/-- R43's reset weights: 1.0 for c ≤ 2, +0.0 for c = 3, 1.41 for c ≥ 4. -/
def resetWeights : Vector F64 Config.cMax :=
  #v[0x3FF0000000000000#64, 0x3FF0000000000000#64, 0x3FF0000000000000#64, 0x0000000000000000#64,
     0x3FF68F5C28F5C28F#64, 0x3FF68F5C28F5C28F#64, 0x3FF68F5C28F5C28F#64, 0x3FF68F5C28F5C28F#64]
/-- R34's reset values of the read-write CSRs. -/
def ConfigRegs.reset : ConfigRegs := ⟨0#8, 0#32, 0#2, 0#1, 0#1, resetWeights, .reset⟩

/-- The machine right after reset (R50), with nothing on its ports. -/
def State.reset : State where
  err := 0#8
  errInfo := 0#64
  cfg := .reset
  bq := Vector.replicate _ .reset
  fir := Vector.replicate _ .reset
  lag := Vector.replicate _ .reset
  mmx := Vector.replicate _ .reset
  mrms := Vector.replicate _ .reset
  fd := .reset
  lu := .reset
  tp := .reset
  cp := .reset
  port := []
  results := []
  draws := 0

end Sys2Proof.Machine
end

