-- ==== Sys2Proof/Machine/Flags.lean ====
section
/-! DEFINITION. The block's only flags: the fields of STATUS (`10_state.md` rules R31 and R37), and
VALID (R24). The block has no arithmetic condition codes (R31). -/

namespace Sys2Proof.Machine

/-- VALID (R24): READY = 1 and cnt = C and C ≥ 1. -/
def FrameDemux.valid (fd : FrameDemux) : Bool :=
  fd.ready && fd.cnt.toNat == fd.c.toNat && decide (1 ≤ fd.c.toNat)

/-- STATUS (R37), assembled at the time of the read (R87): CP_READY, TP_READY, LU_COMMITTED, LU_READY,
FD_EOS, FD_VALID and FD_READY in bits 14 to 8, ERR in bits 7 to 0. -/
def statusWord (s : State) : Dword :=
  0#49 ++ BitVec.ofBool s.cp.ready ++ BitVec.ofBool s.tp.ready ++ BitVec.ofBool s.lu.committed
    ++ BitVec.ofBool s.lu.ready ++ BitVec.ofBool s.fd.eos ++ BitVec.ofBool s.fd.valid
    ++ BitVec.ofBool s.fd.ready ++ s.err

/-- ERR_INFO (R38, R83): {chan[15:0], stream[15:0], cmd[31:0]}. -/
def errInfoWord (chan stream : Half) (cmd : Word) : Dword := chan ++ stream ++ cmd

end Sys2Proof.Machine
end

