-- ==== Sys2Proof/Machine/Csr.lean ====
section
/-! DEFINITION. The CSR space, the block's only addressable space (`20_memory.md` rules R51, R60, R66;
`10_state.md` rules R32 to R49). -/

namespace Sys2Proof.Machine

/-- The implemented CSRs (R34). -/
inductive Csr where
  | id | status | errInfo | params | params2 | params3
  | cfgChannels | cfgFs
  | luCfg | tpCfg | cpCfg
  | luWeight (c : Fin Config.cMax)
  | cpThresholdDb | cpRatio | cpKneeDb | cpAttackS | cpReleaseS | cpLookaheadS | cpHoldS | cpMakeupDb
  | cpEnv | cpGainDb | cpDelayN | cpWindowN
  | luBlockN | luHopN | luFrames
  deriving DecidableEq, Repr

/-- The CSR map (R34): `none` for every other address, which is unimplemented. -/
def csrAt (addr : Half) : Option Csr :=
  match addr.toNat with
  | 0x0000 => some .id
  | 0x0001 => some .status
  | 0x0002 => some .errInfo
  | 0x0003 => some .params
  | 0x0004 => some .params2
  | 0x0005 => some .params3
  | 0x0010 => some .cfgChannels
  | 0x0011 => some .cfgFs
  | 0x0020 => some .luCfg
  | 0x0021 => some .tpCfg
  | 0x0022 => some .cpCfg
  | 0x0040 => some .cpThresholdDb
  | 0x0041 => some .cpRatio
  | 0x0042 => some .cpKneeDb
  | 0x0043 => some .cpAttackS
  | 0x0044 => some .cpReleaseS
  | 0x0045 => some .cpLookaheadS
  | 0x0046 => some .cpHoldS
  | 0x0047 => some .cpMakeupDb
  | 0x0050 => some .cpEnv
  | 0x0051 => some .cpGainDb
  | 0x0052 => some .cpDelayN
  | 0x0053 => some .cpWindowN
  | 0x0060 => some .luBlockN
  | 0x0061 => some .luHopN
  | 0x0062 => some .luFrames
  | n =>
    if 0x0030 ≤ n then
      if h : n - 0x0030 < Config.cMax then some (.luWeight ⟨n - 0x0030, h⟩) else none
    else none

/-- ID (R36): "AFXC", edition 7. -/
def idValue : Dword := 0x4146584300000007#64

/-- PARAMS (R39). -/
def paramsValue : Dword :=
  0#8 ++ BitVec.ofNat 8 Config.tpA ++ BitVec.ofNat 8 Config.nMrms ++ BitVec.ofNat 8 Config.nMmx
    ++ BitVec.ofNat 8 Config.nLag ++ BitVec.ofNat 8 Config.nFir ++ BitVec.ofNat 8 Config.nBq
    ++ BitVec.ofNat 8 Config.cMax

/-- PARAMS2 (R39). -/
def params2Value : Dword := BitVec.ofNat 32 Config.fsMax ++ BitVec.ofNat 32 Config.winMax

/-- PARAMS3 (R39). -/
def params3Value : Dword := 0#16 ++ BitVec.ofNat 16 Config.firMaxTaps ++ BitVec.ofNat 32 Config.cpLMax

/-- The value a CSR reads (R36 to R49). -/
def csrValue (r : Csr) (s : State) : Dword :=
  match r with
  | .id => idValue
  | .status => statusWord s
  | .errInfo => s.errInfo
  | .params => paramsValue
  | .params2 => params2Value
  | .params3 => params3Value
  | .cfgChannels => s.cfg.channels.setWidth 64
  | .cfgFs => s.cfg.fs.setWidth 64
  | .luCfg => s.cfg.lu.setWidth 64
  | .tpCfg => s.cfg.tp.setWidth 64
  | .cpCfg => s.cfg.cp.setWidth 64
  | .luWeight c => s.cfg.luWeight[c]
  | .cpThresholdDb => s.cfg.set.thresholdDb
  | .cpRatio => s.cfg.set.ratio
  | .cpKneeDb => s.cfg.set.kneeDb
  | .cpAttackS => s.cfg.set.attackS
  | .cpReleaseS => s.cfg.set.releaseS
  | .cpLookaheadS => s.cfg.set.lookaheadS
  | .cpHoldS => s.cfg.set.holdS
  | .cpMakeupDb => s.cfg.set.makeupDb
  | .cpEnv => s.cp.envObs
  | .cpGainDb => s.cp.gainDb
  | .cpDelayN => s.cp.len
  | .cpWindowN => s.cp.winN
  | .luBlockN => s.lu.blockN
  | .luHopN => s.lu.hopN
  | .luFrames => s.lu.n

/-- The read-write CSRs after writing `v` to `r`, storing its defined bits (R32, R88); `none` for a
read-only `r` (R34). -/
def ConfigRegs.write (c : ConfigRegs) (r : Csr) (v : Dword) : Option ConfigRegs :=
  match r with
  | .cfgChannels => some { c with channels := v.extractLsb' 0 8 }
  | .cfgFs => some { c with fs := v.extractLsb' 0 32 }
  | .luCfg => some { c with lu := v.extractLsb' 0 2 }
  | .tpCfg => some { c with tp := v.extractLsb' 0 1 }
  | .cpCfg => some { c with cp := v.extractLsb' 0 1 }
  | .luWeight k => some { c with luWeight := c.luWeight.set k.val v k.isLt }
  | .cpThresholdDb => some { c with set := { c.set with thresholdDb := v } }
  | .cpRatio => some { c with set := { c.set with ratio := v } }
  | .cpKneeDb => some { c with set := { c.set with kneeDb := v } }
  | .cpAttackS => some { c with set := { c.set with attackS := v } }
  | .cpReleaseS => some { c with set := { c.set with releaseS := v } }
  | .cpLookaheadS => some { c with set := { c.set with lookaheadS := v } }
  | .cpHoldS => some { c with set := { c.set with holdS := v } }
  | .cpMakeupDb => some { c with set := { c.set with makeupDb := v } }
  | .id => none
  | .status => none
  | .errInfo => none
  | .params => none
  | .params2 => none
  | .params3 => none
  | .cpEnv => none
  | .cpGainDb => none
  | .cpDelayN => none
  | .cpWindowN => none
  | .luBlockN => none
  | .luHopN => none
  | .luFrames => none

end Sys2Proof.Machine
end

