-- ==== Sys2Proof/Machine/Ops.lean ====
section
/-! DEFINITION. The shared operations: raising an error and leaving the error state
(`60_exceptions.md` rules R164 to R171), the template every command runs through (`40_control.md` rule
R83), the validity helpers (R84), and the memory primitives (`20_memory.md` rule R66). -/

namespace Sys2Proof.Machine

/-! ## Errors (R165) -/

/-- The errors a command can raise. -/
inductive ErrCode where
  | invalidFrame | denormalizedInput | invalidArgument | streamError | illegalCommand
  | illegalIndex | illegalCsr | notReady | nanInput
  deriving DecidableEq, Repr

/-- code(E) (R165). -/
def ErrCode.code : ErrCode → Byte
  | .invalidFrame => 1#8
  | .denormalizedInput => 2#8
  | .invalidArgument => 3#8
  | .streamError => 4#8
  | .illegalCommand => 5#8
  | .illegalIndex => 6#8
  | .illegalCsr => 7#8
  | .notReady => 8#8
  | .nanInput => 9#8

/-- `raise E(chan, stream)` (R166). -/
structure Raise where
  error : ErrCode
  chan : Half
  stream : Half
  deriving DecidableEq, Repr

/-- `raise E` with neither chan nor stream: each is then 0 (R166). -/
def raiseOf (e : ErrCode) : Raise := ⟨e, 0#16, 0#16⟩

/-- What the Execute part of a command does: it raises, or it gives a new state and result dwords. -/
abbrev Effect := Except Raise (State × List Dword)

/-- POISON (R74). -/
def poison : Dword := 0xFFFFFFFFFFFFFFFF#64

/-- `emit` (R9): result dwords go to the end of the result port (R62). -/
def State.emit (s : State) (rs : List Dword) : State := { s with results := s.results ++ rs }

/-- Taking an error, step (3) of R166: ERR and ERR_INFO take the error unless one is latched already.
All other state is as it was before the command (step (1) of R166). -/
def State.latch (s : State) (r : Raise) (cmd : Word) : State :=
  if s.err = 0#8 then
    { s with err := r.error.code, errInfo := errInfoWord r.chan r.stream cmd }
  else s

/-- Leaving the error state: the reset action (R182, R171), which sets every state item of
`10_state.md`. The two ports and the model's draw counter are no such items and stay. -/
def State.resetItems (s : State) : State :=
  { State.reset with port := s.port, results := s.results, draws := s.draws }

/-! ## The step template (R83) -/

/-- NRES (R75, R83): for CP_FRAME it is CP.C if CP.READY = 1 and 0 otherwise (R74). -/
def nres (o : Opcode) (s : State) : Nat :=
  match o with
  | .cpFrame => if s.cp.ready then s.cp.c.toNat else 0
  | _ => o.row.nres

/-- NRES of an OP value: 0 for an unassigned one (R83). -/
def nresOf (o : Option Opcode) (s : State) : Nat :=
  match o with
  | none => 0
  | some o => nres o s

/-- The commands that run while an error is latched: NOP, RESET and CSR_READ (R167). -/
def runsWhileLatched (o : Option Opcode) : Bool :=
  o == some .nop || o == some .reset || o == some .csrRead

/-- R83 for a command word with opcode `o`, `body` being Check and Execute: discard it, run it, or take
the error it raises. NRES is evaluated before the command runs. -/
def runWord (o : Option Opcode) (cmd : Word) (body : State → Effect) (s : State) : State :=
  if s.err ≠ 0#8 ∧ runsWhileLatched o = false then s.emit (List.replicate (nresOf o s) poison)
  else
    match body s with
    | .ok (t, rs) => t.emit rs
    | .error r => (s.latch r cmd).emit (List.replicate (nresOf o s) poison)

/-- R83 for an instruction. -/
def runCommand (i : Instr) (body : State → Effect) (s : State) : State :=
  runWord (some i.opcode) (encodeWord i) body s

/-- R83 for an illegal command word: Check raises ILLEGAL_COMMAND (R78, R168). -/
def runIllegal (cmd : Word) (s : State) : State :=
  runWord (opcodeOf (opField cmd)) cmd (fun _ => .error (raiseOf .illegalCommand)) s

/-! ## Validity helpers (R84) -/

/-- Raises `e` unless `c` holds. -/
def need (c : Bool) (e : ErrCode) : Except Raise Unit :=
  if c then .ok () else .error (raiseOf e)

/-- need_ready(u): NOT_READY if u.READY = 0. -/
def needReady (ready : Bool) : Except Raise Unit := need ready .notReady

/-- need_fs(lo): CFG_FS[31:0], which must be lo to FS_MAX. -/
def needFs (lo : Nat) (s : State) : Except Raise Word :=
  if lo ≤ s.cfg.fs.toNat ∧ s.cfg.fs.toNat ≤ Config.fsMax then .ok s.cfg.fs
  else .error (raiseOf .invalidArgument)

/-- need_channels(): CFG_CHANNELS[7:0], which must be 1 to C_MAX. -/
def needChannels (s : State) : Except Raise Byte :=
  if 1 ≤ s.cfg.channels.toNat ∧ s.cfg.channels.toNat ≤ Config.cMax then .ok s.cfg.channels
  else .error (raiseOf .invalidArgument)

/-! ## Memory primitives (R66) -/

/-- MemRead(a, 8). -/
def memRead (a : Half) (s : State) : Except Raise Dword :=
  match csrAt a with
  | none => .error (raiseOf .illegalCsr)
  | some r => .ok (csrValue r s)

/-- MemWrite(a, 8, v). -/
def memWrite (a : Half) (v : Dword) (s : State) : Except Raise State :=
  match csrAt a with
  | none => .error (raiseOf .illegalCsr)
  | some r =>
    match s.cfg.write r v with
    | none => .error (raiseOf .illegalCsr)
    | some cfg => .ok { s with cfg := cfg }

end Sys2Proof.Machine
end

