-- ==== Sys2Proof/Machine/Operands.lean ====
section
/-! DEFINITION. The operand and result forms of `30_encoding.md` rules R71 to R73. An f64 operand is its
dword used exactly, and a u64 operand is its dword as an unsigned number, so neither needs an operation. -/

namespace Sys2Proof.Machine

/-- IDX of type `inst` (R73): instance IDX of a family's register file, or ILLEGAL_INDEX when IDX is at
or above the family's instance count. -/
def instAt {α : Type} {n : Nat} (file : Vector α n) (idx : Byte) : Except Raise α :=
  if h : idx.toNat < n then .ok file[idx.toNat] else .error (raiseOf .illegalIndex)

/-- The register file with instance IDX replaced. -/
def putInst {α : Type} {n : Nat} (file : Vector α n) (idx : Byte) (q : α) : Vector α n :=
  file.setIfInBounds idx.toNat q

/-- IDX of type `chan` or `acc`, or an index operand (R73): ILLEGAL_INDEX at or above the bound. -/
def needIndex (i bound : Nat) : Except Raise Unit := need (decide (i < bound)) .illegalIndex

/-- An f64 result (R72): the bits of x. A NaN result holds any NaN pattern (R15), so it is draw `d`. -/
def resultF64 (d : Nat) (x : F64) : Dword := drawNaN d x

end Sys2Proof.Machine
end

