-- ==== Sys2Proof/Machine/Biquad.lean ====
section
/-! DEFINITION. The Biquad IIR filter: `41_biquad.md` rules R91 to R94. -/

namespace Sys2Proof.Machine

/-- The output of R91: ((((b0·x + b1·x1) + b2·x2) − a1·y1) − a2·y2), each operation rounded. -/
def bqOutput (st : BqState) (k : BqCoef) (x : F64) : F64 :=
  fsub (fsub (fadd (fadd (fmul k.b0 x) (fmul k.b1 st.x1)) (fmul k.b2 st.x2)) (fmul k.a1 st.y1))
    (fmul k.a2 st.y2)

/-- bq_step(s, k, x) (R91): the new state and the output. A NaN output is draw `d` (R15). -/
def bqStep (d : Nat) (st : BqState) (k : BqCoef) (x : F64) : BqState × F64 :=
  let y := drawNaN d (bqOutput st k x)
  (⟨x, st.x1, y, st.y1⟩, y)

/-- BQ_INIT (R93). -/
def execBqInit (inst : Byte) (b0 b1 b2 a1 a2 : F64) (s : State) : Host.Outcome State Fault Refusal :=
  .next (runCommand (.bqInit inst b0 b1 b2 a1 a2) (fun s => do
    let _ ← instAt s.bq inst
    .ok ({ s with bq := putInst s.bq inst ⟨true, ⟨b0, b1, b2, a1, a2⟩, .zero⟩ }, [])) s)

/-- BQ_PROCESS (R94). -/
def execBqProcess (inst : Byte) (x : F64) (s : State) : Host.Outcome State Fault Refusal :=
  .next (runCommand (.bqProcess inst x) (fun s => do
    let q ← instAt s.bq inst
    needReady q.ready
    let r := bqStep s.draws q.st q.coef x
    .ok ({ s with bq := putInst s.bq inst { q with st := r.1 }, draws := s.draws + 1 }, [r.2])) s)

end Sys2Proof.Machine
end

