-- ==== Sys2Proof/Machine/Frame.lean ====
section
/-! DEFINITION. The frame demultiplexer: `46_frame.md` rules R118 to R125. -/

namespace Sys2Proof.Machine

/-- FRAME[0 .. c−1]. -/
def frameSamples (fd : FrameDemux) (c : Byte) : List F64 := fd.frame.toList.take c.toNat

/-- need_frame(C) (R124): the current frame, or INVALID_FRAME when it is not VALID or FD.C ≠ C. -/
def needFrame (c : Byte) (s : State) : Except Raise (List F64) :=
  if s.fd.valid && s.fd.c == c then .ok (frameSamples s.fd c) else .error (raiseOf .invalidFrame)

/-- The frame state after a push (R120): a complete frame starts the next one. -/
def FrameDemux.push (fd : FrameDemux) (x : F64) : FrameDemux :=
  let at' := if fd.cnt.toNat = fd.c.toNat then 0#64 else fd.cnt
  { fd with frame := fd.frame.setIfInBounds at'.toNat x, cnt := at' + 1#64 }

/-- FD_INIT (R119). -/
def execFdInit (s : State) : Host.Outcome State Fault Refusal :=
  .next (runCommand .fdInit (fun s => do
    let c ← needChannels s
    .ok ({ s with fd := { ready := true, c := c, frame := Vector.replicate _ f0, cnt := 0#64,
                          eos := false } }, [])) s)

/-- FD_PUSH (R120). -/
def execFdPush (x : F64) (s : State) : Host.Outcome State Fault Refusal :=
  .next (runCommand (.fdPush x) (fun s => do
    needReady s.fd.ready
    need (!s.fd.eos) .notReady
    .ok ({ s with fd := s.fd.push x }, [])) s)

/-- FD_PUSH_ERR (R121): it always raises STREAM_ERROR with the stream's code. -/
def execFdPushErr (code : Half) (s : State) : Host.Outcome State Fault Refusal :=
  .next (runCommand (.fdPushErr code) (fun _ => .error ⟨.streamError, 0#16, code⟩) s)

/-- FD_END (R122): INVALID_FRAME inside a frame. -/
def execFdEnd (s : State) : Host.Outcome State Fault Refusal :=
  .next (runCommand .fdEnd (fun s => do
    needReady s.fd.ready
    need (!(decide (0 < s.fd.cnt.toNat) && decide (s.fd.cnt.toNat < s.fd.c.toNat))) .invalidFrame
    .ok ({ s with fd := { s.fd with eos := true } }, [])) s)

/-- FD_READ (R123): the stored bits, a NaN's payload included. -/
def execFdRead (chan : Byte) (s : State) : Host.Outcome State Fault Refusal :=
  .next (runCommand (.fdRead chan) (fun s => do
    needIndex chan.toNat s.fd.c.toNat
    needReady s.fd.ready
    need s.fd.valid .invalidFrame
    .ok (s, [s.fd.frame.toList.getD chan.toNat f0])) s)

end Sys2Proof.Machine
end

