-- ==== Sys2Proof/Machine/Lag1.lean ====
section
/-! DEFINITION. The Lag1 envelope follower: `43_lag1.md` rules R100 to R105. -/

namespace Sys2Proof.Machine

/-- lag_factor(tau, fs) (R100): the time constant floored at one sample period. -/
def lagFactor (tau : F64) (fs : Word) : F64 :=
  let per := fdiv f1 (fOfNat fs.toNat)
  let tr := if flt tau per then per else tau
  fdiv f1 (fmul tr (fOfNat fs.toNat))

/-- The new level of R101: the rise factor when x ≥ level, the fall factor otherwise. -/
def lagLevel (g : Lag) (x : F64) : F64 :=
  if fle g.level x then fadd g.level (fmul g.rise (fsub x g.level))
  else fadd g.level (fmul g.fall (fsub x g.level))

/-- lag_step(g, x) (R101): the new state, whose level is also what it returns. A NaN level is draw `d`. -/
def lagStep (d : Nat) (g : Lag) (x : F64) : Lag := { g with level := drawNaN d (lagLevel g x) }

/-- LAG_INIT (R102). -/
def execLagInit (inst : Byte) (tauRise tauFall gain : F64) (s : State) :
    Host.Outcome State Fault Refusal :=
  .next (runCommand (.lagInit inst tauRise tauFall gain) (fun s => do
    let _ ← instAt s.lag inst
    let fs ← needFs 1 s
    need (isFinite tauRise && isFinite tauFall) .invalidArgument
    let l : Lag :=
      { rise := lagFactor tauRise fs, fall := lagFactor tauFall fs, gain := gain, level := f0 }
    .ok ({ s with lag := putInst s.lag inst ⟨true, l⟩ }, [])) s)

/-- LAG_PROCESS (R103). -/
def execLagProcess (inst : Byte) (x : F64) (s : State) : Host.Outcome State Fault Refusal :=
  .next (runCommand (.lagProcess inst x) (fun s => do
    let g ← instAt s.lag inst
    needReady g.ready
    let l := lagStep s.draws g.lag x
    .ok ({ s with lag := putInst s.lag inst { g with lag := l }, draws := s.draws + 2 },
      [resultF64 (s.draws + 1) (fmul l.level l.gain)])) s)

/-- LAG_PROCESS_INITIAL (R104): no output gain; the result is the level. -/
def execLagProcessInitial (inst : Byte) (x : F64) (s : State) : Host.Outcome State Fault Refusal :=
  .next (runCommand (.lagProcessInitial inst x) (fun s => do
    let g ← instAt s.lag inst
    needReady g.ready
    let l := lagStep s.draws g.lag x
    .ok ({ s with lag := putInst s.lag inst { g with lag := l }, draws := s.draws + 1 },
      [l.level])) s)

/-- LAG_SETTLING_LEN (R105). -/
def execLagSettlingLen (tauRise : F64) (s : State) : Host.Outcome State Fault Refusal :=
  .next (runCommand (.lagSettlingLen tauRise) (fun s => do
    let fs ← needFs 1 s
    .ok (s, [satU64 (ffloor (fmul (fOfNat fs.toNat) (fsqrt tauRise)))])) s)

end Sys2Proof.Machine
end

