-- ==== Sys2Proof/Machine/Fir.lean ====
section
/-! DEFINITION. The FIR oversampler with a Lanczos kernel: `42_fir.md` rules R95 to R99. -/

namespace Sys2Proof.Machine

/-- PI (R96): the binary64 nearest to π. -/
def fPi : F64 := 0x400921FB54442D18#64

/-- L(p, a) = 2·(p·a − 1) + 1 (R95), for p·a ≥ 1. -/
def kernelLen (p a : Nat) : Nat := 2 * (p * a - 1) + 1

/-- (p, a) is valid (R95). -/
def kernelValid (p a : Nat) : Bool :=
  decide (1 ≤ p) && decide (1 ≤ a) && decide (kernelLen p a ≤ Config.firMaxTaps)

/-- The tap at the signed offset k (R96). -/
def lanczosTap (p a : Nat) (k : Int) : F64 :=
  if k = 0 then f1
  else
    let t1 := fdiv (fmul fPi (fOfInt k)) (fOfNat p)
    let t2 := fdiv (fmul fPi (fOfInt k)) (fOfNat (p * a))
    fmul (fdiv (fnSin t1) t1) (fdiv (fnSin t2) t2)

/-- lanczos(p, a) (R96): the taps at k = j − H for j in 0 .. L−1, with H = p·a − 1. -/
def lanczos (p a : Nat) : List F64 :=
  (List.range (kernelLen p a)).map fun (j : Nat) => lanczosTap p a ((j : Int) - ((p * a - 1 : Nat) : Int))

/-- The dot product of R97: buf[0]·h[0], and then each later product added in index order. -/
def dotProduct (buf h : List F64) : F64 :=
  match List.zipWith fmul buf h with
  | [] => f0
  | p :: ps => ps.foldl fadd p

/-- The ring after fir_step drops the oldest sample and appends the newest (R97). -/
def ringPush (buf : List F64) (x : F64) : List F64 := buf.tail ++ [x]

/-- fir_step(buf, h, x) (R97): the new ring and the output. -/
def firStep (buf h : List F64) (x : F64) : List F64 × F64 :=
  (ringPush buf x, dotProduct (ringPush buf x) h)

/-- FIR_INIT (R98). -/
def execFirInit (inst : Byte) (p a : Dword) (s : State) : Host.Outcome State Fault Refusal :=
  .next (runCommand (.firInit inst p a) (fun s => do
    let _ ← instAt s.fir inst
    need (kernelValid p.toNat a.toNat) .invalidArgument
    let len := kernelLen p.toNat a.toNat
    .ok ({ s with
      fir := putInst s.fir inst
        { ready := true, p := p, a := a, len := BitVec.ofNat 64 len,
          h := drawNaNs s.draws (lanczos p.toNat a.toNat), buf := List.replicate len f0 }
      draws := s.draws + len }, [])) s)

/-- FIR_PROCESS (R99). -/
def execFirProcess (inst : Byte) (x : F64) (s : State) : Host.Outcome State Fault Refusal :=
  .next (runCommand (.firProcess inst x) (fun s => do
    let f ← instAt s.fir inst
    needReady f.ready
    let r := firStep f.buf f.h x
    .ok ({ s with fir := putInst s.fir inst { f with buf := r.1 }, draws := s.draws + 1 },
      [resultF64 s.draws r.2])) s)

end Sys2Proof.Machine
end

