-- ==== Sys2Proof/Machine/MovMax.lean ====
section
/-! DEFINITION. The MovMax sliding-window maximum: `44_movmax.md` rules R106 to R110. -/

namespace Sys2Proof.Machine

/-- The candidates after "while cand is not empty and back(cand) < x: pop_back(cand)" (R106). -/
def popSmaller (cand : List F64) (x : F64) : List F64 :=
  (cand.reverse.dropWhile fun b => flt b x).reverse

/-- The eviction of R106 once the window is longer than W: the oldest sample leaves the window, and the
front candidate too if it compares equal to it. -/
def mmxEvict (m : MovMax) : MovMax :=
  match m.win with
  | [] => m
  | o :: win =>
    match m.cand with
    | [] => { m with win := win }
    | c :: cand => if feq o c then { m with win := win, cand := cand } else { m with win := win }

/-- The MovMax state after mmx_step(m, x) (R106). -/
def mmxPush (m : MovMax) (x : F64) : MovMax :=
  let m' : MovMax := { m with win := m.win ++ [x], cand := popSmaller m.cand x ++ [x] }
  if m.w.toNat < m'.win.length then mmxEvict m' else m'

/-- mmx_step(m, x) (R106): the new state and the front candidate, or +0.0 when there is none. -/
def mmxStep (m : MovMax) (x : F64) : MovMax × F64 := (mmxPush m x, (mmxPush m x).cand.headD f0)

/-- A window length is legal (R109, R114): 1 ≤ W ≤ WIN_MAX. -/
def windowOk (w : Dword) : Bool := decide (1 ≤ w.toNat) && decide (w.toNat ≤ Config.winMax)

/-- MMX_INIT (R109). -/
def execMmxInit (inst : Byte) (w : Dword) (s : State) : Host.Outcome State Fault Refusal :=
  .next (runCommand (.mmxInit inst w) (fun s => do
    let _ ← instAt s.mmx inst
    need (windowOk w) .invalidArgument
    .ok ({ s with mmx := putInst s.mmx inst ⟨true, .empty w⟩ }, [])) s)

/-- MMX_PROCESS (R110): a NaN sample raises NAN_INPUT (R107). -/
def execMmxProcess (inst : Byte) (x : F64) (s : State) : Host.Outcome State Fault Refusal :=
  .next (runCommand (.mmxProcess inst x) (fun s => do
    let q ← instAt s.mmx inst
    needReady q.ready
    need (!isNaN x) .nanInput
    let r := mmxStep q.mm x
    .ok ({ s with mmx := putInst s.mmx inst { q with mm := r.1 } }, [r.2])) s)

end Sys2Proof.Machine
end

