-- ==== Sys2Proof/Machine/MovRms.lean ====
section
/-! DEFINITION. The MovRms sliding-window RMS accumulator: `45_movrms.md` rules R111 to R117. -/

namespace Sys2Proof.Machine

/-- A plain sum from +0.0, in list order (R111, R135, R137). -/
def sumFrom0 (xs : List F64) : F64 := xs.foldl fadd f0

/-- REFRESH_INTERVAL (R112). -/
def refreshInterval : Nat := 1048576

/-- mrms_refresh(r) (R111): the accumulator summed from the ring, oldest first. A NaN sum is draw `d`. -/
def mrmsRefreshed (d : Nat) (r : MovRms) : MovRms := { r with acc := drawNaN d (sumFrom0 r.sq) }

/-- The state of mrms_step before the refresh test (R112): the square pushed, acc updated, cnt advanced.
NaN results are draws `d` and `d + 1`. -/
def mrmsPush (d : Nat) (r : MovRms) (x : F64) : MovRms :=
  let sq := drawNaN d (fmul x x)
  { r with
    sq := ringPush r.sq sq
    acc := drawNaN (d + 1) (fadd r.acc (fsub sq (r.sq.headD f0)))
    cnt := r.cnt + 1#64 }

/-- The refresh condition of R112: cnt a multiple of REFRESH_INTERVAL, or acc below zero. -/
def mrmsMustRefresh (r : MovRms) : Bool :=
  r.cnt.toNat % refreshInterval == 0 || flt r.acc f0

/-- The state after mrms_step(r, x) (R112). It takes the draws `d` to `d + 1`. -/
def mrmsNext (d : Nat) (r : MovRms) (x : F64) : MovRms :=
  let r' := mrmsPush d r x
  if mrmsMustRefresh r' then mrmsRefreshed (d + 1) r' else r'

/-- The output of mrms_step (R112): gain·sqrt(acc / f64(W)). -/
def mrmsOutput (r : MovRms) : F64 := fmul r.gain (fsqrt (fdiv r.acc (fOfNat r.w.toNat)))

/-- MRMS_INIT (R114). -/
def execMrmsInit (inst : Byte) (w : Dword) (gain : F64) (s : State) :
    Host.Outcome State Fault Refusal :=
  .next (runCommand (.mrmsInit inst w gain) (fun s => do
    let _ ← instAt s.mrms inst
    need (windowOk w) .invalidArgument
    let r : MovRms :=
      { w := w, gain := gain, sq := List.replicate w.toNat f0, acc := f0, cnt := 0#64 }
    .ok ({ s with mrms := putInst s.mrms inst ⟨true, r⟩ }, [])) s)

/-- MRMS_PROCESS (R115). -/
def execMrmsProcess (inst : Byte) (x : F64) (s : State) : Host.Outcome State Fault Refusal :=
  .next (runCommand (.mrmsProcess inst x) (fun s => do
    let q ← instAt s.mrms inst
    needReady q.ready
    let r := mrmsNext s.draws q.rms x
    .ok ({ s with mrms := putInst s.mrms inst { q with rms := r }, draws := s.draws + 3 },
      [resultF64 (s.draws + 2) (mrmsOutput r)])) s)

/-- MRMS_REFRESH (R116): cnt does not change. -/
def execMrmsRefresh (inst : Byte) (s : State) : Host.Outcome State Fault Refusal :=
  .next (runCommand (.mrmsRefresh inst) (fun s => do
    let q ← instAt s.mrms inst
    needReady q.ready
    .ok ({ s with
      mrms := putInst s.mrms inst { q with rms := mrmsRefreshed s.draws q.rms }
      draws := s.draws + 1 }, [])) s)

/-- MRMS_READ_ACC (R117). -/
def execMrmsReadAcc (inst : Byte) (s : State) : Host.Outcome State Fault Refusal :=
  .next (runCommand (.mrmsReadAcc inst) (fun s => do
    let q ← instAt s.mrms inst
    needReady q.ready
    .ok ({ s with draws := s.draws + 1 }, [resultF64 s.draws q.rms.acc])) s)

end Sys2Proof.Machine
end

