-- ==== Sys2Proof/Machine/Compressor.lean ====
section
/-! DEFINITION. The feed-forward compressor with look-ahead delay: `49_compressor.md` rules R150 to R163. -/

namespace Sys2Proof.Machine

/-! ## Configuration -/

/-- A time in frames (R151): integer(trunc(time · f64(fs))). The product of a finite time and fs may be
infinite; it is then no integer and exceeds every bound of R152 (log entry 8). -/
def framesOf (time : F64) (fs : Word) : Option Nat :=
  let p := fmul time (fOfNat fs.toNat)
  if isFinite p then some (fToNat (ftrunc p)) else none

/-- x is finite and x ≥ 0.0. -/
def finiteNonneg (x : F64) : Bool := isFinite x && fle f0 x

/-- The conditions of R152 on the settings themselves. -/
def cpSettingsOk (k : CpSettings) : Bool :=
  flt f1 k.ratio && isFinite k.thresholdDb && isFinite k.makeupDb && finiteNonneg k.kneeDb
    && isFinite k.attackS && isFinite k.releaseS && finiteNonneg k.lookaheadS && finiteNonneg k.holdS

/-- R151 and R152: L, Hn and Wp = (L + Hn)·C when every condition holds. -/
def cpLengths (k : CpSettings) (c : Byte) (fs : Word) : Option (Nat × Nat × Nat) :=
  match framesOf k.lookaheadS fs, framesOf k.holdS fs with
  | some l, some hn =>
    if cpSettingsOk k && decide (1 ≤ l) && decide (l ≤ Config.cpLMax)
        && decide ((l + hn) * c.toNat ≤ Config.winMax) then
      some (l, hn, (l + hn) * c.toNat)
    else none
  | _, _ => none

/-- The preprocessor after CP_INIT (R155). -/
def cpFreshPre (det : Bool) (w : Nat) : CpPre :=
  if det then
    .rms { w := BitVec.ofNat 64 w, gain := f1, sq := List.replicate w f0, acc := f0, cnt := 0#64 }
  else .peak (.empty (BitVec.ofNat 64 w))

/-- The unit after CP_INIT (R155). -/
def cpFresh (k : CpSettings) (det : Bool) (c : Byte) (fs : Word) (l hn w : Nat) : Compressor where
  ready := true
  c := c
  fs := fs
  det := det
  t := k.thresholdDb
  r := k.ratio
  kw := k.kneeDb
  m := k.makeupDb
  tauA := k.attackS
  tauR := k.releaseS
  len := BitVec.ofNat 64 l
  holdN := BitVec.ofNat 64 hn
  winN := BitVec.ofNat 64 w
  pre := cpFreshPre det w
  env := { rise := lagFactor k.attackS fs, fall := lagFactor k.releaseS fs,
           gain := if det then Config.rmsCompGain else f1, level := f0 }
  fifo := List.replicate l (List.replicate c.toNat f0)
  envObs := f0
  gainDb := f0

/-! ## Detector and gain computer -/

/-- rect(x) of Peak mode (R154). -/
def rect (x : F64) : F64 := if Config.peakRectifyAbs then fabs x else x

/-- The preprocessor loop of R156 from channel `c` on: the state and the last value. A NaN in Peak mode
raises NAN_INPUT for its channel (R107). In RMS mode each sample takes three draws. -/
def cpFeed : Nat → Nat → CpPre → F64 → List F64 → Except Raise (CpPre × F64)
  | _, _, pre, pv, [] => .ok (pre, pv)
  | d, c, .peak mm, _, x :: xs =>
    if isNaN (rect x) then .error ⟨.nanInput, BitVec.ofNat 16 c, 0#16⟩
    else
      let r := mmxStep mm (rect x)
      cpFeed d (c + 1) (.peak r.1) r.2 xs
  | d, c, .rms m, _, x :: xs =>
    let m' := mrmsNext d m x
    cpFeed (d + 3) (c + 1) (.rms m') (drawNaN (d + 2) (mrmsOutput m')) xs

/-- cp_detect(x) (R156): the unit with its detector stepped, and the envelope. It takes the draws `d` to
`d + 3·C + 1` for a frame of C samples. -/
def cpDetect (d : Nat) (u : Compressor) (x : List F64) : Except Raise (Compressor × F64) := do
  let r ← cpFeed d 0 u.pre f0 x
  let env := lagStep (d + 3 * x.length) u.env r.2
  .ok ({ u with pre := r.1, env := env },
    drawNaN (d + 3 * x.length + 1) (fmul env.level env.gain))

/-- −200.0. -/
def fMinus200 : F64 := 0xC069000000000000#64

/-- cp_level(e) (R157): a NaN level is replaced by −200.0. -/
def cpLevel (e : F64) : F64 :=
  let ld := fmul f20 (fnLog10 e)
  if isNaN ld then fMinus200 else ld

/-- cp_gain(ld) (R158): below the knee, inside it, above it, tested in this order. -/
def cpGain (u : Compressor) (ld : F64) : F64 :=
  let kc := fmul f2 (fsub ld u.t)
  if flt kc (fneg u.kw) then u.m
  else if flt f0 u.kw && fle kc u.kw then Config.kneeGain ld u.t u.kw u.r u.m
  else fsub (fadd (fadd u.t (fdiv (fsub ld u.t) u.r)) u.m) ld

/-- The default KNEE_GAIN (R159), the quadratic soft knee, which serves the test vectors only. -/
def kneeGainDefault (ld t kw r m : F64) : F64 :=
  let d := fadd (fsub ld t) (fdiv kw f2)
  fadd (fdiv (fmul (fsub (fdiv f1 r) f1) (fmul d d)) (fmul f2 kw)) m

/-- The linear gain of a gain in dB (R160): exp10(gdb / 20.0). -/
def cpLinear (gdb : F64) : F64 := exp10 (fdiv gdb f20)

/-! ## Commands -/

/-- CP_INIT (R155). -/
def execCpInit (s : State) : Host.Outcome State Fault Refusal :=
  .next (runCommand .cpInit (fun s => do
    let c ← needChannels s
    let fs ← needFs 1 s
    match cpLengths s.cfg.set c fs with
    | none => .error (raiseOf .invalidArgument)
    | some (l, hn, w) =>
      .ok ({ s with cp := cpFresh s.cfg.set (s.cfg.cp.getLsbD 0) c fs l hn w }, [])) s)

/-- The frame CP_FRAME consumes (R160): the FD's, or a zero frame when ZERO = 1. -/
def cpInputFrame (zero : Bool) (s : State) : Except Raise (List F64) :=
  if zero then .ok (List.replicate s.cp.c.toNat f0) else needFrame s.cp.c s

/-- The output samples of a CP_FRAME (R160): the delayed frame times the gain, one for each channel,
NaN results being draws from `d` on. -/
def cpOutputs (d : Nat) (c : Byte) (frame : List F64) (g : F64) : List F64 :=
  drawNaNs d ((List.range c.toNat).map fun i => fmul (frame.getD i f0) g)

/-- CP_FRAME (R160). -/
def execCpFrame (zero : Bool) (s : State) : Host.Outcome State Fault Refusal :=
  .next (runCommand (.cpFrame zero) (fun s => do
    needReady s.cp.ready
    let x ← cpInputFrame zero s
    let r ← cpDetect s.draws s.cp x
    let d := s.draws + 3 * x.length + 2
    let gdb := drawNaN d (cpGain s.cp (cpLevel r.2))
    let out := s.cp.fifo.headD []
    .ok ({ s with
      cp := { r.1 with fifo := s.cp.fifo.tail ++ [x], envObs := r.2, gainDb := gdb }
      draws := d + 1 + s.cp.c.toNat },
      cpOutputs (d + 1) s.cp.c out (cpLinear gdb))) s)

/-- CP_FRAME_INITIAL (R162): the detector alone. -/
def execCpFrameInitial (s : State) : Host.Outcome State Fault Refusal :=
  .next (runCommand .cpFrameInitial (fun s => do
    needReady s.cp.ready
    let x ← needFrame s.cp.c s
    let r ← cpDetect s.draws s.cp x
    .ok ({ s with cp := r.1, draws := s.draws + (3 * x.length + 2) }, [])) s)

end Sys2Proof.Machine
end

