-- ==== Sys2Proof/Machine/Control.lean ====
section
/-! DEFINITION. The control commands: `40_control.md` rules R85 to R88. -/

namespace Sys2Proof.Machine

/-- NOP (R85): nothing. -/
def execNop (s : State) : Host.Outcome State Fault Refusal :=
  .next (runCommand .nop (fun s => .ok (s, [])) s)

/-- RESET (R86): every state item takes its reset value. -/
def execReset (s : State) : Host.Outcome State Fault Refusal :=
  .next (runCommand .reset (fun s => .ok (s.resetItems, [])) s)

/-- CSR_READ (R87). -/
def execCsrRead (addr : Half) (s : State) : Host.Outcome State Fault Refusal :=
  .next (runCommand (.csrRead addr) (fun s => do
    let v ← memRead addr s
    .ok (s, [v])) s)

/-- CSR_WRITE (R88). -/
def execCsrWrite (addr : Half) (v : Dword) (s : State) : Host.Outcome State Fault Refusal :=
  .next (runCommand (.csrWrite addr v) (fun s => do
    let t ← memWrite addr v s
    .ok (t, [])) s)

end Sys2Proof.Machine
end

