-- ==== Sys2Proof/Machine/Loudness.lean ====
section
/-! DEFINITION. The loudness unit: `47_loudness.md` rules R126 to R144. -/

namespace Sys2Proof.Machine

/-! ## Parameters -/

/-- −70.0, GAMMA_A (R130). -/
def fGammaA : F64 := 0xC051800000000000#64
/-- 8.0, Z_MAX (R130). -/
def fZMax : F64 := 0x4020000000000000#64
/-- BIN_COUNT (R130). -/
def binCount : Nat := 7801
/-- SCALE = 7801.0 / (8.0 − (−70.0)) (R130). -/
def fScale : F64 := fdiv (fOfNat binCount) (fsub fZMax fGammaA)
/-- BINW = 78.0 / 7801.0 (R130). -/
def fBinW : F64 := fdiv (fsub fZMax fGammaA) (fOfNat binCount)

/-- One stage of KW_COEFFS(fs) (R127). -/
def kwStage (fs : Word) (st : KStage) : BqCoef :=
  ⟨Config.kwCoeff fs st .b0, Config.kwCoeff fs st .b1, Config.kwCoeff fs st .b2,
   Config.kwCoeff fs st .a1, Config.kwCoeff fs st .a2⟩

/-- The high-shelf stage of the default KW_COEFFS (R128), which serves the test vectors only. -/
def kwDefaultShelf (fs : Word) : BqCoef :=
  let freq : F64 := 0x409A47E5D678A648#64
  let g : F64 := 0x400FFFAE226F6083#64
  let q : F64 := 0x3FE6A12DF668776C#64
  let k := Config.fnTan (fdiv (fmul fPi freq) (fOfNat fs.toNat))
  let vh := fnPow f10 (fdiv g f20)
  let vb := fnPow vh 0x3FDFFA8A59790F8D#64
  let kk := fmul k k
  let a0 := fadd (fadd f1 (fdiv k q)) kk
  ⟨fdiv (fadd (fadd vh (fdiv (fmul vb k) q)) kk) a0,
   fdiv (fmul f2 (fsub kk vh)) a0,
   fdiv (fadd (fsub vh (fdiv (fmul vb k) q)) kk) a0,
   fdiv (fmul f2 (fsub kk f1)) a0,
   fdiv (fadd (fsub f1 (fdiv k q)) kk) a0⟩

/-- The high-pass stage of the default KW_COEFFS (R128). -/
def kwDefaultHighPass (fs : Word) : BqCoef :=
  let freq : F64 := 0x404311571C130AF0#64
  let q : F64 := 0x3FE002ADD8D38A3C#64
  let k := Config.fnTan (fdiv (fmul fPi freq) (fOfNat fs.toNat))
  let kk := fmul k k
  let d := fadd (fadd f1 (fdiv k q)) kk
  ⟨f1, fneg f2, f1,
   fdiv (fmul f2 (fsub kk f1)) d,
   fdiv (fadd (fsub f1 (fdiv k q)) kk) d⟩

/-- B = (2·fs) div 5 (R129). -/
def blockLen (fs : Word) : Nat := 2 * fs.toNat / 5
/-- O = fs div 10 (R129). -/
def hopLen (fs : Word) : Nat := fs.toNat / 10

/-! ## Per-frame processing -/

/-- One channel of lu_weigh (R132): a channel of weight ±0.0 is skipped, its filters not stepped;
another gives w·(y·y) of its filtered sample y. It takes the draws `d` to `d + 2`. -/
def luWeighChan (d : Nat) (ks kh : BqCoef) (ch : LuChan) (x : F64) : LuChan × Option F64 :=
  if feq ch.w f0 then (ch, none)
  else
    let a := bqStep d ch.shelf ks x
    let b := bqStep (d + 1) ch.hp kh a.2
    ({ ch with shelf := a.1, hp := b.1 }, some (drawNaN (d + 2) (fmul ch.w (fmul b.2 b.2))))

/-- The channels of lu_weigh (R132), in ascending order: the new channels and the values e[c]. -/
def luWeighChans (ks kh : BqCoef) : Nat → List LuChan → List F64 → List LuChan × List (Option F64)
  | d, ch :: chs, x :: xs =>
    let r := luWeighChan d ks kh ch x
    let rest := luWeighChans ks kh (d + 3) chs xs
    (r.1 :: rest.1, r.2 :: rest.2)
  | _, chs, _ => (chs, [])

/-- The combined sum of R132: ascending channels, from +0.0, skipped ones left out. -/
def luCombine (es : List (Option F64)) : F64 :=
  es.foldl (fun s e => match e with | none => s | some v => fadd s v) f0

/-- What lu_weigh returns (R132): e[k] for each accumulator when INDEP = 1, else the one sum. A NaN sum
is draw `d`. -/
def luValues (d : Nat) (indep : Bool) (es : List (Option F64)) : List (Option F64) :=
  if indep then es else [some (drawNaN d (luCombine es))]

/-- An append to a block ring (R135): a full ring drops its oldest value first. -/
def luAppend (blockN : Dword) (a : LuAcc) (v : Option F64) : LuAcc :=
  match v with
  | none => a
  | some v =>
    if a.len = blockN then { a with blk := a.blk.tail ++ [v], len := a.len - 1#64 + 1#64 }
    else { a with blk := a.blk ++ [v], len := a.len + 1#64 }

/-- The appends of R135, accumulator by accumulator. -/
def luAppends (blockN : Dword) : List LuAcc → List (Option F64) → List LuAcc
  | a :: as, v :: vs => luAppend blockN a v :: luAppends blockN as vs
  | as, _ => as

/-- The index formula of R133 on a loudness l in dB. -/
def luIndexOfDb (l : F64) : F64 := fround (fsub (fmul fScale (fsub l fGammaA)) f1)

/-- lu_index(E) (R133). -/
def luIndex (e : F64) : F64 := luIndexOfDb (fmul f10 (fnLog10 e))

/-- Adds one to the count of a bin, modulo 2^64 (R134, R10). -/
def histBump (hist : List Dword) (i : Nat) : List Dword := hist.set i (hist.getD i 0#64 + 1#64)

/-- lu_commit(k, E) (R134) on the accumulator k. -/
def luCommit (k : Nat) (a : LuAcc) (e : F64) : Except Raise LuAcc :=
  let i := luIndex e
  if isNaN i then .error ⟨.nanInput, BitVec.ofNat 16 k, 0#16⟩
  else if fle (fOfNat binCount) i then .error ⟨.denormalizedInput, BitVec.ofNat 16 k, 0#16⟩
  else if flt i f0 then .ok a
  else .ok { a with hist := histBump a.hist (fToNat i) }

/-- The mean energy of a block ring: its sum, oldest first, over `n` (R135, R137). -/
def blockMean (a : LuAcc) (n : Dword) : F64 := fdiv (sumFrom0 a.blk) (fOfNat n.toNat)

/-- The commits of R135 at the end of a hop, from accumulator `k` on: every full ring. The Bool says
whether the condition fired. -/
def luCommitFull (blockN : Dword) : Nat → List LuAcc → Except Raise (List LuAcc × Bool)
  | _, [] => .ok ([], false)
  | k, a :: as => do
    let a' ← if blockN.toNat ≤ a.len.toNat then luCommit k a (blockMean a blockN) else .ok a
    let rest ← luCommitFull blockN (k + 1) as
    .ok (a' :: rest.1, decide (blockN.toNat ≤ a.len.toNat) || rest.2)

/-- The forced commits of R137, from accumulator `k` on: every ring that holds a value. -/
def luCommitPartial : Nat → List LuAcc → Except Raise (List LuAcc)
  | _, [] => .ok []
  | k, a :: as => do
    let a' ← if 0 < a.len.toNat then luCommit k a (blockMean a a.len) else .ok a
    let rest ← luCommitPartial (k + 1) as
    .ok (a' :: rest)

/-- lu_accumulate(v) (R135). -/
def luAccumulate (u : Loudness) (vs : List (Option F64)) : Except Raise Loudness :=
  let accs := luAppends u.blockN u.accs vs
  let n := u.n + 1#64
  if n.toNat % u.hopN.toNat = 0 then do
    let r ← luCommitFull u.blockN 0 accs
    .ok { u with accs := r.1, n := n, committed := u.committed || r.2 }
  else .ok { u with accs := accs, n := n }

/-- lu_accumulate(lu_weigh(x)) (R136), with the draws from `d` on: three for each channel and one for
the combined sum. -/
def luFrameStep (d : Nat) (u : Loudness) (x : List F64) : Except Raise Loudness :=
  let r := luWeighChans u.ks u.kh d u.chans x
  luAccumulate { u with chans := r.1 } (luValues (d + 3 * u.chans.length) u.indep r.2)

/-! ## Integration -/

/-- Ebin(i) (R138). -/
def binEnergy (i : Nat) : F64 :=
  exp10 (fdiv (fadd fGammaA (fmul (fOfNat (i + 1)) fBinW)) f10)

/-- The two running sums of R139 over the bins from `lo` on, ascending: num / den. -/
def gatedMean (hist : List Dword) (lo : Nat) : F64 :=
  let r := (hist.zipIdx.drop lo).foldl
    (fun (acc : F64 × F64) (b : Dword × Nat) =>
      (fadd acc.1 (fmul (fOfNat b.1.toNat) (binEnergy b.2)), fadd acc.2 (fOfNat b.1.toNat)))
    (f0, f0)
  fdiv r.1 r.2

/-- The index j of the relative gate for the mean M1 (R139). -/
def gateIndex (m1 : F64) : F64 := luIndexOfDb (fsub (fmul f10 (fnLog10 m1)) f10)

/-- j0 = max(j, 0) as an integer (R139). An infinite j lies past every bin. R139 states no maximum for a
NaN j: it is then the free value of draw `d`. -/
def gateBin (d : Nat) (j : F64) : Nat :=
  if isNaN j then Config.gateBinOfNaN d
  else if flt j f0 then 0
  else if isInf j then binCount
  else fToNat j

/-- lu_integrate(k) (R139). -/
def luIntegrate (d : Nat) (hist : List Dword) : F64 :=
  if hist.all (· == 0#64) then f0
  else gatedMean hist (gateBin d (gateIndex (gatedMean hist 0)))

/-- lu_result(k) (R140). -/
def luResultValue (d : Nat) (u : Loudness) (hist : List Dword) : F64 :=
  let r := luIntegrate d hist
  if u.strict then r else fmul r (fdiv f2 (fOfNat u.c.toNat))

/-! ## Commands -/

/-- A loudness channel after LU_INIT (R131). -/
def LuChan.fresh (w : F64) : LuChan := ⟨w, .zero, .zero⟩

/-- An accumulator after LU_INIT (R131). -/
def LuAcc.fresh : LuAcc := ⟨[], 0#64, List.replicate binCount 0#64⟩

/-- LU_INIT (R131). -/
def execLuInit (s : State) : Host.Outcome State Fault Refusal :=
  .next (runCommand .luInit (fun s => do
    let c ← needChannels s
    let fs ← needFs 10 s
    let indep := s.cfg.lu.getLsbD 0
    let na := if indep then c else 1#8
    .ok ({ s with lu :=
      { ready := true, c := c, fs := fs, indep := indep, strict := s.cfg.lu.getLsbD 1,
        blockN := BitVec.ofNat 64 (blockLen fs), hopN := BitVec.ofNat 64 (hopLen fs),
        ks := kwStage fs .shelf, kh := kwStage fs .highPass,
        chans := (s.cfg.luWeight.toList.take c.toNat).map .fresh,
        na := na, accs := List.replicate na.toNat .fresh, n := 0#64, committed := false } },
      [])) s)

/-- LU_FRAME (R136). -/
def execLuFrame (s : State) : Host.Outcome State Fault Refusal :=
  .next (runCommand .luFrame (fun s => do
    needReady s.lu.ready
    let x ← needFrame s.lu.c s
    let u ← luFrameStep s.draws s.lu x
    .ok ({ s with lu := u, draws := s.draws + (3 * s.lu.chans.length + 1) }, [])) s)

/-- LU_FINALIZE (R137). -/
def execLuFinalize (s : State) : Host.Outcome State Fault Refusal :=
  .next (runCommand .luFinalize (fun s => do
    needReady s.lu.ready
    let accs ← if s.lu.committed then .ok s.lu.accs else luCommitPartial 0 s.lu.accs
    .ok ({ s with lu := { s.lu with accs := accs, committed := true } }, [])) s)

/-- The histogram of accumulator k. -/
def Loudness.histOf (u : Loudness) (k : Nat) : List Dword :=
  match u.accs[k]? with
  | none => []
  | some a => a.hist

/-- LU_RESULT (R141). -/
def execLuResult (acc : Byte) (s : State) : Host.Outcome State Fault Refusal :=
  .next (runCommand (.luResult acc) (fun s => do
    needIndex acc.toNat s.lu.na.toNat
    needReady s.lu.ready
    .ok ({ s with draws := s.draws + 1 },
      [resultF64 s.draws (luResultValue s.draws s.lu (s.lu.histOf acc.toNat))])) s)

/-- LU_HIST_READ (R142). -/
def execLuHistRead (acc : Byte) (bin : Dword) (s : State) : Host.Outcome State Fault Refusal :=
  .next (runCommand (.luHistRead acc bin) (fun s => do
    needIndex acc.toNat s.lu.na.toNat
    needIndex bin.toNat binCount
    needReady s.lu.ready
    .ok (s, [(s.lu.histOf acc.toNat).getD bin.toNat 0#64])) s)

/-- The coefficient that IMM[2:0] selects (R77). -/
def BqCoef.select (k : BqCoef) (i : BitVec 3) : F64 :=
  match i.toNat with
  | 0 => k.b0
  | 1 => k.b1
  | 2 => k.b2
  | 3 => k.a1
  | _ => k.a2

/-- LU_COEF_READ (R143). A reserved selector, which no encoding of R77 gives, is Check's
ILLEGAL_COMMAND (R168). -/
def execLuCoefRead (sel : BitVec 4) (s : State) : Host.Outcome State Fault Refusal :=
  .next (runCommand (.luCoefRead sel) (fun s => do
    need (selectorOk sel) .illegalCommand
    needReady s.lu.ready
    let t := if sel.getLsbD 3 then s.lu.kh else s.lu.ks
    .ok ({ s with draws := s.draws + 1 }, [resultF64 s.draws (t.select (sel.extractLsb' 0 3))])) s)

end Sys2Proof.Machine
end

