-- ==== Sys2Proof/Machine/TruePeak.lean ====
section
/-! DEFINITION. The true-peak detector: `48_truepeak.md` rules R145 to R149. -/

namespace Sys2Proof.Machine

/-- The oversampling factor p of the true-peak filter (R145). -/
def tpFactor : Nat := 4

/-- "if |v| > m: m <- |v|" (R147): a NaN sub-sample is ignored. -/
def tpMax (m v : F64) : F64 := if flt m (fabs v) then fabs v else m

/-- One sub-sample of R147: the filter stepped and the maximum updated. -/
def tpSubSample (h : List F64) (s : List F64 × F64) (x : F64) : List F64 × F64 :=
  let r := firStep s.1 h x
  (r.1, tpMax s.2 r.2)

/-- The four sub-samples of one channel (R147): the sample and then three zeros. -/
def tpChannel (h buf : List F64) (m x : F64) : List F64 × F64 :=
  [x, f0, f0, f0].foldl (tpSubSample h) (buf, m)

/-- The channels of R147 from channel `c` on: each has a ring of its own, and the maximum m[c] when
INDEP = 1, m[0] otherwise. -/
def tpChans (h : List F64) (indep : Bool) :
    Nat → List (List F64) → List F64 → List F64 → List (List F64) × List F64
  | c, buf :: bufs, x :: xs, m =>
    let k := if indep then c else 0
    let r := tpChannel h buf (m.getD k f0) x
    let rest := tpChans h indep (c + 1) bufs xs (m.set k r.2)
    (r.1 :: rest.1, rest.2)
  | _, bufs, _, m => (bufs, m)

/-- TP_INIT (R146). -/
def execTpInit (s : State) : Host.Outcome State Fault Refusal :=
  .next (runCommand .tpInit (fun s => do
    let c ← needChannels s
    let indep := s.cfg.tp.getLsbD 0
    let len := kernelLen tpFactor Config.tpA
    let na := if indep then c else 1#8
    .ok ({ s with
      tp := { ready := true, c := c, indep := indep, len := BitVec.ofNat 64 len,
              h := drawNaNs s.draws (lanczos tpFactor Config.tpA),
              tbuf := List.replicate c.toNat (List.replicate len f0),
              na := na, m := List.replicate na.toNat f0 }
      draws := s.draws + len }, [])) s)

/-- TP_FRAME (R147). -/
def execTpFrame (s : State) : Host.Outcome State Fault Refusal :=
  .next (runCommand .tpFrame (fun s => do
    needReady s.tp.ready
    let x ← needFrame s.tp.c s
    let r := tpChans s.tp.h s.tp.indep 0 s.tp.tbuf x s.tp.m
    .ok ({ s with tp := { s.tp with tbuf := r.1, m := r.2 } }, [])) s)

/-- TP_RESULT (R148). -/
def execTpResult (acc : Byte) (s : State) : Host.Outcome State Fault Refusal :=
  .next (runCommand (.tpResult acc) (fun s => do
    needIndex acc.toNat s.tp.na.toNat
    needReady s.tp.ready
    .ok ({ s with draws := s.draws + 1 }, [resultF64 s.draws (s.tp.m.getD acc.toNat f0)])) s)

end Sys2Proof.Machine
end

