-- ==== Sys2Proof/Machine/Dispatch.lean ====
section
/-! DEFINITION. The meaning of every command, one arm each. -/

namespace Sys2Proof.Machine

def exec (i : Instr) (s : State) : Host.Outcome State Fault Refusal :=
  match i with
  | .nop => Sys2Proof.Machine.execNop s
  | .reset => Sys2Proof.Machine.execReset s
  | .csrRead addr => Sys2Proof.Machine.execCsrRead addr s
  | .csrWrite addr v => Sys2Proof.Machine.execCsrWrite addr v s
  | .bqInit inst b0 b1 b2 a1 a2 => Sys2Proof.Machine.execBqInit inst b0 b1 b2 a1 a2 s
  | .bqProcess inst x => Sys2Proof.Machine.execBqProcess inst x s
  | .firInit inst p a => Sys2Proof.Machine.execFirInit inst p a s
  | .firProcess inst x => Sys2Proof.Machine.execFirProcess inst x s
  | .lagInit inst tauRise tauFall gain => Sys2Proof.Machine.execLagInit inst tauRise tauFall gain s
  | .lagProcess inst x => Sys2Proof.Machine.execLagProcess inst x s
  | .lagProcessInitial inst x => Sys2Proof.Machine.execLagProcessInitial inst x s
  | .lagSettlingLen tauRise => Sys2Proof.Machine.execLagSettlingLen tauRise s
  | .mmxInit inst w => Sys2Proof.Machine.execMmxInit inst w s
  | .mmxProcess inst x => Sys2Proof.Machine.execMmxProcess inst x s
  | .mrmsInit inst w gain => Sys2Proof.Machine.execMrmsInit inst w gain s
  | .mrmsProcess inst x => Sys2Proof.Machine.execMrmsProcess inst x s
  | .mrmsRefresh inst => Sys2Proof.Machine.execMrmsRefresh inst s
  | .mrmsReadAcc inst => Sys2Proof.Machine.execMrmsReadAcc inst s
  | .fdInit => Sys2Proof.Machine.execFdInit s
  | .fdPush x => Sys2Proof.Machine.execFdPush x s
  | .fdPushErr code => Sys2Proof.Machine.execFdPushErr code s
  | .fdEnd => Sys2Proof.Machine.execFdEnd s
  | .fdRead chan => Sys2Proof.Machine.execFdRead chan s
  | .luInit => Sys2Proof.Machine.execLuInit s
  | .luFrame => Sys2Proof.Machine.execLuFrame s
  | .luFinalize => Sys2Proof.Machine.execLuFinalize s
  | .luResult acc => Sys2Proof.Machine.execLuResult acc s
  | .luHistRead acc bin => Sys2Proof.Machine.execLuHistRead acc bin s
  | .luCoefRead sel => Sys2Proof.Machine.execLuCoefRead sel s
  | .tpInit => Sys2Proof.Machine.execTpInit s
  | .tpFrame => Sys2Proof.Machine.execTpFrame s
  | .tpResult acc => Sys2Proof.Machine.execTpResult acc s
  | .cpInit => Sys2Proof.Machine.execCpInit s
  | .cpFrame zero => Sys2Proof.Machine.execCpFrame zero s
  | .cpFrameInitial => Sys2Proof.Machine.execCpFrameInitial s

end Sys2Proof.Machine
end

