-- ==== Sys2Proof/Machine/Step.lean ====
section
/-! DEFINITION. One step: the command at the front of the command port (`40_control.md` rule R83). -/

namespace Sys2Proof.Machine

/-- One command (R83). An illegal command word raises ILLEGAL_COMMAND (R78). With no whole command on
the port the block waits and nothing changes (R17; log entry 1). -/
def step (s : State) : Host.Outcome State Fault Refusal :=
  match decode s.port with
  | .command i rest => exec i { s with port := rest }
  | .illegal _ w rest => .next (runIllegal w { s with port := rest })
  | .incomplete => .next s

/-- The command whose bits are `w` placed at the front of the command port, later bits 0 up to the
longest command. What waits already stays behind it. -/
def State.withFetchWord (s : State) (nbits w : Nat) : State :=
  { s with port := tableBytes nbits w ++ s.port }

end Sys2Proof.Machine
end

