-- ==== Sys2Proof/Safety.lean ====
section
/-! DEFINITION. What a claim calls a good state: the shape that `10_state.md` rules R18 to R27 give every
item, and the error-free state. `State.Inv` holds at reset and every step keeps it. -/

namespace Sys2Proof.Machine

/-- No error is latched (R18). -/
abbrev State.errorFree (s : State) : Prop := s.err = 0#8

/-- R19: an instance that is not READY holds its reset value. -/
def Biquad.Inv (q : Biquad) : Prop := q.ready = false → q = .reset

/-- R20, R95: a READY instance has a valid (p, a), L = L(p, a) ≤ FIR_MAX_TAPS, and L taps and samples. -/
def Fir.Inv (f : Fir) : Prop :=
  (f.ready = false → f = .reset) ∧
  (f.ready = true →
    1 ≤ f.p.toNat ∧ 1 ≤ f.a.toNat ∧ f.len.toNat = kernelLen f.p.toNat f.a.toNat
      ∧ f.len.toNat ≤ Config.firMaxTaps ∧ f.h.length = f.len.toNat ∧ f.buf.length = f.len.toNat)

/-- R21: an instance that is not READY holds its reset value. -/
def LagInst.Inv (g : LagInst) : Prop := g.ready = false → g = .reset

/-- The samples of a window that no later sample of it exceeds, in order: what R106's pops leave. -/
def candidates : List F64 → List F64
  | [] => []
  | x :: xs => if xs.all (fun v => !flt x v) then x :: candidates xs else candidates xs

/-- R22, R106, R107: at most W samples, none a NaN, and the candidates are the window's. -/
def MovMax.Inv (m : MovMax) : Prop :=
  1 ≤ m.w.toNat ∧ m.w.toNat ≤ Config.winMax ∧ m.win.length ≤ m.w.toNat
    ∧ (∀ x ∈ m.win, isNaN x = false) ∧ m.cand = candidates m.win

/-- R22. -/
def MmxInst.Inv (q : MmxInst) : Prop :=
  (q.ready = false → q = .reset) ∧ (q.ready = true → q.mm.Inv)

/-- R23: W squares, 1 ≤ W ≤ WIN_MAX. -/
def MovRms.Inv (r : MovRms) : Prop :=
  1 ≤ r.w.toNat ∧ r.w.toNat ≤ Config.winMax ∧ r.sq.length = r.w.toNat

/-- R23. -/
def MrmsInst.Inv (q : MrmsInst) : Prop :=
  (q.ready = false → q = .reset) ∧ (q.ready = true → q.rms.Inv)

/-- R24: 1 ≤ C ≤ C_MAX and cnt ≤ C. -/
def FrameDemux.Inv (fd : FrameDemux) : Prop :=
  (fd.ready = false → fd = .reset) ∧
  (fd.ready = true →
    1 ≤ fd.c.toNat ∧ fd.c.toNat ≤ Config.cMax ∧ fd.cnt.toNat ≤ fd.c.toNat)

/-- R25: a ring of len ≤ B values and a histogram of 7,801 counts. -/
def LuAcc.Inv (blockN : Dword) (a : LuAcc) : Prop :=
  a.blk.length = a.len.toNat ∧ a.len.toNat ≤ blockN.toNat ∧ a.hist.length = binCount

/-- R25, R129, R131. -/
def Loudness.Inv (u : Loudness) : Prop :=
  (u.ready = false → u = .reset) ∧
  (u.ready = true →
    1 ≤ u.c.toNat ∧ u.c.toNat ≤ Config.cMax ∧ 10 ≤ u.fs.toNat ∧ u.fs.toNat ≤ Config.fsMax
      ∧ u.blockN.toNat = 2 * u.fs.toNat / 5 ∧ u.hopN.toNat = u.fs.toNat / 10
      ∧ u.na = (if u.indep then u.c else 1#8)
      ∧ u.chans.length = u.c.toNat ∧ u.accs.length = u.na.toNat
      ∧ ∀ a ∈ u.accs, a.Inv u.blockN)

/-- R26, R145 to R147: L taps, C rings of L samples, NA maxima, none a NaN and none negative. -/
def TruePeak.Inv (u : TruePeak) : Prop :=
  (u.ready = false → u = .reset) ∧
  (u.ready = true →
    1 ≤ u.c.toNat ∧ u.c.toNat ≤ Config.cMax ∧ u.len.toNat = 2 * (4 * Config.tpA - 1) + 1
      ∧ u.na = (if u.indep then u.c else 1#8)
      ∧ u.h.length = u.len.toNat ∧ u.tbuf.length = u.c.toNat
      ∧ (∀ b ∈ u.tbuf, b.length = u.len.toNat)
      ∧ u.m.length = u.na.toNat ∧ ∀ x ∈ u.m, isNaN x = false ∧ fsign x = false)

/-- R27: the preprocessor is the one DET selects, with window Wp. -/
def CpPre.Inv (det : Bool) (winN : Dword) : CpPre → Prop
  | .peak mm => det = false ∧ mm.w = winN ∧ mm.Inv
  | .rms r => det = true ∧ r.w = winN ∧ r.Inv

/-- R27, R151, R152, R155, R161: the delay FIFO holds exactly L frames of C samples. -/
def Compressor.Inv (u : Compressor) : Prop :=
  (u.ready = false → u = .reset) ∧
  (u.ready = true →
    1 ≤ u.c.toNat ∧ u.c.toNat ≤ Config.cMax ∧ 1 ≤ u.fs.toNat ∧ u.fs.toNat ≤ Config.fsMax
      ∧ flt f1 u.r = true ∧ 1 ≤ u.len.toNat ∧ u.len.toNat ≤ Config.cpLMax
      ∧ u.winN.toNat = (u.len.toNat + u.holdN.toNat) * u.c.toNat ∧ u.winN.toNat ≤ Config.winMax
      ∧ u.fifo.length = u.len.toNat ∧ (∀ f ∈ u.fifo, f.length = u.c.toNat)
      ∧ u.pre.Inv u.det u.winN)

/-- The shape of the whole state: every item as R18 to R27 give it, an error code of R165 in the latch,
and nothing recorded while no error is latched (R38). -/
structure State.Inv (s : State) : Prop where
  err_code : s.err.toNat ≤ 9
  err_info : s.err = 0#8 → s.errInfo = 0#64
  bq : ∀ q ∈ s.bq, q.Inv
  fir : ∀ f ∈ s.fir, f.Inv
  lag : ∀ g ∈ s.lag, g.Inv
  mmx : ∀ m ∈ s.mmx, m.Inv
  mrms : ∀ r ∈ s.mrms, r.Inv
  fd : s.fd.Inv
  lu : s.lu.Inv
  tp : s.tp.Inv
  cp : s.cp.Inv

end Sys2Proof.Machine
end

