-- ==== Sys2Proof/Certificates/Slice0/Obligations.lean ====
section
/-! DEFINITION. The statements for the provers. Each docstring names the rule of the spec it formalises.
`Claims` holds the words they share. Where a result can be a NaN, R15 leaves its pattern open: a
statement says only `Claims.isResult v y`, so it holds for every value of the free draws. Three fields
are the model's own form of what the spec has outside the state items: `port` (log entry 1), `results`
(log entry 2) and the counter `draws` (log entry 3). Where a statement says what they become, that is the
model's choice, which the named log entry records. -/

namespace Sys2Proof.Claims

open Sys2Proof.Machine

/-- `y` is the value `v` as a command stores or returns it: `v` itself, or some NaN if `v` is a NaN
(R15). -/
def isResult (v y : F64) : Prop := (isNaN v = false → y = v) ∧ (isNaN v = true → isNaN y = true)

/-- The state after the command `i` raised `e` from the error-free state `s` (R166): ERR and ERR_INFO
taken, NRES POISON dwords returned, nothing else changed. -/
def raised (i : Instr) (e : ErrCode) (chan stream : Half) (s : State) : State :=
  { s with
    err := e.code
    errInfo := chan ++ stream ++ encodeWord i
    results := s.results ++ List.replicate (nres i.opcode s) 0xFFFFFFFFFFFFFFFF#64 }

/-- NRES of a command word, illegal or not (R83, R74). -/
def wordNres (w : Word) (s : State) : Nat :=
  match opcodeOf (opField w) with
  | none => 0
  | some o => nres o s

/-- The OP values that R78 lists as unassigned. -/
def opUnassigned (op : Nat) : Prop :=
  (0x04 ≤ op ∧ op ≤ 0x0F) ∨ (0x12 ≤ op ∧ op ≤ 0x1F) ∨ (0x22 ≤ op ∧ op ≤ 0x2F) ∨
  (0x34 ≤ op ∧ op ≤ 0x3F) ∨ (0x42 ≤ op ∧ op ≤ 0x4F) ∨ (0x54 ≤ op ∧ op ≤ 0x5F) ∨
  (0x65 ≤ op ∧ op ≤ 0x6F) ∨ (0x76 ≤ op ∧ op ≤ 0x7F) ∨ (0x83 ≤ op ∧ op ≤ 0x8F) ∨
  (0x93 ≤ op ∧ op ≤ 0xFF)

/-- The addresses of the read-only CSRs (R34). -/
def addrReadOnly (a : Nat) : Prop :=
  a ≤ 0x0005 ∨ (0x0050 ≤ a ∧ a ≤ 0x0053) ∨ (0x0060 ≤ a ∧ a ≤ 0x0062)

/-- The addresses of the read-write CSRs (R34). -/
def addrReadWrite (a : Nat) : Prop :=
  a = 0x0010 ∨ a = 0x0011 ∨ (0x0020 ≤ a ∧ a ≤ 0x0022) ∨ (0x0030 ≤ a ∧ a ≤ 0x0037) ∨
  (0x0040 ≤ a ∧ a ≤ 0x0047)

/-- The commands with an `inst` IDX (R75): the IDX and the family's instance count. -/
def instBound : Instr → Option (Byte × Nat)
  | .bqInit i _ _ _ _ _ => some (i, 8)
  | .bqProcess i _ => some (i, 8)
  | .firInit i _ _ => some (i, 4)
  | .firProcess i _ => some (i, 4)
  | .lagInit i _ _ _ => some (i, 8)
  | .lagProcess i _ => some (i, 8)
  | .lagProcessInitial i _ => some (i, 8)
  | .mmxInit i _ => some (i, 8)
  | .mmxProcess i _ => some (i, 8)
  | .mrmsInit i _ _ => some (i, 8)
  | .mrmsProcess i _ => some (i, 8)
  | .mrmsRefresh i => some (i, 8)
  | .mrmsReadAcc i => some (i, 8)
  | .nop | .reset | .csrRead _ | .csrWrite _ _ | .lagSettlingLen _ | .fdInit | .fdPush _
  | .fdPushErr _ | .fdEnd | .fdRead _ | .luInit | .luFrame | .luFinalize | .luResult _
  | .luHistRead _ _ | .luCoefRead _ | .tpInit | .tpFrame | .tpResult _ | .cpInit | .cpFrame _
  | .cpFrameInitial => none

/-- The READY bit a command needs, where it needs one, in a state whose index operands are in range. -/
def readyBit (s : State) : Instr → Option Bool
  | .bqProcess i _ => (s.bq[i.toNat]?).map (·.ready)
  | .firProcess i _ => (s.fir[i.toNat]?).map (·.ready)
  | .lagProcess i _ => (s.lag[i.toNat]?).map (·.ready)
  | .lagProcessInitial i _ => (s.lag[i.toNat]?).map (·.ready)
  | .mmxProcess i _ => (s.mmx[i.toNat]?).map (·.ready)
  | .mrmsProcess i _ => (s.mrms[i.toNat]?).map (·.ready)
  | .mrmsRefresh i => (s.mrms[i.toNat]?).map (·.ready)
  | .mrmsReadAcc i => (s.mrms[i.toNat]?).map (·.ready)
  | .fdPush _ => some s.fd.ready
  | .fdEnd => some s.fd.ready
  | .fdRead c => if c.toNat < s.fd.c.toNat then some s.fd.ready else none
  | .luFrame => some s.lu.ready
  | .luFinalize => some s.lu.ready
  | .luResult k => if k.toNat < s.lu.na.toNat then some s.lu.ready else none
  | .luHistRead k b =>
    if k.toNat < s.lu.na.toNat ∧ b.toNat < 7801 then some s.lu.ready else none
  | .luCoefRead sel => if (sel.extractLsb' 0 3).toNat ≤ 4 then some s.lu.ready else none
  | .tpFrame => some s.tp.ready
  | .tpResult k => if k.toNat < s.tp.na.toNat then some s.tp.ready else none
  | .cpFrame _ => some s.cp.ready
  | .cpFrameInitial => some s.cp.ready
  | .nop | .reset | .csrRead _ | .csrWrite _ _ | .bqInit _ _ _ _ _ _ | .firInit _ _ _
  | .lagInit _ _ _ _ | .lagSettlingLen _ | .mmxInit _ _ | .mrmsInit _ _ _ | .fdInit
  | .fdPushErr _ | .luInit | .tpInit | .cpInit => none

/-- The frame a compressor command consumes (R160, R162): zeros when ZERO = 1, the FD's otherwise. -/
def cpConsumed (zero : Bool) (s : State) : List F64 :=
  if zero then List.replicate s.cp.c.toNat 0#64 else s.fd.frame.toList.take s.cp.c.toNat

/-- SCALE = 7801.0 / 78.0 and BINW = 78.0 / 7801.0 (R130). -/
def scale : F64 := fdiv 0x40BE790000000000#64 0x4053800000000000#64
def binW : F64 := fdiv 0x4053800000000000#64 0x40BE790000000000#64

/-- The bin index of a loudness in dB (R133, R139): round((SCALE · (l − (−70.0))) − 1.0). -/
def dbIndex (l : F64) : F64 :=
  fround (fsub (fmul scale (fsub l 0xC051800000000000#64)) 0x3FF0000000000000#64)

/-- lu_index(E) (R133): the bin index of 10.0 · log10(E). -/
def energyIndex (e : F64) : F64 := dbIndex (fmul 0x4024000000000000#64 (fnLog10 e))

/-- Ebin(i) (R138): exp10((−70.0 + f64(i + 1) · BINW) / 10.0). -/
def energyOfBin (i : Nat) : F64 :=
  exp10 (fdiv (fadd 0xC051800000000000#64 (fmul (fOfNat (i + 1)) binW)) 0x4024000000000000#64)

/-- The mean energy of a block ring over `n` (R135, R137): the sum of its values, oldest first, from
+0.0, over f64(n). -/
def ringMean (a : LuAcc) (n : Dword) : F64 := fdiv (a.blk.foldl fadd 0#64) (fOfNat n.toNat)

/-- The append of R135 to one ring of at most `b` values: `none` appends nothing, and a full ring drops
its oldest value first. -/
def ringAppend (b : Dword) (a : LuAcc) : Option F64 → LuAcc
  | none => a
  | some v =>
    if a.len = b then { a with blk := a.blk.tail ++ [v] }
    else { a with blk := a.blk ++ [v], len := a.len + 1#64 }

/-- The appends of R135: accumulator k takes the value v[k]. -/
def ringAppends (b : Dword) (accs : List LuAcc) (vs : List (Option F64)) : List LuAcc :=
  accs.mapIdx fun k a => ringAppend b a (vs.getD k none)

/-- A full accumulator after a commit that raises nothing (R134). -/
def commitAcc (a : LuAcc) (e : F64) : LuAcc :=
  if flt (energyIndex e) 0#64 then a
  else
    let i := fToNat (energyIndex e)
    { a with hist := a.hist.set i (a.hist.getD i 0#64 + 1#64) }

/-- A commit of the mean energy `e` raises nothing (R134). -/
def commitOk (e : F64) : Prop :=
  isNaN (energyIndex e) = false ∧ fle 0x40BE790000000000#64 (energyIndex e) = false

/-- All four values of a filter state are +0.0 or −0.0. -/
def zeroFilter (st : BqState) : Prop :=
  isZero st.x1 = true ∧ isZero st.x2 = true ∧ isZero st.y1 = true ∧ isZero st.y2 = true

/-- All five coefficients are finite. -/
def finiteCoef (k : BqCoef) : Prop :=
  isFinite k.b0 = true ∧ isFinite k.b1 = true ∧ isFinite k.b2 = true ∧ isFinite k.a1 = true
    ∧ isFinite k.a2 = true

/-- The unit's coefficients and weights are finite, without which 0 times one of them is a NaN. -/
def finiteFilters (u : Loudness) : Prop :=
  finiteCoef u.ks ∧ finiteCoef u.kh ∧ ∀ ch ∈ u.chans, isFinite ch.w = true

/-- A loudness unit that has only heard silence (R144): every filter state and ring value is a zero and
every count is 0. -/
def silent (u : Loudness) : Prop :=
  u.ready = true ∧ 1 ≤ u.c.toNat ∧ u.c.toNat ≤ 8 ∧ 1 ≤ u.blockN.toNat ∧ 1 ≤ u.hopN.toNat
    ∧ (∀ ch ∈ u.chans, zeroFilter ch.shelf ∧ zeroFilter ch.hp)
    ∧ u.accs.length = u.na.toNat
    ∧ ∀ a ∈ u.accs, (∀ v ∈ a.blk, isZero v = true) ∧ ∀ n ∈ a.hist, n = 0#64

/-- The energy mean of R139 over the bins from `lo` on, both sums taken from +0.0 in ascending order. -/
def meanOver (hist : List Dword) (lo : Nat) : F64 :=
  let bins := (List.range 7801).filter fun i => decide (lo ≤ i)
  fdiv (bins.foldl (fun n i => fadd n (fmul (fOfNat (hist.getD i 0#64).toNat) (energyOfBin i))) 0#64)
    (bins.foldl (fun n i => fadd n (fOfNat (hist.getD i 0#64).toNat)) 0#64)

/-- rect(x) of Peak mode (R154): x when PEAK_RECTIFY is none, and |x|, x with its sign bit cleared, when
it is abs. -/
def rectified (x : F64) : F64 :=
  if Config.peakRectifyAbs then x &&& 0x7FFFFFFFFFFFFFFF#64 else x

/-- The tap of a Lanczos kernel at the signed offset k (R96): 1.0 at 0, elsewhere
(fn_sin(t1) / t1) · (fn_sin(t2) / t2) with t1 = (PI · f64(k)) / f64(p), t2 = (PI · f64(k)) / f64(p·a). -/
def kernelTap (p a : Nat) (k : Int) : F64 :=
  if k = 0 then 0x3FF0000000000000#64
  else
    let t1 := fdiv (fmul 0x400921FB54442D18#64 (fOfInt k)) (fOfNat p)
    let t2 := fdiv (fmul 0x400921FB54442D18#64 (fOfInt k)) (fOfNat (p * a))
    fmul (fdiv (fnSin t1) t1) (fdiv (fnSin t2) t2)

/-- The compressor's preprocessor fed a whole frame that raises nothing (R156): its state and the value
of the last channel. -/
def fed (d : Nat) (pre : CpPre) (x : List F64) : CpPre × F64 :=
  match pre with
  | .peak mm =>
    let r := x.foldl (fun (p : MovMax × F64) v => mmxStep p.1 (rectified v)) (mm, 0#64)
    (.peak r.1, r.2)
  | .rms m =>
    let r := x.zipIdx.foldl (fun (p : MovRms × F64) (v : F64 × Nat) =>
      let m' := mrmsNext (d + 3 * v.2) p.1 v.1
      (m', drawNaN (d + 3 * v.2 + 2) (mrmsOutput m'))) (m, 0#64)
    (.rms r.1, r.2)

/-- No channel of the frame raises NAN_INPUT in this preprocessor (R107). -/
def feedable (pre : CpPre) (x : List F64) : Prop :=
  ∀ mm, pre = .peak mm → ∀ v ∈ x, isNaN (rectified v) = false

/-- The envelope level after the preprocessor gave `pv` (R101): the values that R15 leaves it. -/
def envLevel (g : Lag) (pv lv : F64) : Prop :=
  isResult (fadd g.level (fmul (if fle g.level pv then g.rise else g.fall) (fsub pv g.level))) lv

/-- One CP_FRAME as it ran: the frame it consumed, the results it returned, the gain in dB it left. -/
structure CpEvent where
  consumed : List F64
  returned : List Dword
  gain : F64

/-- The state after these commands. -/
def afterAll : List Instr → State → State
  | [], s => s
  | i :: is, s =>
    match exec i s with
    | .next t => afterAll is t
    | .fault _ => s
    | .refused _ => s

/-- The CP_FRAME commands among these commands, in order, as they ran from `s`. -/
def cpEvents : List Instr → State → List CpEvent
  | [], _ => []
  | i :: is, s =>
    match exec i s with
    | .next t =>
      match i with
      | .cpFrame z =>
        ⟨cpConsumed z s, t.results.drop s.results.length, t.cp.gainDb⟩ :: cpEvents is t
      | _ => cpEvents is t
    | .fault _ => []
    | .refused _ => []

end Sys2Proof.Claims

open Sys2Proof Sys2Proof.Machine Sys2Proof.Claims

/-! ## The step, decoding and encoding -/

/-- R83: the step runs the command at the front of the port, and takes its bytes off the port. -/
def Obligations.StepRunsDecodedCommand : Prop :=
  ∀ (s : State) (i : Instr) (rest : List Byte),
    decode s.port = .command i rest → step s = exec i { s with port := rest }

/-- The model's choice (log entry 1), resting on R17 ("Its state changes only when a command executes"):
with no whole command on the port nothing changes. -/
def Obligations.StepWaitsForAWholeCommand : Prop :=
  ∀ s : State, decode s.port = .incomplete → step s = .next s

/-- R68 to R71, R53: decoding the bytes of a well-formed instruction, whatever follows them, gives the
instruction and what follows. -/
def Obligations.DecodeInvertsEncode : Prop :=
  ∀ (i : Instr) (rest : List Byte), i.wellFormed = true →
    decode (encode i ++ rest) = .command i rest

/-- R70, R75: an accepted command is the encoding of the well-formed instruction it decodes to, so each
command has one meaning and no bit of it is dropped. -/
def Obligations.EncodeInvertsDecode : Prop :=
  ∀ (bs rest : List Byte) (i : Instr), decode bs = .command i rest →
    i.wellFormed = true ∧ bs = encode i ++ rest

/-- Words the spec writes out: R85 to R88, R121, R123, R143 and the vectors CT-11 and CP-9. -/
def Obligations.SpecWordsDecode : Prop :=
  decodeTableWord 32 0x00000000 = some .nop ∧
  decodeTableWord 32 0x01000000 = some .reset ∧
  decodeTableWord 32 0x02000000 = some (.csrRead 0x0000#16) ∧
  decodeTableWord 32 0x03000041 = some (.csrWrite 0x0041#16 0#64) ∧
  decodeTableWord 32 0x11080000 = some (.bqProcess 8#8 0#64) ∧
  decodeTableWord 32 0x62000013 = some (.fdPushErr 0x0013#16) ∧
  decodeTableWord 32 0x64010000 = some (.fdRead 1#8) ∧
  decodeTableWord 32 0x7500000B = some (.luCoefRead 0xB#4) ∧
  decodeTableWord 32 0x91000001 = some (.cpFrame true) ∧
  decodeTableWord 32 0x12000000 = none

/-- R78: each kind of illegal command word raises ILLEGAL_COMMAND. An unassigned OP takes no operand
dword (R70); the others take their row's. -/
def Obligations.IllegalWordsRaiseIllegalCommand : Prop :=
  (∀ (s : State) (w : Word) (rest : List Byte),
    s.err = 0#8 → opUnassigned (w.extractLsb' 24 8).toNat → s.port = bytesOfWord w ++ rest →
    step s = .next { s with port := rest, err := 5#8, errInfo := 0#32 ++ w }) ∧
  (∀ (s : State) (o : Opcode) (idx : Byte) (imm : Half) (ops : List Dword) (rest : List Byte),
    s.err = 0#8 → ops.length = o.row.nops →
    ((o.row.idx = .zero ∧ idx ≠ 0#8) ∨ (o.row.imm = .zero ∧ imm ≠ 0#16) ∨
      (o = .luCoefRead ∧ (imm.extractLsb' 4 12 ≠ 0#12 ∨ 4 < (imm.extractLsb' 0 3).toNat)) ∨
      (o = .cpFrame ∧ imm.extractLsb' 1 15 ≠ 0#15)) →
    s.port = bytesOfWord (o.row.code ++ idx ++ imm) ++ ops.flatMap bytesOfDword ++ rest →
    step s = .next { s with
      port := rest, err := 5#8, errInfo := 0#32 ++ (o.row.code ++ idx ++ imm)
      results := s.results ++ List.replicate (nres o s) 0xFFFFFFFFFFFFFFFF#64 })

/-! ## Errors, results, reset -/

/-- No command stops the block (R164, R170): every instruction answers a next state. -/
def Obligations.EveryCommandAnswersANextState : Prop :=
  ∀ (i : Instr) (s : State), ∃ t, exec i s = .next t

/-- R166: a command that raises an error restores every state item, drops its results, latches the error
with its record, and returns NRES POISON dwords; an error latched before stays the latched one. An illegal
command word raises ILLEGAL_COMMAND so. -/
def Obligations.RaisedErrorChangesOnlyTheLatch : Prop :=
  (∀ (i : Instr) (s t : State), exec i s = .next t → s.err = 0#8 → t.err ≠ 0#8 →
    ∃ (e : ErrCode) (chan stream : Half), t = raised i e chan stream s) ∧
  (∀ (i : Instr) (s t : State), exec i s = .next t → s.err ≠ 0#8 → i ≠ .reset →
    t.err = s.err ∧ t.errInfo = s.errInfo) ∧
  (∀ (s : State) (why : Reject) (w : Word) (rest : List Byte), s.err = 0#8 →
    decode s.port = .illegal why w rest →
    step s = .next { s with
      port := rest, err := 5#8, errInfo := 0#32 ++ w
      results := s.results ++ List.replicate (wordNres w s) 0xFFFFFFFFFFFFFFFF#64 })

/-- R167: while an error is latched every command but NOP, RESET and CSR_READ, an illegal one too, is
discarded: its operands are taken, NRES POISON dwords are returned, and no state changes. -/
def Obligations.LatchedErrorDiscardsCommands : Prop :=
  (∀ (i : Instr) (s : State), s.err ≠ 0#8 → i ≠ .nop → i ≠ .reset → (∀ a, i ≠ .csrRead a) →
    exec i s = .next { s with
      results := s.results ++ List.replicate (nres i.opcode s) 0xFFFFFFFFFFFFFFFF#64 }) ∧
  (∀ (s : State) (why : Reject) (w : Word) (rest : List Byte), s.err ≠ 0#8 →
    decode s.port = .illegal why w rest →
    step s = .next { s with
      port := rest
      results := s.results ++ List.replicate
        (wordNres w s) 0xFFFFFFFFFFFFFFFF#64 })

/-- R74: a command returns exactly its NRES dwords, all of them POISON if it raises an error or is
discarded; POISON is a NaN; CP_FRAME's NRES is CP.C if CP.READY = 1 and 0 otherwise. -/
def Obligations.EveryCommandReturnsItsResultCount : Prop :=
  (∀ (i : Instr) (s t : State), exec i s = .next t →
    ∃ rs : List Dword, t.results = s.results ++ rs ∧ rs.length = nres i.opcode s ∧
      ((s.err = 0#8 ∧ t.err ≠ 0#8) ∨
        (s.err ≠ 0#8 ∧ i ≠ .nop ∧ i ≠ .reset ∧ ∀ a, i ≠ .csrRead a) →
        ∀ d ∈ rs, d = 0xFFFFFFFFFFFFFFFF#64)) ∧
  (∀ (s t : State) (why : Reject) (w : Word) (rest : List Byte), decode s.port = .illegal why w rest →
    step s = .next t →
    t.results = s.results ++ List.replicate (wordNres w s) 0xFFFFFFFFFFFFFFFF#64) ∧
  isNaN 0xFFFFFFFFFFFFFFFF#64 = true ∧
  (∀ s : State, nres .cpFrame s = if s.cp.ready then s.cp.c.toNat else 0)

/-- R171, R86, R182: RESET, which runs while an error is latched too, sets every state item to its reset
value, ERR and ERR_INFO among them, and no other command clears the latch. The ports and the draw
counter are no such items: that RESET keeps them is the model's choice and no rule's, which log entries 1,
2 and 3 record as unsafe. -/
def Obligations.ResetCommandResetsEveryItem : Prop :=
  (∀ s : State, exec .reset s = .next
    { err := 0#8, errInfo := 0#64, cfg := State.reset.cfg, bq := State.reset.bq, fir := State.reset.fir,
      lag := State.reset.lag, mmx := State.reset.mmx, mrms := State.reset.mrms, fd := State.reset.fd,
      lu := State.reset.lu, tp := State.reset.tp, cp := State.reset.cp, port := s.port,
      results := s.results, draws := s.draws }) ∧
  (∀ (i : Instr) (s t : State), exec i s = .next t → s.err ≠ 0#8 → t.err = 0#8 → i = .reset) ∧
  (∀ (s t : State) (why : Reject) (w : Word) (rest : List Byte), decode s.port = .illegal why w rest →
    step s = .next t → s.err ≠ 0#8 → t.err = s.err)

/-- R50, R34: the reset value of every item. -/
def Obligations.ResetStateHoldsTheResetValues : Prop :=
  let s := State.reset
  s.err = 0#8 ∧ s.errInfo = 0#64 ∧
  memRead 0x0000#16 s = .ok 0x4146584300000007#64 ∧
  memRead 0x0003#16 s =
    .ok (0#8 ++ BitVec.ofNat 8 Config.tpA ++ 8#8 ++ 8#8 ++ 8#8 ++ 4#8 ++ 8#8 ++ 8#8) ∧
  memRead 0x0004#16 s = .ok 0x0005DC0000100000#64 ∧
  memRead 0x0005#16 s = .ok 0x000000FF00010000#64 ∧
  s.cfg.channels = 0#8 ∧ s.cfg.fs = 0#32 ∧ s.cfg.lu = 0#2 ∧ s.cfg.tp = 0#1 ∧ s.cfg.cp = 0#1 ∧
  (∀ c : Fin 8, s.cfg.luWeight[c] =
    if c.val ≤ 2 then 0x3FF0000000000000#64 else if c.val = 3 then 0#64
    else 0x3FF68F5C28F5C28F#64) ∧
  s.cfg.set = ⟨0#64, 0#64, 0#64, 0#64, 0#64, 0#64, 0#64, 0#64⟩ ∧
  (∀ i : Fin 8, s.bq[i] = ⟨false, ⟨0#64, 0#64, 0#64, 0#64, 0#64⟩, ⟨0#64, 0#64, 0#64, 0#64⟩⟩) ∧
  (∀ i : Fin 4, s.fir[i] = ⟨false, 0#64, 0#64, 0#64, [], []⟩) ∧
  (∀ i : Fin 8, s.lag[i] = ⟨false, ⟨0#64, 0#64, 0#64, 0#64⟩⟩) ∧
  (∀ i : Fin 8, s.mmx[i] = ⟨false, ⟨0#64, [], []⟩⟩) ∧
  (∀ i : Fin 8, s.mrms[i] = ⟨false, ⟨0#64, 0#64, [], 0#64, 0#64⟩⟩) ∧
  s.fd.ready = false ∧ s.fd.c = 0#8 ∧ (∀ c : Fin 8, s.fd.frame[c] = 0#64) ∧ s.fd.cnt = 0#64 ∧
  s.fd.eos = false ∧
  s.lu.ready = false ∧ s.lu.c = 0#8 ∧ s.lu.fs = 0#32 ∧ s.lu.indep = false ∧ s.lu.strict = false ∧
  s.lu.blockN = 0#64 ∧ s.lu.hopN = 0#64 ∧ s.lu.ks = ⟨0#64, 0#64, 0#64, 0#64, 0#64⟩ ∧
  s.lu.kh = ⟨0#64, 0#64, 0#64, 0#64, 0#64⟩ ∧ s.lu.chans = [] ∧ s.lu.na = 0#8 ∧ s.lu.accs = [] ∧
  s.lu.n = 0#64 ∧ s.lu.committed = false ∧
  s.tp = ⟨false, 0#8, false, 0#64, [], [], 0#8, []⟩ ∧
  s.cp.ready = false ∧ s.cp.c = 0#8 ∧ s.cp.fs = 0#32 ∧ s.cp.det = false ∧ s.cp.t = 0#64 ∧
  s.cp.r = 0#64 ∧ s.cp.kw = 0#64 ∧ s.cp.m = 0#64 ∧ s.cp.tauA = 0#64 ∧ s.cp.tauR = 0#64 ∧
  s.cp.len = 0#64 ∧ s.cp.holdN = 0#64 ∧ s.cp.winN = 0#64 ∧ s.cp.pre = .peak ⟨0#64, [], []⟩ ∧
  s.cp.env = ⟨0#64, 0#64, 0#64, 0#64⟩ ∧ s.cp.fifo = [] ∧ s.cp.envObs = 0#64 ∧ s.cp.gainDb = 0#64

/-- R18 to R27: every step keeps the shape of the state, from every state that has it. -/
def Obligations.StepKeepsInvariant : Prop :=
  ∀ s t : State, s.Inv → step s = .next t → t.Inv

/-- The state after reset has the shape that every step keeps. -/
def Obligations.ResetMeetsInvariant : Prop := State.reset.Inv

/-- R28, R185, R35: a command changes the state of its own family only. RESET apart, only CSR_WRITE
changes a configuration register, and no command takes a byte off the port or a result back. -/
def Obligations.CommandsTouchOnlyTheirUnit : Prop :=
  ∀ (i : Instr) (s t : State), exec i s = .next t → i ≠ .reset →
    (i.opcode.row.family ≠ .biquad → t.bq = s.bq) ∧
    (i.opcode.row.family ≠ .fir → t.fir = s.fir) ∧
    (i.opcode.row.family ≠ .lag1 → t.lag = s.lag) ∧
    (i.opcode.row.family ≠ .movMax → t.mmx = s.mmx) ∧
    (i.opcode.row.family ≠ .movRms → t.mrms = s.mrms) ∧
    (i.opcode.row.family ≠ .frameDemux → t.fd = s.fd) ∧
    (i.opcode.row.family ≠ .loudness → t.lu = s.lu) ∧
    (i.opcode.row.family ≠ .truePeak → t.tp = s.tp) ∧
    (i.opcode.row.family ≠ .compressor → t.cp = s.cp) ∧
    ((∀ a v, i ≠ .csrWrite a v) → t.cfg = s.cfg) ∧
    t.port = s.port ∧ s.results <+: t.results ∧ s.draws ≤ t.draws

/-- R178 and R105: the read paths, LAG_SETTLING_LEN and NOP change no state item; they return results
(and the model's draw counter moves). -/
def Obligations.ReadCommandsHaveNoSideEffect : Prop :=
  ∀ (i : Instr) (s t : State),
    (i = .nop ∨ (∃ a, i = .csrRead a) ∨ (∃ c, i = .fdRead c) ∨ (∃ k, i = .mrmsReadAcc k) ∨
      (∃ k b, i = .luHistRead k b) ∨ (∃ x, i = .luCoefRead x) ∨ (∃ k, i = .luResult k) ∨
      (∃ k, i = .tpResult k) ∨ (∃ x, i = .lagSettlingLen x)) →
    exec i s = .next t → t.err = s.err →
    t = { s with results := t.results, draws := t.draws }

/-- R73, R168, R169: an IDX or index operand at or above its bound raises ILLEGAL_INDEX, before any check
of a READY bit or of an argument. -/
def Obligations.IndexOutOfRangeRaisesIllegalIndex : Prop :=
  (∀ (i : Instr) (s : State) (idx : Byte) (n : Nat), s.err = 0#8 → instBound i = some (idx, n) →
    n ≤ idx.toNat → exec i s = .next (raised i .illegalIndex 0#16 0#16 s)) ∧
  (∀ (s : State) (c : Byte), s.err = 0#8 → s.fd.c.toNat ≤ c.toNat →
    exec (.fdRead c) s = .next (raised (.fdRead c) .illegalIndex 0#16 0#16 s)) ∧
  (∀ (s : State) (k : Byte), s.err = 0#8 → s.lu.na.toNat ≤ k.toNat →
    exec (.luResult k) s = .next (raised (.luResult k) .illegalIndex 0#16 0#16 s)) ∧
  (∀ (s : State) (k : Byte) (b : Dword), s.err = 0#8 →
    (s.lu.na.toNat ≤ k.toNat ∨ 7801 ≤ b.toNat) →
    exec (.luHistRead k b) s = .next (raised (.luHistRead k b) .illegalIndex 0#16 0#16 s)) ∧
  (∀ (s : State) (k : Byte), s.err = 0#8 → s.tp.na.toNat ≤ k.toNat →
    exec (.tpResult k) s = .next (raised (.tpResult k) .illegalIndex 0#16 0#16 s))

/-- R84, R165: a command on a unit or instance that is not READY raises NOT_READY, and so does FD_PUSH
after FD_END. -/
def Obligations.UnreadyUnitRaisesNotReady : Prop :=
  (∀ (i : Instr) (s : State), s.err = 0#8 → readyBit s i = some false →
    exec i s = .next (raised i .notReady 0#16 0#16 s)) ∧
  (∀ (s : State) (x : F64), s.err = 0#8 → s.fd.ready = true → s.fd.eos = true →
    exec (.fdPush x) s = .next (raised (.fdPush x) .notReady 0#16 0#16 s))

/-- R84, R98, R102, R105, R109, R114, R119, R131, R146: an argument or latched CSR value out of range
raises INVALID_ARGUMENT. -/
def Obligations.InitArgumentsAreChecked : Prop :=
  ∀ s : State, s.err = 0#8 →
    ((s.cfg.channels.toNat = 0 ∨ 8 < s.cfg.channels.toNat) →
      exec .fdInit s = .next (raised .fdInit .invalidArgument 0#16 0#16 s) ∧
      exec .luInit s = .next (raised .luInit .invalidArgument 0#16 0#16 s) ∧
      exec .tpInit s = .next (raised .tpInit .invalidArgument 0#16 0#16 s) ∧
      exec .cpInit s = .next (raised .cpInit .invalidArgument 0#16 0#16 s)) ∧
    ((s.cfg.fs.toNat < 10 ∨ 384000 < s.cfg.fs.toNat) →
      exec .luInit s = .next (raised .luInit .invalidArgument 0#16 0#16 s)) ∧
    ((s.cfg.fs.toNat = 0 ∨ 384000 < s.cfg.fs.toNat) →
      exec .cpInit s = .next (raised .cpInit .invalidArgument 0#16 0#16 s) ∧
      (∀ x : F64, exec (.lagSettlingLen x) s =
        .next (raised (.lagSettlingLen x) .invalidArgument 0#16 0#16 s)) ∧
      (∀ (i : Byte) (a b g : F64), i.toNat < 8 →
        exec (.lagInit i a b g) s = .next (raised (.lagInit i a b g) .invalidArgument 0#16 0#16 s))) ∧
    (∀ (i : Byte) (a b g : F64), i.toNat < 8 → (isFinite a = false ∨ isFinite b = false) →
      exec (.lagInit i a b g) s = .next (raised (.lagInit i a b g) .invalidArgument 0#16 0#16 s)) ∧
    (∀ (i : Byte) (p a : Dword), i.toNat < 4 →
      (p.toNat = 0 ∨ a.toNat = 0 ∨ 255 < 2 * (p.toNat * a.toNat - 1) + 1) →
      exec (.firInit i p a) s = .next (raised (.firInit i p a) .invalidArgument 0#16 0#16 s)) ∧
    (∀ (i : Byte) (w : Dword), i.toNat < 8 → (w.toNat = 0 ∨ 1048576 < w.toNat) →
      exec (.mmxInit i w) s = .next (raised (.mmxInit i w) .invalidArgument 0#16 0#16 s) ∧
      ∀ g : F64, exec (.mrmsInit i w g) s =
        .next (raised (.mrmsInit i w g) .invalidArgument 0#16 0#16 s))

/-! ## Control commands and CSRs -/

/-- R85: NOP changes nothing and returns nothing, with an error latched too. -/
def Obligations.NopCompletes : Prop := ∀ s : State, exec .nop s = .next s

/-- R87, R36 to R49: CSR_READ returns the register, with an error latched too, and changes nothing
else. -/
def Obligations.CsrReadReturnsTheRegister : Prop :=
  ∀ s : State,
    let reads : Half → Dword → Prop := fun a v =>
      exec (.csrRead a) s = .next { s with results := s.results ++ [v] }
    reads 0x0000#16 0x4146584300000007#64 ∧ reads 0x0001#16 (statusWord s) ∧
    reads 0x0002#16 s.errInfo ∧
    reads 0x0003#16 (0#8 ++ BitVec.ofNat 8 Config.tpA ++ 8#8 ++ 8#8 ++ 8#8 ++ 4#8 ++ 8#8 ++ 8#8) ∧
    reads 0x0004#16 0x0005DC0000100000#64 ∧ reads 0x0005#16 0x000000FF00010000#64 ∧
    reads 0x0010#16 (0#56 ++ s.cfg.channels) ∧ reads 0x0011#16 (0#32 ++ s.cfg.fs) ∧
    reads 0x0020#16 (0#62 ++ s.cfg.lu) ∧ reads 0x0021#16 (0#63 ++ s.cfg.tp) ∧
    reads 0x0022#16 (0#63 ++ s.cfg.cp) ∧
    (∀ c : Fin 8, reads (BitVec.ofNat 16 (0x0030 + c.val)) s.cfg.luWeight[c]) ∧
    reads 0x0040#16 s.cfg.set.thresholdDb ∧ reads 0x0041#16 s.cfg.set.ratio ∧
    reads 0x0042#16 s.cfg.set.kneeDb ∧ reads 0x0043#16 s.cfg.set.attackS ∧
    reads 0x0044#16 s.cfg.set.releaseS ∧ reads 0x0045#16 s.cfg.set.lookaheadS ∧
    reads 0x0046#16 s.cfg.set.holdS ∧ reads 0x0047#16 s.cfg.set.makeupDb ∧
    reads 0x0050#16 s.cp.envObs ∧ reads 0x0051#16 s.cp.gainDb ∧ reads 0x0052#16 s.cp.len ∧
    reads 0x0053#16 s.cp.winN ∧ reads 0x0060#16 s.lu.blockN ∧ reads 0x0061#16 s.lu.hopN ∧
    reads 0x0062#16 s.lu.n

/-- R37, R24: the fields of STATUS. -/
def Obligations.StatusFields : Prop :=
  ∀ s : State,
    (statusWord s).extractLsb' 0 8 = s.err ∧
    (statusWord s).getLsbD 8 = s.fd.ready ∧
    ((statusWord s).getLsbD 9 = true ↔
      s.fd.ready = true ∧ s.fd.cnt.toNat = s.fd.c.toNat ∧ 1 ≤ s.fd.c.toNat) ∧
    (statusWord s).getLsbD 10 = s.fd.eos ∧
    (statusWord s).getLsbD 11 = s.lu.ready ∧
    (statusWord s).getLsbD 12 = s.lu.committed ∧
    (statusWord s).getLsbD 13 = s.tp.ready ∧
    (statusWord s).getLsbD 14 = s.cp.ready ∧
    (statusWord s).extractLsb' 15 49 = 0#49

/-- R88: CSR_WRITE stores the defined bits in the addressed register, and changes nothing else. -/
def Obligations.CsrWriteStoresTheDefinedBits : Prop :=
  ∀ (s : State) (v : Dword), s.err = 0#8 →
    let writes : Half → ConfigRegs → Prop := fun a c =>
      exec (.csrWrite a v) s = .next { s with cfg := c }
    let k := s.cfg
    writes 0x0010#16 { k with channels := v.extractLsb' 0 8 } ∧
    writes 0x0011#16 { k with fs := v.extractLsb' 0 32 } ∧
    writes 0x0020#16 { k with lu := v.extractLsb' 0 2 } ∧
    writes 0x0021#16 { k with tp := v.extractLsb' 0 1 } ∧
    writes 0x0022#16 { k with cp := v.extractLsb' 0 1 } ∧
    (∀ c : Fin 8, writes (BitVec.ofNat 16 (0x0030 + c.val))
      { k with luWeight := k.luWeight.set c.val v c.isLt }) ∧
    writes 0x0040#16 { k with set := { k.set with thresholdDb := v } } ∧
    writes 0x0041#16 { k with set := { k.set with ratio := v } } ∧
    writes 0x0042#16 { k with set := { k.set with kneeDb := v } } ∧
    writes 0x0043#16 { k with set := { k.set with attackS := v } } ∧
    writes 0x0044#16 { k with set := { k.set with releaseS := v } } ∧
    writes 0x0045#16 { k with set := { k.set with lookaheadS := v } } ∧
    writes 0x0046#16 { k with set := { k.set with holdS := v } } ∧
    writes 0x0047#16 { k with set := { k.set with makeupDb := v } }

/-- R33: an access to an unimplemented address, or a write to an RO register, raises ILLEGAL_CSR and
changes no other state; with an error latched already the CSR_READ returns POISON and changes nothing. -/
def Obligations.IllegalCsrAccessRaises : Prop :=
  (∀ (s : State) (a : Half), s.err = 0#8 → ¬ addrReadOnly a.toNat → ¬ addrReadWrite a.toNat →
    exec (.csrRead a) s = .next (raised (.csrRead a) .illegalCsr 0#16 0#16 s)) ∧
  (∀ (s : State) (a : Half), s.err ≠ 0#8 → ¬ addrReadOnly a.toNat → ¬ addrReadWrite a.toNat →
    exec (.csrRead a) s = .next { s with results := s.results ++ [0xFFFFFFFFFFFFFFFF#64] }) ∧
  (∀ (s : State) (a : Half) (v : Dword), s.err = 0#8 → ¬ addrReadWrite a.toNat →
    exec (.csrWrite a v) s = .next (raised (.csrWrite a v) .illegalCsr 0#16 0#16 s))

/-- R59: reading a CSR changes nothing but the result port; writing one changes the value read at no
other address, starts nothing, and writing it again changes nothing. -/
def Obligations.CsrAccessesHaveNoSideEffect : Prop :=
  (∀ (s t : State) (a : Half), exec (.csrRead a) s = .next t → t.err = s.err →
    t = { s with results := t.results }) ∧
  (∀ (s t : State) (a b : Half) (v : Dword), s.err = 0#8 → exec (.csrWrite a v) s = .next t →
    t.err = 0#8 → t = { s with cfg := t.cfg } ∧ exec (.csrWrite a v) t = .next t ∧
      (a ≠ b → memRead b t = memRead b s))

/-- R47, R48, R49: the observation registers read their state, and change only by the commands those rules
name. -/
def Obligations.ObservationRegistersHaveTheirWriters : Prop :=
  (∀ s : State, memRead 0x0050#16 s = .ok s.cp.envObs ∧ memRead 0x0051#16 s = .ok s.cp.gainDb ∧
    memRead 0x0052#16 s = .ok s.cp.len ∧ memRead 0x0053#16 s = .ok s.cp.winN ∧
    memRead 0x0060#16 s = .ok s.lu.blockN ∧ memRead 0x0061#16 s = .ok s.lu.hopN ∧
    memRead 0x0062#16 s = .ok s.lu.n) ∧
  ∀ (i : Instr) (s t : State), exec i s = .next t →
    (t.cp.envObs ≠ s.cp.envObs ∨ t.cp.gainDb ≠ s.cp.gainDb →
      (∃ z, i = .cpFrame z) ∨ i = .cpInit ∨ i = .reset) ∧
    (t.cp.len ≠ s.cp.len ∨ t.cp.winN ≠ s.cp.winN → i = .cpInit ∨ i = .reset) ∧
    (t.lu.blockN ≠ s.lu.blockN ∨ t.lu.hopN ≠ s.lu.hopN → i = .luInit ∨ i = .reset) ∧
    (t.lu.n ≠ s.lu.n → i = .luInit ∨ i = .luFrame ∨ i = .reset) ∧
    (i = .reset → t.cp.envObs = 0#64 ∧ t.cp.gainDb = 0#64 ∧ t.cp.len = 0#64 ∧ t.cp.winN = 0#64 ∧
      t.lu.blockN = 0#64 ∧ t.lu.hopN = 0#64 ∧ t.lu.n = 0#64) ∧
    (i = .cpInit → s.err = 0#8 → t.err = 0#8 → t.cp.envObs = 0#64 ∧ t.cp.gainDb = 0#64)

/-! ## Biquad -/

/-- R93, R94, R91: BQ_INIT stores the coefficients and clears the state; BQ_PROCESS computes the output in
R91's order, shifts the state and returns the output. -/
def Obligations.BiquadCommandsComplete : Prop :=
  (∀ (s : State) (i : Byte) (b0 b1 b2 a1 a2 : F64), s.err = 0#8 → ∀ h : i.toNat < 8,
    exec (.bqInit i b0 b1 b2 a1 a2) s = .next { s with
      bq := s.bq.set i.toNat ⟨true, ⟨b0, b1, b2, a1, a2⟩, ⟨0#64, 0#64, 0#64, 0#64⟩⟩ h }) ∧
  (∀ (s : State) (i : Byte) (x : F64), s.err = 0#8 → ∀ h : i.toNat < 8, s.bq[i.toNat].ready = true →
    let q := s.bq[i.toNat]
    let k := q.coef
    ∃ y : F64,
      isResult (fsub (fsub (fadd (fadd (fmul k.b0 x) (fmul k.b1 q.st.x1)) (fmul k.b2 q.st.x2))
        (fmul k.a1 q.st.y1)) (fmul k.a2 q.st.y2)) y ∧
      exec (.bqProcess i x) s = .next { s with
        bq := s.bq.set i.toNat { q with st := ⟨x, q.st.x1, y, q.st.y1⟩ } h
        results := s.results ++ [y], draws := s.draws + 1 })

/-- R92: a NaN input, or a NaN in y1, gives a NaN output that becomes y1, so every later output is a NaN
until the instance is initialised again. -/
def Obligations.NanPoisonsBiquad : Prop :=
  ∀ (s : State) (i : Byte) (x : F64), s.err = 0#8 → ∀ h : i.toNat < 8, s.bq[i.toNat].ready = true →
    (isNaN x = true ∨ isNaN s.bq[i.toNat].st.y1 = true) →
    ∃ (t : State) (y : F64), exec (.bqProcess i x) s = .next t ∧ t.results = s.results ++ [y] ∧
      isNaN y = true ∧ isNaN t.bq[i.toNat].st.y1 = true ∧ t.bq[i.toNat].ready = true ∧ t.err = 0#8

/-! ## FIR -/

/-- R98, R99, R97: FIR_INIT builds the kernel and clears the ring; FIR_PROCESS pushes the sample and
returns the dot product, taken in index order. -/
def Obligations.FirCommandsComplete : Prop :=
  (∀ (s : State) (i : Byte) (p a : Dword), s.err = 0#8 → ∀ h : i.toNat < 4, 1 ≤ p.toNat →
    1 ≤ a.toNat → 2 * (p.toNat * a.toNat - 1) + 1 ≤ 255 →
    let len := 2 * (p.toNat * a.toNat - 1) + 1
    ∃ taps : List F64, taps.length = len ∧
      (∀ j (hj : j < taps.length),
        isResult (kernelTap p.toNat a.toNat ((j : Int) - ((p.toNat * a.toNat : Nat) : Int) + 1))
          taps[j]) ∧
      exec (.firInit i p a) s = .next { s with
        fir := s.fir.set i.toNat ⟨true, p, a, BitVec.ofNat 64 len, taps, List.replicate len 0#64⟩ h
        draws := s.draws + len }) ∧
  (∀ (s : State) (i : Byte) (x : F64), s.err = 0#8 → ∀ h : i.toNat < 4, s.fir[i.toNat].ready = true →
    let f := s.fir[i.toNat]
    let ring := f.buf.tail ++ [x]
    ∃ y : F64,
      isResult (match List.zipWith fmul ring f.h with | [] => 0#64 | p :: ps => ps.foldl fadd p) y ∧
      exec (.firProcess i x) s = .next { s with
        fir := s.fir.set i.toNat { f with buf := ring } h
        results := s.results ++ [y], draws := s.draws + 1 })

/-- R95, R96: a valid kernel has an odd length, the centre tap 1.0, and every tap the product of the two
sincs at its offset from the centre; the kernel of p = a = 1 has the only tap 1.0. -/
def Obligations.LanczosKernelShape : Prop :=
  (∀ p a : Nat, 1 ≤ p → 1 ≤ a → (lanczos p a).length = 2 * (p * a - 1) + 1 ∧
    (lanczos p a).length % 2 = 1 ∧ (lanczos p a)[p * a - 1]? = some 0x3FF0000000000000#64 ∧
    ∀ j, j < 2 * (p * a - 1) + 1 →
      (lanczos p a)[j]? = some (kernelTap p a ((j : Int) - ((p * a : Nat) : Int) + 1))) ∧
  lanczos 1 1 = [0x3FF0000000000000#64]

/-! ## Lag1 -/

/-- R102 to R105, R100, R101: LAG_INIT derives the factors; LAG_PROCESS returns level·gain;
LAG_PROCESS_INITIAL returns the level; LAG_SETTLING_LEN returns floor(fs·sqrt(tau)), saturated. -/
def Obligations.LagCommandsComplete : Prop :=
  (∀ (s : State) (i : Byte) (tr tf g : F64), s.err = 0#8 → ∀ h : i.toNat < 8, 1 ≤ s.cfg.fs.toNat →
    s.cfg.fs.toNat ≤ 384000 → isFinite tr = true → isFinite tf = true →
    let fs := fOfNat s.cfg.fs.toNat
    let per := fdiv 0x3FF0000000000000#64 fs
    let factor := fun tau => fdiv 0x3FF0000000000000#64 (fmul (if flt tau per then per else tau) fs)
    exec (.lagInit i tr tf g) s = .next { s with
      lag := s.lag.set i.toNat ⟨true, ⟨factor tr, factor tf, g, 0#64⟩⟩ h }) ∧
  (∀ (s : State) (i : Byte) (x : F64), s.err = 0#8 → ∀ h : i.toNat < 8, s.lag[i.toNat].ready = true →
    let g := s.lag[i.toNat].lag
    let k := if fle g.level x then g.rise else g.fall
    (∃ lv y : F64, isResult (fadd g.level (fmul k (fsub x g.level))) lv ∧
      isResult (fmul lv g.gain) y ∧
      exec (.lagProcess i x) s = .next { s with
        lag := s.lag.set i.toNat ⟨true, { g with level := lv }⟩ h
        results := s.results ++ [y], draws := s.draws + 2 }) ∧
    (∃ lv : F64, isResult (fadd g.level (fmul k (fsub x g.level))) lv ∧
      exec (.lagProcessInitial i x) s = .next { s with
        lag := s.lag.set i.toNat ⟨true, { g with level := lv }⟩ h
        results := s.results ++ [lv], draws := s.draws + 1 })) ∧
  (∀ (s : State) (tau : F64), s.err = 0#8 → 1 ≤ s.cfg.fs.toNat → s.cfg.fs.toNat ≤ 384000 →
    exec (.lagSettlingLen tau) s = .next { s with
      results := s.results ++ [satU64 (ffloor (fmul (fOfNat s.cfg.fs.toNat) (fsqrt tau)))] })

/-- R101: the update of lag_step. A NaN input takes the fall branch and makes the level a NaN, and a NaN
level stays a NaN for every input. -/
def Obligations.LagUpdateFollowsTheSign : Prop :=
  ∀ (d : Nat) (g : Lag) (x : F64),
    (fle g.level x = true →
      isResult (fadd g.level (fmul g.rise (fsub x g.level))) (lagStep d g x).level) ∧
    (fle g.level x = false →
      isResult (fadd g.level (fmul g.fall (fsub x g.level))) (lagStep d g x).level) ∧
    (isNaN x = true ∨ isNaN g.level = true →
      fle g.level x = false ∧ isNaN (lagStep d g x).level = true) ∧
    (lagStep d g x).rise = g.rise ∧ (lagStep d g x).fall = g.fall ∧ (lagStep d g x).gain = g.gain

/-! ## MovMax -/

/-- R109, R110, R106: MMX_INIT empties the window; MMX_PROCESS of a sample that is not a NaN pushes it and
returns the front candidate. -/
def Obligations.MovMaxCommandsComplete : Prop :=
  (∀ (s : State) (i : Byte) (w : Dword), s.err = 0#8 → ∀ h : i.toNat < 8, 1 ≤ w.toNat →
    w.toNat ≤ 1048576 →
    exec (.mmxInit i w) s = .next { s with mmx := s.mmx.set i.toNat ⟨true, ⟨w, [], []⟩⟩ h }) ∧
  (∀ (s : State) (i : Byte) (x : F64), s.err = 0#8 → ∀ h : i.toNat < 8, s.mmx[i.toNat].ready = true →
    isNaN x = false →
    let m := (mmxStep s.mmx[i.toNat].mm x).1
    exec (.mmxProcess i x) s = .next { s with
      mmx := s.mmx.set i.toNat ⟨true, m⟩ h, results := s.results ++ [m.cand.headD 0#64] })

/-- R108: fed any samples that are not NaNs, from the empty window on, mmx_step returns the oldest of the
largest of the last W samples: no sample of the window is larger, and every older one is smaller. The
candidates are, in order, the samples of the window that no later one exceeds. -/
def Obligations.MovMaxReturnsTheOldestWindowMaximum : Prop :=
  ∀ (w : Dword) (xs : List F64) (x : F64), 1 ≤ w.toNat → (∀ v ∈ xs, isNaN v = false) →
    isNaN x = false →
    let m := xs.foldl (fun m v => (mmxStep m v).1) (MovMax.empty w)
    let window := (xs ++ [x]).drop ((xs ++ [x]).length - w.toNat)
    (mmxStep m x).1.win = window ∧ (mmxStep m x).1.cand = candidates window ∧
    ∃ older newer : List F64, window = older ++ (mmxStep m x).2 :: newer ∧
      (∀ v ∈ older, flt v (mmxStep m x).2 = true) ∧ ∀ v ∈ newer, fle v (mmxStep m x).2 = true

/-- R107: a NaN that would reach mmx_step, in MMX_PROCESS or in the compressor's Peak mode, raises
NAN_INPUT; the compressor names the lowest such channel. No other state changes. -/
def Obligations.NanIntoMovMaxRaises : Prop :=
  (∀ (s : State) (i : Byte) (x : F64), s.err = 0#8 → ∀ h : i.toNat < 8, s.mmx[i.toNat].ready = true →
    isNaN x = true →
    exec (.mmxProcess i x) s = .next (raised (.mmxProcess i x) .nanInput 0#16 0#16 s)) ∧
  (∀ (s : State) (mm : MovMax) (c : Nat), s.err = 0#8 → s.cp.ready = true → s.cp.pre = .peak mm →
    s.fd.valid = true → s.fd.c = s.cp.c → c < s.cp.c.toNat → s.cp.c.toNat ≤ 8 →
    (∀ k, k < c → isNaN (s.fd.frame.toList.getD k 0#64) = false) →
    isNaN (s.fd.frame.toList.getD c 0#64) = true →
    exec (.cpFrame false) s =
      .next (raised (.cpFrame false) .nanInput (BitVec.ofNat 16 c) 0#16 s) ∧
    exec .cpFrameInitial s =
      .next (raised .cpFrameInitial .nanInput (BitVec.ofNat 16 c) 0#16 s))

/-! ## MovRms -/

/-- R114 to R117, R111, R112: the four MovRms commands. The refresh test follows the update, and the
output uses the refreshed sum. -/
def Obligations.MovRmsCommandsComplete : Prop :=
  (∀ (s : State) (i : Byte) (w : Dword) (g : F64), s.err = 0#8 → ∀ h : i.toNat < 8, 1 ≤ w.toNat →
    w.toNat ≤ 1048576 →
    exec (.mrmsInit i w g) s = .next { s with
      mrms := s.mrms.set i.toNat ⟨true, ⟨w, g, List.replicate w.toNat 0#64, 0#64, 0#64⟩⟩ h }) ∧
  (∀ (s : State) (i : Byte) (x : F64), s.err = 0#8 → ∀ h : i.toNat < 8, s.mrms[i.toNat].ready = true →
    let r := s.mrms[i.toNat].rms
    ∃ sq sum acc y : F64,
      isResult (fmul x x) sq ∧ isResult (fadd r.acc (fsub sq (r.sq.headD 0#64))) sum ∧
      (if (r.cnt + 1#64).toNat % 1048576 = 0 ∨ flt sum 0#64 = true then
        isResult ((r.sq.tail ++ [sq]).foldl fadd 0#64) acc else acc = sum) ∧
      isResult (fmul r.gain (fsqrt (fdiv acc (fOfNat r.w.toNat)))) y ∧
      exec (.mrmsProcess i x) s = .next { s with
        mrms := s.mrms.set i.toNat ⟨true, ⟨r.w, r.gain, r.sq.tail ++ [sq], acc, r.cnt + 1#64⟩⟩ h
        results := s.results ++ [y], draws := s.draws + 3 }) ∧
  (∀ (s : State) (i : Byte), s.err = 0#8 → ∀ h : i.toNat < 8, s.mrms[i.toNat].ready = true →
    let r := s.mrms[i.toNat].rms
    (∃ acc : F64, isResult (r.sq.foldl fadd 0#64) acc ∧
      exec (.mrmsRefresh i) s = .next { s with
        mrms := s.mrms.set i.toNat ⟨true, { r with acc := acc }⟩ h, draws := s.draws + 1 }) ∧
    (∃ y : F64, isResult r.acc y ∧
      exec (.mrmsReadAcc i) s = .next { s with
        results := s.results ++ [y], draws := s.draws + 1 }))

/-- R113: a NaN accumulator stays a NaN until the call that makes the counter a multiple of 2^20. -/
def Obligations.MovRmsNanLastsUntilTheRefresh : Prop :=
  ∀ (d : Nat) (r : MovRms) (x : F64), isNaN r.acc = true → (r.cnt + 1#64).toNat % 1048576 ≠ 0 →
    isNaN (mrmsNext d r x).acc = true ∧ isNaN (mrmsOutput (mrmsNext d r x)) = true

/-! ## Frame demultiplexer -/

/-- R119 to R123: the five frame commands. FD_PUSH_ERR's own effect is to raise STREAM_ERROR. -/
def Obligations.FrameCommandsComplete : Prop :=
  ∀ s : State, s.err = 0#8 →
    (1 ≤ s.cfg.channels.toNat → s.cfg.channels.toNat ≤ 8 →
      exec .fdInit s = .next { s with
        fd := ⟨true, s.cfg.channels, Vector.replicate 8 0#64, 0#64, false⟩ }) ∧
    (∀ x : F64, s.fd.ready = true → s.fd.eos = false → s.fd.cnt.toNat ≠ s.fd.c.toNat →
      exec (.fdPush x) s = .next { s with
        fd := { s.fd with
          frame := s.fd.frame.setIfInBounds s.fd.cnt.toNat x, cnt := s.fd.cnt + 1#64 } }) ∧
    (∀ x : F64, s.fd.ready = true → s.fd.eos = false → s.fd.cnt.toNat = s.fd.c.toNat →
      exec (.fdPush x) s = .next { s with
        fd := { s.fd with frame := s.fd.frame.set 0 x, cnt := 1#64 } }) ∧
    (∀ e : Half, exec (.fdPushErr e) s = .next { s with
      err := 4#8, errInfo := 0#16 ++ e ++ (0x6200#16 ++ e) }) ∧
    (s.fd.ready = true → (s.fd.cnt.toNat = 0 ∨ s.fd.c.toNat ≤ s.fd.cnt.toNat) →
      exec .fdEnd s = .next { s with fd := { s.fd with eos := true } }) ∧
    (s.fd.ready = true → 0 < s.fd.cnt.toNat → s.fd.cnt.toNat < s.fd.c.toNat →
      exec .fdEnd s = .next (raised .fdEnd .invalidFrame 0#16 0#16 s)) ∧
    (∀ (c : Byte) (hc : c.toNat < 8), c.toNat < s.fd.c.toNat → s.fd.ready = true →
      s.fd.cnt.toNat = s.fd.c.toNat →
      exec (.fdRead c) s = .next { s with results := s.results ++ [s.fd.frame[c.toNat]] }) ∧
    (∀ c : Byte, c.toNat < s.fd.c.toNat → s.fd.ready = true → s.fd.cnt.toNat ≠ s.fd.c.toNat →
      exec (.fdRead c) s = .next (raised (.fdRead c) .invalidFrame 0#16 0#16 s))

/-- R118, R120: after FD_INIT, pushing C samples makes them the valid frame, in order. -/
def Obligations.PushedSamplesFormTheFrame : Prop :=
  ∀ (s t : State) (xs : List F64), s.err = 0#8 → exec .fdInit s = .next t → t.err = 0#8 →
    xs.length = s.cfg.channels.toNat →
    ∃ u : State,
      xs.foldl (fun (o : Host.Outcome State Fault Refusal) x =>
        match o with
        | .next v => exec (.fdPush x) v
        | .fault r => .fault r
        | .refused r => .refused r) (.next t) = .next u ∧
      u = { s with fd := u.fd } ∧ u.fd.valid = true ∧ u.fd.frame.toList.take u.fd.c.toNat = xs

/-- R124, R188: a frame command of a READY unit with no valid frame, or with another channel count, raises
INVALID_FRAME; need_frame otherwise gives the samples, and no frame command changes the FD. -/
def Obligations.FrameConsumersCheckTheFrame : Prop :=
  (∀ s : State, s.err = 0#8 →
    (s.lu.ready = true → (s.fd.valid = false ∨ s.fd.c ≠ s.lu.c) →
      exec .luFrame s = .next (raised .luFrame .invalidFrame 0#16 0#16 s)) ∧
    (s.tp.ready = true → (s.fd.valid = false ∨ s.fd.c ≠ s.tp.c) →
      exec .tpFrame s = .next (raised .tpFrame .invalidFrame 0#16 0#16 s)) ∧
    (s.cp.ready = true → (s.fd.valid = false ∨ s.fd.c ≠ s.cp.c) →
      exec (.cpFrame false) s = .next (raised (.cpFrame false) .invalidFrame 0#16 0#16 s) ∧
      exec .cpFrameInitial s = .next (raised .cpFrameInitial .invalidFrame 0#16 0#16 s))) ∧
  (∀ (s : State) (c : Byte), s.fd.valid = true → s.fd.c = c →
    needFrame c s = .ok (s.fd.frame.toList.take c.toNat)) ∧
  (∀ (i : Instr) (s t : State),
    (i = .luFrame ∨ i = .tpFrame ∨ (∃ z, i = .cpFrame z) ∨ i = .cpFrameInitial) →
    exec i s = .next t → t.fd = s.fd)

/-! ## Loudness -/

/-- R131, R129, R127: LU_INIT latches the configuration and starts every filter, ring and histogram from
zero. -/
def Obligations.LuInitCompletes : Prop :=
  ∀ s : State, s.err = 0#8 → 1 ≤ s.cfg.channels.toNat → s.cfg.channels.toNat ≤ 8 →
    10 ≤ s.cfg.fs.toNat → s.cfg.fs.toNat ≤ 384000 →
    let coefs := fun st : KStage =>
      (⟨Config.kwCoeff s.cfg.fs st .b0, Config.kwCoeff s.cfg.fs st .b1,
        Config.kwCoeff s.cfg.fs st .b2, Config.kwCoeff s.cfg.fs st .a1,
        Config.kwCoeff s.cfg.fs st .a2⟩ : BqCoef)
    let na := if s.cfg.lu.getLsbD 0 then s.cfg.channels else 1#8
    exec .luInit s = .next { s with lu :=
      { ready := true, c := s.cfg.channels, fs := s.cfg.fs, indep := s.cfg.lu.getLsbD 0,
        strict := s.cfg.lu.getLsbD 1, blockN := BitVec.ofNat 64 (2 * s.cfg.fs.toNat / 5),
        hopN := BitVec.ofNat 64 (s.cfg.fs.toNat / 10), ks := coefs .shelf, kh := coefs .highPass,
        chans := (s.cfg.luWeight.toList.take s.cfg.channels.toNat).map fun w =>
          ⟨w, ⟨0#64, 0#64, 0#64, 0#64⟩, ⟨0#64, 0#64, 0#64, 0#64⟩⟩,
        na := na,
        accs := List.replicate na.toNat ⟨[], 0#64, List.replicate 7801 0#64⟩,
        n := 0#64, committed := false } }

/-- R136, R135: LU_FRAME filters, weighs and appends the value v[k] to accumulator k's ring; at the end of
a hop it commits the mean of every full ring, its sum from +0.0, oldest first, over f64(B), and completes
when no commit raises. An append drops the oldest value of a full ring. -/
def Obligations.LuFrameCompletes : Prop :=
  (∀ (b : Dword) (a : LuAcc), luAppend b a none = a ∧
    ∀ v : F64,
      (a.len = b → luAppend b a (some v) = { a with blk := a.blk.tail ++ [v] }) ∧
      (a.len ≠ b → luAppend b a (some v) = { a with blk := a.blk ++ [v], len := a.len + 1#64 })) ∧
  (∀ (b : Dword) (accs : List LuAcc) (vs : List (Option F64)) (k : Nat) (a : LuAcc),
    accs[k]? = some a → (luAppends b accs vs)[k]? = some (luAppend b a (vs.getD k none))) ∧
  (∀ (a : LuAcc) (n : Dword), blockMean a n = fdiv (a.blk.foldl fadd 0#64) (fOfNat n.toNat)) ∧
  ∀ s : State, s.err = 0#8 → s.lu.ready = true → s.fd.valid = true → s.fd.c = s.lu.c →
    let r := luWeighChans s.lu.ks s.lu.kh s.draws s.lu.chans
      (s.fd.frame.toList.take s.lu.c.toNat)
    let vs := luValues (s.draws + 3 * s.lu.chans.length) s.lu.indep r.2
    let accs := ringAppends s.lu.blockN s.lu.accs vs
    let n := s.lu.n + 1#64
    (n.toNat % s.lu.hopN.toNat ≠ 0 →
      exec .luFrame s = .next { s with
        lu := { s.lu with chans := r.1, accs := accs, n := n }
        draws := s.draws + (3 * s.lu.chans.length + 1) }) ∧
    (n.toNat % s.lu.hopN.toNat = 0 →
      (∀ a ∈ accs, s.lu.blockN.toNat ≤ a.len.toNat → commitOk (ringMean a s.lu.blockN)) →
      exec .luFrame s = .next { s with
        lu := { s.lu with
          chans := r.1
          accs := accs.map fun a =>
            if s.lu.blockN.toNat ≤ a.len.toNat then commitAcc a (ringMean a s.lu.blockN) else a
          n := n
          committed := s.lu.committed || accs.any fun a => decide (s.lu.blockN.toNat ≤ a.len.toNat) }
        draws := s.draws + (3 * s.lu.chans.length + 1) })

/-- R132: lu_weigh. A channel of weight ±0.0 is skipped and its filters are not stepped; another is filtered
by the shelf and then the high-pass section, squared and weighed. INDEP = 1 gives the channels' values,
INDEP = 0 their sum in ascending order. -/
def Obligations.LuWeighsAFrame : Prop :=
  ∀ (d : Nat) (ks kh : BqCoef) (chans : List LuChan) (xs : List F64), chans.length = xs.length →
    let r := luWeighChans ks kh d chans xs
    r.1.length = xs.length ∧ r.2.length = xs.length ∧
    (∀ c (hc : c < chans.length) (hx : c < xs.length) (h1 : c < r.1.length) (h2 : c < r.2.length),
      let ch := chans[c]
      (feq ch.w 0#64 = true → r.1[c] = ch ∧ r.2[c] = none) ∧
      (feq ch.w 0#64 = false → ∃ y1 y2 e : F64,
        isResult (bqOutput ch.shelf ks xs[c]) y1 ∧ isResult (bqOutput ch.hp kh y1) y2 ∧
        isResult (fmul ch.w (fmul y2 y2)) e ∧ r.2[c] = some e ∧
        r.1[c] =
          ⟨ch.w, ⟨xs[c], ch.shelf.x1, y1, ch.shelf.y1⟩, ⟨y1, ch.hp.x1, y2, ch.hp.y1⟩⟩)) ∧
    ∀ (n : Nat), luValues n true r.2 = r.2 ∧
      ∃ e : F64, isResult ((r.2.filterMap id).foldl fadd 0#64) e ∧ luValues n false r.2 = [some e]

/-- R134: committing a block's mean energy: a NaN index (of a NaN or negative energy) and an index of 7801
or more (infinity too) raise, an index below 0 (silence too) is discarded, another counts in its bin. The
index is R133's, and SCALE is R130's 100.01282051282051; the energy 1.0 has the index 7000. -/
def Obligations.LuCommitCountsOneBin : Prop :=
  scale = 0x405900D20D20D20D#64 ∧ energyIndex 0x3FF0000000000000#64 = 0x40BB580000000000#64 ∧
  ∀ (k : Nat) (a : LuAcc) (e : F64),
    (isNaN (energyIndex e) = true → luCommit k a e = .error ⟨.nanInput, BitVec.ofNat 16 k, 0#16⟩) ∧
    (fle 0x40BE790000000000#64 (energyIndex e) = true →
      luCommit k a e = .error ⟨.denormalizedInput, BitVec.ofNat 16 k, 0#16⟩) ∧
    (flt (energyIndex e) 0#64 = true → luCommit k a e = .ok a) ∧
    (isNaN e = true ∨ flt e 0#64 = true → isNaN (energyIndex e) = true) ∧
    (e = 0x7FF0000000000000#64 → fle 0x40BE790000000000#64 (energyIndex e) = true) ∧
    (isZero e = true → luCommit k a e = .ok a) ∧
    (isNaN (energyIndex e) = false → fle 0x40BE790000000000#64 (energyIndex e) = false →
      flt (energyIndex e) 0#64 = false → a.hist.length = 7801 →
      ∃ b : LuAcc, luCommit k a e = .ok b ∧ b.blk = a.blk ∧ b.len = a.len ∧
        b.hist.length = 7801 ∧
        b.hist.getD (fToNat (energyIndex e)) 0#64 = a.hist.getD (fToNat (energyIndex e)) 0#64 + 1#64 ∧
        ∀ j, j ≠ fToNat (energyIndex e) → b.hist.getD j 0#64 = a.hist.getD j 0#64)

/-- R136, R137, R169: a commit that raises does so for the lowest accumulator, and the command then
changes nothing but the latch. -/
def Obligations.LuRaisesForTheLowestAccumulator : Prop :=
  ∀ (s : State) (k : Nat) (before after : List LuAcc) (a : LuAcc) (e : ErrCode), s.err = 0#8 →
    s.lu.ready = true → before.length = k →
    (s.fd.valid = true → s.fd.c = s.lu.c →
      (s.lu.n + 1#64).toNat % s.lu.hopN.toNat = 0 →
      ringAppends s.lu.blockN s.lu.accs
        (luValues (s.draws + 3 * s.lu.chans.length) s.lu.indep
          (luWeighChans s.lu.ks s.lu.kh s.draws s.lu.chans
            (s.fd.frame.toList.take s.lu.c.toNat)).2) = before ++ a :: after →
      (∀ b ∈ before, s.lu.blockN.toNat ≤ b.len.toNat → commitOk (ringMean b s.lu.blockN)) →
      s.lu.blockN.toNat ≤ a.len.toNat →
      luCommit k a (ringMean a s.lu.blockN) = .error ⟨e, BitVec.ofNat 16 k, 0#16⟩ →
      exec .luFrame s = .next (raised .luFrame e (BitVec.ofNat 16 k) 0#16 s)) ∧
    (s.lu.committed = false → s.lu.accs = before ++ a :: after →
      (∀ b ∈ before, 0 < b.len.toNat → commitOk (ringMean b b.len)) → 0 < a.len.toNat →
      luCommit k a (ringMean a a.len) = .error ⟨e, BitVec.ofNat 16 k, 0#16⟩ →
      exec .luFinalize s = .next (raised .luFinalize e (BitVec.ofNat 16 k) 0#16 s))

/-- R137: LU_FINALIZE does nothing once a block is committed; otherwise it commits every ring that holds a
value: its sum, oldest first from +0.0, over f64(len), the values present. -/
def Obligations.LuFinalizeCompletes : Prop :=
  ∀ s : State, s.err = 0#8 → s.lu.ready = true →
    (s.lu.committed = true → exec .luFinalize s = .next s) ∧
    (s.lu.committed = false →
      (∀ a ∈ s.lu.accs, 0 < a.len.toNat → commitOk (ringMean a a.len)) →
      exec .luFinalize s = .next { s with
        lu := { s.lu with
          accs := s.lu.accs.map fun a => if 0 < a.len.toNat then commitAcc a (ringMean a a.len) else a
          committed := true } })

/-- R140 to R143: the three loudness reads return the result, a count and a coefficient, and change
nothing. -/
def Obligations.LuReadCommandsComplete : Prop :=
  ∀ s : State, s.err = 0#8 → s.lu.ready = true →
    (∀ (k : Byte) (a : LuAcc), k.toNat < s.lu.na.toNat → s.lu.accs[k.toNat]? = some a →
      (∃ y : F64,
        isResult (if s.lu.strict then luIntegrate s.draws a.hist
          else fmul (luIntegrate s.draws a.hist) (fdiv 0x4000000000000000#64 (fOfNat s.lu.c.toNat))) y ∧
        exec (.luResult k) s = .next { s with
          results := s.results ++ [y], draws := s.draws + 1 }) ∧
      ∀ b : Dword, b.toNat < 7801 →
        exec (.luHistRead k b) s = .next { s with results := s.results ++ [a.hist.getD b.toNat 0#64] }) ∧
    (let reads : BitVec 4 → F64 → Prop := fun sel v => ∃ y : F64, isResult v y ∧
      exec (.luCoefRead sel) s = .next { s with
        results := s.results ++ [y], draws := s.draws + 1 }
    reads 0#4 s.lu.ks.b0 ∧ reads 1#4 s.lu.ks.b1 ∧ reads 2#4 s.lu.ks.b2 ∧ reads 3#4 s.lu.ks.a1 ∧
    reads 4#4 s.lu.ks.a2 ∧ reads 8#4 s.lu.kh.b0 ∧ reads 9#4 s.lu.kh.b1 ∧ reads 10#4 s.lu.kh.b2 ∧
    reads 11#4 s.lu.kh.a1 ∧ reads 12#4 s.lu.kh.a2)

/-- R139, R138, R130: an empty histogram integrates to +0.0; another in two passes, the second from the
relative gate's bin max(j, 0) on. Three points are the model's: that a histogram with any count that is not
0 is not empty (log entry 11), and that for a j that is a NaN (log entry 9) or +inf (log entry 17), of
which R139 does not speak, the second pass is still a mean from some bin on. -/
def Obligations.LuIntegratesInTwoGatedPasses : Prop :=
  binW = 0x3F847A353A61554A#64 ∧
  ∀ (d : Nat) (hist : List Dword), hist.length = 7801 →
    ((∀ n ∈ hist, n = 0#64) → luIntegrate d hist = 0#64) ∧
    ((∃ n ∈ hist, n ≠ 0#64) →
      let lr := fsub (fmul 0x4024000000000000#64 (fnLog10 (meanOver hist 0))) 0x4024000000000000#64
      let j := dbIndex lr
      ∃ lo : Nat, luIntegrate d hist = meanOver hist lo ∧ (flt j 0#64 = true → lo = 0) ∧
        (isFinite j = true → fle 0#64 j = true → lo = fToNat j))

/-- R144, R136: LU_INIT makes a silent unit, zero frames (with finite coefficients and weights) and
LU_FINALIZE keep it silent, and every result of a silent unit is +0.0. -/
def Obligations.SilenceGivesZeroLoudness : Prop :=
  (∀ s t : State, s.err = 0#8 → exec .luInit s = .next t → t.err = 0#8 → silent t.lu) ∧
  (∀ s : State, s.err = 0#8 → silent s.lu → finiteFilters s.lu → s.fd.valid = true →
    s.fd.c = s.lu.c → (∀ c : Fin 8, isZero s.fd.frame[c] = true) →
    ∃ t, exec .luFrame s = .next t ∧ t.err = 0#8 ∧ silent t.lu ∧ finiteFilters t.lu) ∧
  (∀ s : State, s.err = 0#8 → silent s.lu →
    (∃ t, exec .luFinalize s = .next t ∧ t.err = 0#8 ∧ silent t.lu) ∧
    ∀ k : Byte, k.toNat < s.lu.na.toNat → exec (.luResult k) s = .next { s with
      results := s.results ++ [0#64], draws := s.draws + 1 })

/-! ## True peak -/

/-- R145 to R148: TP_INIT builds the kernel and clears rings and maxima; TP_FRAME runs every channel;
TP_RESULT returns a maximum. -/
def Obligations.TruePeakCommandsComplete : Prop :=
  ∀ s : State, s.err = 0#8 →
    (1 ≤ s.cfg.channels.toNat → s.cfg.channels.toNat ≤ 8 →
      let len := 2 * (4 * Config.tpA - 1) + 1
      let na := if s.cfg.tp.getLsbD 0 then s.cfg.channels else 1#8
      ∃ taps : List F64, taps.length = len ∧
        (∀ j (hj : j < taps.length),
          isResult (kernelTap 4 Config.tpA ((j : Int) - ((4 * Config.tpA : Nat) : Int) + 1)) taps[j]) ∧
        exec .tpInit s = .next { s with
          tp := ⟨true, s.cfg.channels, s.cfg.tp.getLsbD 0, BitVec.ofNat 64 len, taps,
            List.replicate s.cfg.channels.toNat (List.replicate len 0#64), na,
            List.replicate na.toNat 0#64⟩
          draws := s.draws + len }) ∧
    (s.tp.ready = true → s.fd.valid = true → s.fd.c = s.tp.c →
      let r := tpChans s.tp.h s.tp.indep 0 s.tp.tbuf (s.fd.frame.toList.take s.tp.c.toNat) s.tp.m
      exec .tpFrame s = .next { s with tp := { s.tp with tbuf := r.1, m := r.2 } }) ∧
    (∀ k : Byte, s.tp.ready = true → k.toNat < s.tp.na.toNat →
      ∃ y : F64, isResult (s.tp.m.getD k.toNat 0#64) y ∧
        exec (.tpResult k) s = .next { s with
          results := s.results ++ [y], draws := s.draws + 1 })

/-- R147: one channel steps its filter with the sample and three zeros; the maximum becomes the largest
magnitude among it and the four outputs, a NaN output being ignored. With INDEP = 1 each channel has its
own maximum, with INDEP = 0 the channels update maximum 0 in ascending order. -/
def Obligations.TruePeakKeepsTheLargestSubSample : Prop :=
  (∀ (h buf : List F64) (m x : F64), isNaN m = false →
    let r0 := firStep buf h x
    let r1 := firStep r0.1 h 0#64
    let r2 := firStep r1.1 h 0#64
    let r3 := firStep r2.1 h 0#64
    let vs := [r0.2, r1.2, r2.2, r3.2]
    let p := (tpChannel h buf m x).2
    (tpChannel h buf m x).1 = r3.1 ∧ isNaN p = false ∧ fle m p = true ∧
    (∀ v ∈ vs, isNaN v = false → fle (fabs v) p = true) ∧
    (p = m ∨ ∃ v ∈ vs, isNaN v = false ∧ p = fabs v)) ∧
  ∀ (h : List F64) (bufs : List (List F64)) (xs m : List F64), bufs.length = xs.length →
    (m.length = xs.length →
      tpChans h true 0 bufs xs m =
        (List.zipWith (fun b x => (tpChannel h b 0#64 x).1) bufs xs,
          List.zipWith (fun k b => (tpChannel h b.1 k b.2).2) m (bufs.zip xs))) ∧
    ∀ m0 : F64, tpChans h false 0 bufs xs [m0] =
      (List.zipWith (fun b x => (tpChannel h b 0#64 x).1) bufs xs,
        [(bufs.zip xs).foldl (fun k b => (tpChannel h b.1 k b.2).2) m0])

/-- R146, R147, R148: TP_INIT apart, a running maximum never decreases, is never a NaN and never
negative. -/
def Obligations.TruePeakMaximaNeverDecrease : Prop :=
  ∀ (i : Instr) (s t : State), s.tp.Inv → exec i s = .next t → i ≠ .tpInit → i ≠ .reset →
    t.tp.m.length = s.tp.m.length ∧
    ∀ k, k < s.tp.m.length →
      fle (s.tp.m.getD k 0#64) (t.tp.m.getD k 0#64) = true ∧
      isNaN (t.tp.m.getD k 0#64) = false ∧ fsign (t.tp.m.getD k 0#64) = false

/-! ## Compressor -/

/-- R150 to R155: CP_INIT with valid settings. -/
def Obligations.CpInitCompletes : Prop :=
  ∀ s : State, s.err = 0#8 → 1 ≤ s.cfg.channels.toNat → s.cfg.channels.toNat ≤ 8 →
    1 ≤ s.cfg.fs.toNat → s.cfg.fs.toNat ≤ 384000 →
    let k := s.cfg.set
    let fs := fOfNat s.cfg.fs.toNat
    let l := fToNat (ftrunc (fmul k.lookaheadS fs))
    let hn := fToNat (ftrunc (fmul k.holdS fs))
    let wp := (l + hn) * s.cfg.channels.toNat
    let per := fdiv 0x3FF0000000000000#64 fs
    let factor := fun tau => fdiv 0x3FF0000000000000#64 (fmul (if flt tau per then per else tau) fs)
    flt 0x3FF0000000000000#64 k.ratio = true → isFinite k.thresholdDb = true →
    isFinite k.makeupDb = true → isFinite k.kneeDb = true → fle 0#64 k.kneeDb = true →
    isFinite k.attackS = true → isFinite k.releaseS = true →
    isFinite k.lookaheadS = true → fle 0#64 k.lookaheadS = true →
    isFinite k.holdS = true → fle 0#64 k.holdS = true →
    isFinite (fmul k.lookaheadS fs) = true → isFinite (fmul k.holdS fs) = true →
    1 ≤ l → l ≤ 65536 → wp ≤ 1048576 →
    exec .cpInit s = .next { s with cp :=
      { ready := true, c := s.cfg.channels, fs := s.cfg.fs, det := s.cfg.cp.getLsbD 0,
        t := k.thresholdDb, r := k.ratio, kw := k.kneeDb, m := k.makeupDb,
        tauA := k.attackS, tauR := k.releaseS,
        len := BitVec.ofNat 64 l, holdN := BitVec.ofNat 64 hn, winN := BitVec.ofNat 64 wp,
        pre := if s.cfg.cp.getLsbD 0 then
            .rms ⟨BitVec.ofNat 64 wp, 0x3FF0000000000000#64, List.replicate wp 0#64, 0#64, 0#64⟩
          else .peak ⟨BitVec.ofNat 64 wp, [], []⟩,
        env := ⟨factor k.attackS, factor k.releaseS,
          if s.cfg.cp.getLsbD 0 then Config.rmsCompGain else 0x3FF0000000000000#64, 0#64⟩,
        fifo := List.replicate l (List.replicate s.cfg.channels.toNat 0#64),
        envObs := 0#64, gainDb := 0#64 } }

/-- R152: each setting that CP_INIT refuses. That an infinite product is past every bound is the model's
reading (log entry 8). -/
def Obligations.CpInitRefusesBadSettings : Prop :=
  ∀ s : State, s.err = 0#8 →
    let k := s.cfg.set
    let la := fmul k.lookaheadS (fOfNat s.cfg.fs.toNat)
    let ho := fmul k.holdS (fOfNat s.cfg.fs.toNat)
    (s.cfg.channels.toNat < 1 ∨ 8 < s.cfg.channels.toNat ∨ s.cfg.fs.toNat < 1 ∨
      384000 < s.cfg.fs.toNat ∨ flt 0x3FF0000000000000#64 k.ratio = false ∨
      isFinite k.thresholdDb = false ∨ isFinite k.makeupDb = false ∨
      isFinite k.kneeDb = false ∨ flt k.kneeDb 0#64 = true ∨
      isFinite k.attackS = false ∨ isFinite k.releaseS = false ∨
      isFinite k.lookaheadS = false ∨ flt k.lookaheadS 0#64 = true ∨
      isFinite k.holdS = false ∨ flt k.holdS 0#64 = true ∨
      isFinite la = false ∨ isFinite ho = false ∨
      fToNat (ftrunc la) < 1 ∨ 65536 < fToNat (ftrunc la) ∨
      1048576 < (fToNat (ftrunc la) + fToNat (ftrunc ho)) * s.cfg.channels.toNat) →
    exec .cpInit s = .next (raised .cpInit .invalidArgument 0#16 0#16 s)

/-- R160, R156, R154: CP_FRAME feeds the detector (in Peak mode the rectified samples, by PEAK_RECTIFY),
computes the gain from the envelope, returns the oldest frame of the FIFO times that gain, and pushes the
frame it consumed. -/
def Obligations.CpFrameCompletes : Prop :=
  (∀ x : F64, rect x = if Config.peakRectifyAbs then x &&& 0x7FFFFFFFFFFFFFFF#64 else x) ∧
  ∀ (s : State) (zero : Bool), s.err = 0#8 → s.cp.ready = true →
    (zero = false → s.fd.valid = true ∧ s.fd.c = s.cp.c) →
    let x := cpConsumed zero s
    feedable s.cp.pre x →
    let p := fed s.draws s.cp.pre x
    let out := s.cp.fifo.headD []
    ∃ (lv e gdb : F64) (ys : List F64),
      envLevel s.cp.env p.2 lv ∧ isResult (fmul lv s.cp.env.gain) e ∧
      isResult (cpGain s.cp (cpLevel e)) gdb ∧ ys.length = s.cp.c.toNat ∧
      (∀ c (hc : c < ys.length),
        isResult (fmul (out.getD c 0#64) (exp10 (fdiv gdb 0x4034000000000000#64))) ys[c]) ∧
      exec (.cpFrame zero) s = .next { s with
        cp := { s.cp with
          pre := p.1, env := { s.cp.env with level := lv }, fifo := s.cp.fifo.tail ++ [x]
          envObs := e, gainDb := gdb }
        results := s.results ++ ys
        draws := s.draws + 3 * x.length + 3 + s.cp.c.toNat }

/-- R162: CP_FRAME_INITIAL steps the detector and nothing else. -/
def Obligations.CpFrameInitialCompletes : Prop :=
  ∀ s : State, s.err = 0#8 → s.cp.ready = true → s.fd.valid = true → s.fd.c = s.cp.c →
    let x := cpConsumed false s
    feedable s.cp.pre x →
    let p := fed s.draws s.cp.pre x
    ∃ lv : F64, envLevel s.cp.env p.2 lv ∧
      exec .cpFrameInitial s = .next { s with
        cp := { s.cp with pre := p.1, env := { s.cp.env with level := lv } }
        draws := s.draws + 3 * x.length + 2 }

/-- R161: from CP_INIT on, with any commands but CP_INIT and RESET between and no error, the N-th CP_FRAME
returns the frame that the CP_FRAME L steps before consumed, or for N < L a zero frame, times the gain
computed at step N. -/
def Obligations.CpDelaysFramesByTheLookAhead : Prop :=
  ∀ (s t : State) (cmds : List Instr), s.err = 0#8 → exec .cpInit s = .next t →
    (∀ i ∈ cmds, i ≠ .cpInit ∧ i ≠ .reset) → (afterAll cmds t).err = 0#8 →
    let ev := cpEvents cmds t
    let l := t.cp.len.toNat
    1 ≤ l ∧
    ∀ n (hn : n < ev.length),
      ev[n].returned.length = t.cp.c.toNat ∧
      ∀ c (hc : c < ev[n].returned.length),
        isResult
          (fmul (if l ≤ n then ((ev.map (·.consumed)).getD (n - l) []).getD c 0#64 else 0#64)
            (exp10 (fdiv ev[n].gain 0x4034000000000000#64)))
          ev[n].returned[c]

/-- R158: the three regions of the gain computer, the first that holds winning, and its values at the two
infinite levels. -/
def Obligations.CpGainRegions : Prop :=
  ∀ (u : Compressor) (ld : F64),
    let kc := fmul 0x4000000000000000#64 (fsub ld u.t)
    let above := fsub (fadd (fadd u.t (fdiv (fsub ld u.t) u.r)) u.m) ld
    (flt kc (fneg u.kw) = true → cpGain u ld = u.m) ∧
    (flt kc (fneg u.kw) = false → flt 0#64 u.kw = true → fle kc u.kw = true →
      cpGain u ld = Config.kneeGain ld u.t u.kw u.r u.m) ∧
    (flt kc (fneg u.kw) = false → (flt 0#64 u.kw = false ∨ fle kc u.kw = false) →
      cpGain u ld = above) ∧
    (isFinite u.t = true → isFinite u.kw = true →
      cpGain u 0xFFF0000000000000#64 = u.m ∧
      (flt 0x3FF0000000000000#64 u.r = true → isFinite u.m = true →
        isNaN (cpGain u 0x7FF0000000000000#64) = true))

/-- R157: a NaN level becomes −200.0, which happens for a NaN and for a negative envelope; a zero
envelope stays at −inf dB and so gets the make-up gain. -/
def Obligations.CpLevelReplacesNaN : Prop :=
  ∀ e : F64,
    (isNaN (fmul 0x4034000000000000#64 (fnLog10 e)) = false →
      cpLevel e = fmul 0x4034000000000000#64 (fnLog10 e)) ∧
    (isNaN (fmul 0x4034000000000000#64 (fnLog10 e)) = true → cpLevel e = 0xC069000000000000#64) ∧
    (isNaN e = true ∨ flt e 0#64 = true → cpLevel e = 0xC069000000000000#64) ∧
    (isZero e = true → cpLevel e = 0xFFF0000000000000#64 ∧
      ∀ u : Compressor, isFinite u.t = true → isFinite u.kw = true → cpGain u (cpLevel e) = u.m) ∧
    isNaN (cpLevel e) = false

/-- R163: when the level is below the knee at the step, the delayed frame is multiplied by exp10(M / 20),
which CP_GAIN_DB shows as M. -/
def Obligations.BelowTheKneeOnlyMakeupApplies : Prop :=
  ∀ (s t : State) (zero : Bool), s.err = 0#8 → isNaN s.cp.m = false →
    exec (.cpFrame zero) s = .next t → t.err = 0#8 →
    flt (fmul 0x4000000000000000#64 (fsub (cpLevel t.cp.envObs) s.cp.t)) (fneg s.cp.kw) = true →
    t.cp.gainDb = s.cp.m ∧
    ∃ ys : List F64, t.results = s.results ++ ys ∧ ys.length = s.cp.c.toNat ∧
      ∀ c (hc : c < ys.length),
        isResult (fmul ((s.cp.fifo.headD []).getD c 0#64)
          (exp10 (fdiv s.cp.m 0x4034000000000000#64))) ys[c]
end

