-- ==== Sys2Proof/Laws/Float.lean ====
section
/-! SUPPORT. Laws of the binary64 operations: fields, NaN propagation, zeros, draws
(`00_scope.md` rules R11 to R15). -/

namespace Sys2Proof.Machine

/-! ## Fields of a built value -/

theorem fmag_mkF64 {s : Bool} {m : Nat} (h : m < 2 ^ 63) : fmag (mkF64 s m) = m := by
  cases s <;> simp only [fmag, mkF64, BitVec.toNat_ofNat] <;> simp <;> omega

theorem fsign_mkF64 {s : Bool} {m : Nat} (h : m < 2 ^ 63) : fsign (mkF64 s m) = s := by
  cases s <;> simp only [fsign, mkF64, BitVec.getLsbD_ofNat] <;> simp [Nat.testBit, Nat.shiftRight_eq_div_pow] <;> omega

theorem fmag_lt (x : F64) : fmag x < 2 ^ 63 := Nat.mod_lt _ (by decide)

/-- A value is its sign and its magnitude encoding. -/
theorem mkF64_fields (x : F64) : mkF64 (fsign x) (fmag x) = x := by
  apply BitVec.eq_of_toNat_eq
  have hx := x.isLt
  have hs : fsign x = decide (x.toNat / 2 ^ 63 % 2 = 1) := Nat.testBit_eq_decide_div_mod_eq
  rw [mkF64, hs, BitVec.toNat_ofNat, fmag]
  by_cases h : x.toNat / 2 ^ 63 % 2 = 1
  · rw [if_pos (decide_eq_true h)]; omega
  · rw [if_neg (by rw [decide_eq_true_eq]; exact h)]; omega

/-- |x| is x with its sign bit cleared (R12). -/
theorem fabs_eq_and (x : F64) : fabs x = x &&& 0x7FFFFFFFFFFFFFFF#64 := by
  apply BitVec.eq_of_toNat_eq
  have h : x.toNat &&& (2 ^ 63 - 1) = x.toNat % 2 ^ 63 := Nat.and_two_pow_sub_one_eq_mod x.toNat 63
  rw [BitVec.toNat_and, show (0x7FFFFFFFFFFFFFFF#64 : F64).toNat = 2 ^ 63 - 1 from rfl, h, fabs, mkF64, fmag,
    BitVec.toNat_ofNat, if_neg Bool.false_ne_true]
  omega

@[simp] theorem fmag_fabs (x : F64) : fmag (fabs x) = fmag x := fmag_mkF64 (fmag_lt x)
@[simp] theorem fsign_fabs (x : F64) : fsign (fabs x) = false := fsign_mkF64 (fmag_lt x)
@[simp] theorem fmag_fneg (x : F64) : fmag (fneg x) = fmag x := fmag_mkF64 (fmag_lt x)
@[simp] theorem fsign_fneg (x : F64) : fsign (fneg x) = !fsign x := fsign_mkF64 (fmag_lt x)
@[simp] theorem isNaN_fabs (x : F64) : isNaN (fabs x) = isNaN x := by simp [isNaN]
@[simp] theorem isNaN_fneg (x : F64) : isNaN (fneg x) = isNaN x := by simp [isNaN]
@[simp] theorem isZero_fneg (x : F64) : isZero (fneg x) = isZero x := by simp [isZero]
@[simp] theorem isInf_fneg (x : F64) : isInf (fneg x) = isInf x := by simp [isInf]
@[simp] theorem isNaN_qNaN : isNaN qNaN = true := by decide

@[simp] theorem fmag_fZero (s : Bool) : fmag (fZero s) = 0 := fmag_mkF64 (by decide)
@[simp] theorem isZero_fZero (s : Bool) : isZero (fZero s) = true := by simp [isZero]
@[simp] theorem fmag_fInf (s : Bool) : fmag (fInf s) = infMag := fmag_mkF64 (by decide)
@[simp] theorem fsign_fInf (s : Bool) : fsign (fInf s) = s := fsign_mkF64 (by decide)
@[simp] theorem isInf_fInf (s : Bool) : isInf (fInf s) = true := by simp [isInf]
@[simp] theorem isNaN_fInf (s : Bool) : isNaN (fInf s) = false := by simp [isNaN]

/-- A zero is neither a NaN nor an infinity. -/
theorem isZero_not_nan {x : F64} (h : isZero x = true) : isNaN x = false := by
  simp only [isZero, beq_iff_eq] at h; simp [isNaN, h]

theorem isZero_not_inf {x : F64} (h : isZero x = true) : isInf x = false := by
  simp only [isZero, beq_iff_eq] at h; simp [isInf, h, infMag]

theorem isZero_finite {x : F64} (h : isZero x = true) : isFinite x = true := by
  simp only [isZero, beq_iff_eq] at h; simp [isFinite, h, infMag]

/-- A finite value is neither a NaN nor an infinity. -/
theorem isFinite_not_nan {x : F64} (h : isFinite x = true) : isNaN x = false := by
  simp only [isFinite, decide_eq_true_eq] at h
  simp only [isNaN, decide_eq_false_iff_not]; omega

theorem isFinite_not_inf {x : F64} (h : isFinite x = true) : isInf x = false := by
  simp only [isFinite, decide_eq_true_eq] at h
  simp only [isInf, beq_eq_false_iff_ne]; omega

/-- The magnitude that rounding gives is at most infinity's. -/
theorem roundUnits_le (n d : Nat) : roundUnits n d ≤ infMag := Nat.min_le_right _ _

/-- A rounded magnitude with a sign is never a NaN. -/
theorem isNaN_mkF64 {s : Bool} {m : Nat} (h : m ≤ infMag) : isNaN (mkF64 s m) = false := by
  have : m < 2 ^ 63 := Nat.lt_of_le_of_lt h (by decide)
  simp only [isNaN, fmag_mkF64 this, decide_eq_false_iff_not]; omega

@[simp] theorem isNaN_fOfNat (n : Nat) : isNaN (fOfNat n) = false := isNaN_mkF64 (roundUnits_le _ _)

/-! ## NaN operands (R11, R15) -/

@[simp] theorem fadd_nan_left {x y : F64} (h : isNaN x = true) : fadd x y = qNaN := by simp [fadd, h]
@[simp] theorem fadd_nan_right {x y : F64} (h : isNaN y = true) : fadd x y = qNaN := by simp [fadd, h]
@[simp] theorem fsub_nan_left {x y : F64} (h : isNaN x = true) : fsub x y = qNaN := by simp [fsub, h]
@[simp] theorem fsub_nan_right {x y : F64} (h : isNaN y = true) : fsub x y = qNaN := by simp [fsub, h]
@[simp] theorem fmul_nan_left {x y : F64} (h : isNaN x = true) : fmul x y = qNaN := by simp [fmul, h]
@[simp] theorem fmul_nan_right {x y : F64} (h : isNaN y = true) : fmul x y = qNaN := by simp [fmul, h]
@[simp] theorem fdiv_nan_left {x y : F64} (h : isNaN x = true) : fdiv x y = qNaN := by simp [fdiv, h]
@[simp] theorem fdiv_nan_right {x y : F64} (h : isNaN y = true) : fdiv x y = qNaN := by simp [fdiv, h]
@[simp] theorem fsqrt_nan {x : F64} (h : isNaN x = true) : fsqrt x = qNaN := by simp [fsqrt, h]
@[simp] theorem flt_nan_left {x y : F64} (h : isNaN x = true) : flt x y = false := by simp [flt, h]
@[simp] theorem flt_nan_right {x y : F64} (h : isNaN y = true) : flt x y = false := by simp [flt, h]
@[simp] theorem fle_nan_left {x y : F64} (h : isNaN x = true) : fle x y = false := by simp [fle, h]
@[simp] theorem fle_nan_right {x y : F64} (h : isNaN y = true) : fle x y = false := by simp [fle, h]

/-! ## Zeros -/

@[simp] theorem units_of_zero {x : F64} (h : isZero x = true) : units x = 0 := by
  simp only [isZero, beq_iff_eq] at h; simp [units, h]

@[simp] theorem sunits_of_zero {x : F64} (h : isZero x = true) : sunits x = 0 := by
  simp [sunits, h]

theorem roundUnits_zero (d : Nat) : roundUnits 0 d = 0 := by
  simp [roundUnits, bitLen, roundEven, infMag]

/-- The sum of two zeros is a zero. -/
theorem fadd_zero_zero {x y : F64} (hx : isZero x = true) (hy : isZero y = true) :
    isZero (fadd x y) = true := by
  simp [fadd, isZero_not_nan hx, isZero_not_nan hy, isZero_not_inf hx, isZero_not_inf hy,
    sunits_of_zero hx, sunits_of_zero hy, fOfSUnits]

theorem fsub_zero_zero {x y : F64} (hx : isZero x = true) (hy : isZero y = true) :
    isZero (fsub x y) = true := fadd_zero_zero hx (by simpa using hy)

/-- A finite value times a zero is a zero. -/
theorem fmul_finite_zero {x y : F64} (hx : isFinite x = true) (hy : isZero y = true) :
    isZero (fmul x y) = true := by
  simp [fmul, isFinite_not_nan hx, isFinite_not_inf hx, isZero_not_nan hy, isZero_not_inf hy,
    units_of_zero hy, roundUnits_zero, isZero, fmag_mkF64]

/-! ## Comparisons of values that are no NaNs (R12) -/

theorem flt_false_iff {a b : F64} (ha : isNaN a = false) (hb : isNaN b = false) : flt a b = false ↔ fle b a = true := by
  simp [flt, fle, ha, hb]

theorem flt_iff {a b : F64} (ha : isNaN a = false) (hb : isNaN b = false) : flt a b = true ↔ fkey a < fkey b := by
  simp [flt, ha, hb]

theorem fle_iff {a b : F64} (ha : isNaN a = false) (hb : isNaN b = false) : fle a b = true ↔ fkey a ≤ fkey b := by
  simp [fle, ha, hb]

theorem fle_trans {a b c : F64} (h1 : fle a b = true) (h2 : fle b c = true) : fle a c = true := by
  simp [fle] at *
  refine ⟨⟨h1.1.1, h2.1.2⟩, by omega⟩

/-! ## Order of magnitudes, nonzero values and infinities -/

/-- The number of units of a magnitude encoding. -/
def unitsOfMag (m : Nat) : Nat := if m / 2^52 = 0 then m % 2^52 else (2^52 + m % 2^52) <<< (m / 2^52 - 1)

theorem units_eq_unitsOfMag (x : F64) : units x = unitsOfMag (fmag x) := rfl

/-- A larger magnitude encoding is a larger number. -/
theorem unitsOfMag_lt {m n : Nat} (h : m < n) : unitsOfMag m < unitsOfMag n := by
  unfold unitsOfMag
  simp only [Nat.shiftLeft_eq]
  have h1 := Nat.div_add_mod m (2^52)
  have h2 := Nat.div_add_mod n (2^52)
  have h3 := Nat.mod_lt m (show 0 < 2^52 by decide)
  have h4 := Nat.mod_lt n (show 0 < 2^52 by decide)
  generalize m / 2^52 = e1 at *
  generalize m % 2^52 = f1 at *
  generalize n / 2^52 = e2 at *
  generalize n % 2^52 = f2 at *
  have hp : ∀ k, 0 < 2^k := fun k => Nat.two_pow_pos k
  by_cases he : e1 = e2
  · subst he
    by_cases h0 : e1 = 0
    · simp [h0]; omega
    · simp only [h0, if_false]
      exact Nat.mul_lt_mul_of_pos_right (by omega) (hp _)
  · have hlt : e1 < e2 := by omega
    have h20 : e2 ≠ 0 := by omega
    simp only [h20, if_false]
    by_cases h0 : e1 = 0
    · simp only [h0, if_true]
      calc f1 < 2^52 := h3
        _ ≤ (2^52 + f2) * 1 := by omega
        _ ≤ (2^52+f2) * 2^(e2-1) := Nat.mul_le_mul_left _ (hp _)
    · simp only [h0, if_false]
      have : e2 - 1 = (e1 - 1 + 1) + (e2 - 1 - e1) := by omega
      calc (2^52+f1) * 2^(e1-1) < (2^52 * 2) * 2^(e1-1) := Nat.mul_lt_mul_of_pos_right (by omega) (hp _)
        _ = 2^52 * 2^(e1 - 1 + 1) := by rw [Nat.mul_assoc]; congr 1; rw [Nat.pow_succ, Nat.mul_comm]
        _ ≤ 2^52 * 2^(e2-1) := Nat.mul_le_mul_left _ (Nat.pow_le_pow_right (by decide) (by omega))
        _ ≤ (2^52+f2) * 2^(e2-1) := Nat.mul_le_mul_right _ (by omega)

theorem oneUnits_pos : 0 < oneUnits := by decide +kernel

/-- A positive integer is not rounded to zero. -/
theorem fOfNat_ne_zero {n : Nat} (h : 1 ≤ n) : isZero (fOfNat n) = false := by
  have : 1 ≤ roundUnits (n * oneUnits) 1 := by
    unfold roundUnits
    simp only [Nat.div_one, Nat.one_shiftLeft, infMag]
    have hb : oneUnits ≤ n * oneUnits := Nat.le_mul_of_pos_left _ h
    have hpos : n * oneUnits ≠ 0 := by
      have : 0 < oneUnits := oneUnits_pos
      omega
    generalize n * oneUnits = m at *
    by_cases hd : bitLen m - 53 = 0
    · rw [hd]
      simp only [Nat.pow_zero, Nat.div_one, Nat.zero_mul, Nat.zero_add]
      have : m ≤ roundEven m (decide (1 < 2 * (m % 1))) (2 * (m % 1) == 1) := by unfold roundEven; split <;> omega
      omega
    · have : 1 ≤ bitLen m - 53 := by omega
      have : 2^52 ≤ (bitLen m - 53) * 2^52 := Nat.le_mul_of_pos_left _ this
      omega
  have hle := roundUnits_le (n * oneUnits) 1
  have hlt : roundUnits (n * oneUnits) 1 < 2^63 := Nat.lt_of_le_of_lt hle (by decide)
  unfold isZero fOfNat
  rw [fmag_mkF64 hlt]
  simp; omega

/-- A zero over a value that is neither a zero nor a NaN is a zero. -/
theorem fdiv_zero_of_nonzero {x y : F64} (hx : isZero x = true) (hy : isNaN y = false) (hy2 : isZero y = false) : isZero (fdiv x y) = true := by
  unfold fdiv
  simp only [isZero_not_nan hx, hy, isZero_not_inf hx, hy2]
  by_cases h : isInf y = true
  · simp [h]
  · simp [h, units_of_zero hx, roundUnits_zero, isZero, fmag_mkF64]

theorem fmag_of_finite {x : F64} (hx : isFinite x = true) : fmag x < infMag := by simpa [isFinite] using hx

theorem isFinite_fneg {x : F64} (hx : isFinite x = true) : isFinite (fneg x) = true := by simpa [isFinite] using hx

/-- Adding a finite value leaves an infinity as it is. -/
theorem fadd_inf_finite {i x : F64} (hi : isInf i = true) (hn : isNaN i = false) (hx : isFinite x = true) : fadd i x = i ∧ fadd x i = i := by
  unfold fadd
  simp [hi, hn, isFinite_not_nan hx, isFinite_not_inf hx]

theorem fsub_inf_finite {i x : F64} (hi : isInf i = true) (hn : isNaN i = false) (hx : isFinite x = true) : fsub i x = i :=
  (fadd_inf_finite hi hn (isFinite_fneg hx)).1

/-! ## Draws (R15) -/

theorem nanOfDraw_isNaN (b : BitVec 53) : isNaN (nanOfDraw b) = true := by
  unfold nanOfDraw isNaN
  split
  · rw [fmag_mkF64 (by decide)]; simp
  · rename_i h
    rw [fmag_mkF64 (by unfold infMag; omega)]
    simp only [decide_eq_true_eq]; omega

/-- A draw changes only the pattern of a NaN. -/
@[simp] theorem isNaN_drawNaN (d : Nat) (x : F64) : isNaN (drawNaN d x) = isNaN x := by
  unfold drawNaN
  split
  · rename_i h; rw [nanOfDraw_isNaN, h]
  · rfl

theorem drawNaN_of_not_nan {d : Nat} {x : F64} (h : isNaN x = false) : drawNaN d x = x := by
  simp [drawNaN, h]

@[simp] theorem drawNaNs_length (d : Nat) (xs : List F64) : (drawNaNs d xs).length = xs.length := by
  induction xs generalizing d with
  | nil => rfl
  | cons x xs ih => simp [drawNaNs, ih]

/-- The j-th of a list of draws. -/
theorem drawNaNs_getElem (d : Nat) (xs : List F64) (j : Nat) (hj : j < (drawNaNs d xs).length) :
    (drawNaNs d xs)[j] = drawNaN (d + j) (xs[j]'(by simpa using hj)) := by
  induction xs generalizing d j with
  | nil => simp at hj
  | cons x xs ih =>
    cases j with
    | zero => rfl
    | succ j => simp only [drawNaNs, List.getElem_cons_succ]; rw [ih]; congr 1; omega

end Sys2Proof.Machine
end

