-- ==== Sys2Proof/Laws/MovMax.lean ====
section
/-! SUPPORT. The sliding-window maximum (`44_movmax.md` rules R106 to R108): the candidates of a window,
and what pushing a sample does to a window that keeps its shape. -/

namespace Sys2Proof.Machine

/-! ## The candidates of a window -/

theorem mem_of_mem_candidates {l : List F64} {v : F64} (h : v ∈ candidates l) : v ∈ l := by
  induction l with
  | nil => exact h
  | cons x xs ih =>
    unfold candidates at h
    split at h
    · rcases List.mem_cons.mp h with rfl | h
      · simp
      · exact List.mem_cons_of_mem _ (ih h)
    · exact List.mem_cons_of_mem _ (ih h)

theorem candidates_pairwise (l : List F64) : (candidates l).Pairwise (fun a b => flt a b = false) := by
  induction l with
  | nil => exact .nil
  | cons x xs ih =>
    unfold candidates
    split
    · rename_i h
      refine .cons ?_ ih
      intro v hv
      have := List.all_eq_true.mp h v (mem_of_mem_candidates hv)
      simpa using this
    · exact ih

theorem candidates_push (l : List F64) (x : F64) :
    candidates (l ++ [x]) = (candidates l).filter (fun b => !flt b x) ++ [x] := by
  induction l with
  | nil => simp [candidates]
  | cons y ys ih =>
    simp only [List.cons_append, candidates, List.all_append, List.all_cons, List.all_nil, Bool.and_true]
    by_cases h1 : (ys.all fun v => !flt y v) = true
    · by_cases h2 : flt y x = true
      · simp [h1, h2, ih]
      · simp [h1, h2, ih]
    · simp [h1, ih]

theorem dropWhile_all (p : F64 → Bool) (l : List F64) (h : ∀ v ∈ l, p v = true) : l.dropWhile p = [] := by
  induction l with
  | nil => rfl
  | cons a as ih => simp only [List.dropWhile_cons, h a (by simp), if_true]; exact ih (fun v hv => h v (by simp [hv]))

theorem exists_larger {l : List F64} {o : F64} (h : ¬ ((l.all fun v => !flt o v) = true)) : ∃ v, v ∈ l ∧ flt o v = true := by
  induction l with
  | nil => simp at h
  | cons a as ih =>
    by_cases ha : flt o a = true
    · exact ⟨a, by simp, ha⟩
    · simp only [List.all_cons, ha, Bool.not_false, Bool.true_and] at h
      obtain ⟨v, hv, h⟩ := ih (by simpa [ha] using h)
      exact ⟨v, by simp [hv], h⟩

theorem popSmaller_eq_filter (c : List F64) (x : F64) (hx : isNaN x = false) (hc : ∀ v ∈ c, isNaN v = false)
    (h : c.Pairwise (fun a b => flt a b = false)) : popSmaller c x = c.filter (fun b => !flt b x) := by
  induction c with
  | nil => rfl
  | cons a as ih =>
    have ih := ih (fun v hv => hc v (List.mem_cons_of_mem _ hv)) (List.pairwise_cons.mp h).2
    have ha := hc a (by simp)
    unfold popSmaller at ih ⊢
    simp only [List.reverse_cons]
    rw [List.dropWhile_append]
    by_cases hax : flt a x = true
    · -- all smaller
      have : ∀ v ∈ as, flt v x = true := by
        intro v hv
        have h1 := (List.pairwise_cons.mp h).1 v hv
        have hvn := hc v (List.mem_cons_of_mem _ hv)
        rw [flt_false_iff ha hvn, fle_iff hvn ha] at h1
        rw [flt_iff ha hx] at hax
        rw [flt_iff hvn hx]; omega
      have e : as.reverse.dropWhile (fun b => flt b x) = [] := by
        exact dropWhile_all _ _ (fun v hv => this v (List.mem_reverse.mp hv))
      have e2 : as.filter (fun b => !flt b x) = [] := by
        rw [List.filter_eq_nil_iff]; intro v hv; simp [this v hv]
      simp [e, hax, e2]
    · have hax : flt a x = false := by simpa using hax
      split
      · rename_i he
        have e : as.reverse.dropWhile (fun b => flt b x) = [] := by simpa using he
        rw [e] at ih
        simp [hax, ← ih]
      · simp only [List.reverse_append, List.reverse_cons, List.reverse_nil, List.nil_append, List.filter_cons, hax, Bool.not_false, if_true]
        rw [ih]; rfl

theorem candidates_ne_nil {l : List F64} (h : l ≠ []) : candidates l ≠ [] := by
  induction l with
  | nil => exact absurd rfl h
  | cons x xs ih =>
    unfold candidates
    split
    · simp
    · rename_i h2
      apply ih
      rintro rfl; simp at h2

theorem candidates_head (l : List F64) (hl : ∀ v ∈ l, isNaN v = false) (hne : l ≠ []) :
    ∃ older newer, l = older ++ (candidates l).headD f0 :: newer ∧ (∀ v ∈ older, flt v ((candidates l).headD f0) = true) ∧
      ∀ v ∈ newer, fle v ((candidates l).headD f0) = true := by
  induction l with
  | nil => exact absurd rfl hne
  | cons x xs ih =>
    have hx := hl x (by simp)
    unfold candidates
    split
    · rename_i h
      refine ⟨[], xs, rfl, by simp, ?_⟩
      intro v hv
      have := List.all_eq_true.mp h v hv
      simp only [List.headD_cons]
      exact (flt_false_iff hx (hl v (by simp [hv]))).mp (by simpa using this)
    · rename_i h
      have hne' : xs ≠ [] := by rintro rfl; simp at h
      obtain ⟨o, n, e, h1, h2⟩ := ih (fun v hv => hl v (by simp [hv])) hne'
      refine ⟨x :: o, n, by rw [List.cons_append, ← e], ?_, h2⟩
      intro v hv
      rcases List.mem_cons.mp hv with rfl | hv
      · obtain ⟨w, hw, h⟩ := exists_larger h
        have hwn := hl w (by simp [hw])
        have hcm : (candidates xs).headD f0 ∈ xs := by
          apply mem_of_mem_candidates
          cases hc : candidates xs with
          | nil => exact absurd hc (candidates_ne_nil hne')
          | cons a as => simp
        have hcn := hl _ (List.mem_cons_of_mem v hcm)
        rw [flt_iff hx hwn] at h
        rw [flt_iff hx hcn]
        have : fle w ((candidates xs).headD f0) = true := by
          generalize (candidates xs).headD f0 = c at *
          rw [e] at hw
          rcases List.mem_append.mp hw with hw | hw
          · have := h1 w hw; rw [flt_iff hwn hcn] at this; rw [fle_iff hwn hcn]; omega
          · rcases List.mem_cons.mp hw with rfl | hw
            · exact (fle_iff hwn hwn).mpr (Int.le_refl _)
            · exact h2 w hw
        rw [fle_iff hwn hcn] at this; omega
      · exact h1 v hv

/-! ## Pushing a sample -/

/-- `m` is the MovMax state of the samples `xs` since MMX_INIT. -/
structure MovMax.Holds (w : Dword) (xs : List F64) (m : MovMax) : Prop where
  len : m.w = w
  win : m.win = xs.drop (xs.length - w.toNat)
  cand : m.cand = candidates m.win

theorem mmxPush_holds {w : Dword} {xs : List F64} {m : MovMax} {x : F64} (hw : 1 ≤ w.toNat) (h : MovMax.Holds w xs m) (hxs : ∀ v ∈ xs, isNaN v = false) (hx : isNaN x = false) :
    MovMax.Holds w (xs ++ [x]) (mmxPush m x) := by
  obtain ⟨h1, h2, h3⟩ := h
  have hwin : ∀ v ∈ m.win, isNaN v = false := by
    intro v hv; rw [h2] at hv; exact hxs v (List.mem_of_mem_drop hv)
  have hcn : ∀ v ∈ m.cand, isNaN v = false := by
    intro v hv; rw [h3] at hv; exact hwin v (mem_of_mem_candidates hv)
  have hcand : popSmaller m.cand x ++ [x] = candidates (m.win ++ [x]) := by
    rw [candidates_push, popSmaller_eq_filter _ _ hx hcn (by rw [h3]; exact candidates_pairwise _), h3]
  have hlen : m.win.length = min xs.length w.toNat := by rw [h2]; simp; omega
  unfold mmxPush
  simp only
  split
  · rename_i hgt
    rw [h1] at hgt
    simp at hgt
    have hl : m.win.length = w.toNat := by omega
    have hxl : w.toNat ≤ xs.length := by omega
    -- the window is full
    cases hwl : m.win with
    | nil => rw [hwl] at hl; simp at hl; omega
    | cons o win' =>
      rw [hcand, hwl]
      have hon := hwin o (by rw [hwl]; simp)
      simp only [mmxEvict, List.cons_append]
      have hdrop : win' ++ [x] = (xs ++ [x]).drop ((xs ++ [x]).length - w.toNat) := by
        have : (xs ++ [x]).length - w.toNat = (xs.length - w.toNat) + 1 := by simp; omega
        rw [this, ← List.drop_drop, List.drop_append_of_le_length (by omega)]
        rw [← h2, hwl]; simp
      -- candidates
      have hall : ∀ v ∈ win' ++ [x], isNaN v = false := by
        intro v hv
        rcases List.mem_append.mp hv with hv | hv
        · exact hwin v (by rw [hwl]; simp [hv])
        · simp at hv; rw [hv]; exact hx
      by_cases hk : ((win' ++ [x]).all fun v => !flt o v) = true
      · have : candidates (o :: (win' ++ [x])) = o :: candidates (win' ++ [x]) := by simp only [candidates]; rw [if_pos hk]
        rw [this]
        have hoo : feq o o = true := by simp [feq, hon]
        simp only [hoo, if_true]
        exact ⟨h1, hdrop, rfl⟩
      · have : candidates (o :: (win' ++ [x])) = candidates (win' ++ [x]) := by simp only [candidates]; rw [if_neg hk]
        rw [this]
        obtain ⟨old, new, e, hold, hnew⟩ := candidates_head (win' ++ [x]) hall (by simp)
        cases hc : candidates (win' ++ [x]) with
        | nil => exact absurd hc (candidates_ne_nil (by simp))
        | cons c cs =>
          rw [hc] at e hold hnew
          simp only [List.headD_cons] at e hold hnew
          have hcn : isNaN c = false := hall c (by rw [e]; simp)
          have hne : feq o c = false := by
            obtain ⟨v, hv, hk⟩ := exists_larger hk
            have hvn := hall v hv
            rw [flt_iff hon hvn] at hk
            have : fkey v ≤ fkey c := by
              rw [e] at hv
              rcases List.mem_append.mp hv with hv | hv
              · have := hold v hv; rw [flt_iff hvn hcn] at this; omega
              · rcases List.mem_cons.mp hv with rfl | hv
                · omega
                · have := hnew v hv; rwa [fle_iff hvn hcn] at this
            simp [feq, hon, hcn]; omega
          simp only [hne]
          exact ⟨h1, hdrop, hc.symm⟩
  · rename_i hle
    rw [h1] at hle
    simp at hle
    refine ⟨h1, ?_, hcand⟩
    have : xs.length < w.toNat := by omega
    simp only
    rw [h2]
    have e1 : xs.length - w.toNat = 0 := by omega
    have e2 : (xs ++ [x]).length - w.toNat = 0 := by simp; omega
    rw [e1, e2]; simp

theorem mmxPush_inv {m : MovMax} {x : F64} (h : m.Inv) (hx : isNaN x = false) : (mmxPush m x).Inv ∧ (mmxPush m x).w = m.w := by
  obtain ⟨h1, h2, h3, h4, h5⟩ := h
  have := mmxPush_holds (xs := m.win) (x := x) h1 ⟨rfl, by rw [show m.win.length - m.w.toNat = 0 by omega]; rfl, h5⟩ h4 hx
  obtain ⟨a, b, c⟩ := this
  refine ⟨⟨by rw [a]; exact h1, by rw [a]; exact h2, ?_, ?_, c⟩, a⟩
  · rw [a, b]; simp; omega
  · intro v hv; rw [b] at hv
    have := List.mem_of_mem_drop hv
    rcases List.mem_append.mp this with hv | hv
    · exact h4 v hv
    · simp at hv; rw [hv]; exact hx

theorem MovMax.empty_inv {w : Dword} (h1 : 1 ≤ w.toNat) (h2 : w.toNat ≤ Config.winMax) : (MovMax.empty w).Inv :=
  ⟨h1, h2, Nat.zero_le _, ⟨(fun x hx => by cases hx), rfl⟩⟩

end Sys2Proof.Machine
end

