-- ==== Sys2Proof/Laws/State.lean ====
section
/-! SUPPORT. What each named update of the state does to each field. -/

namespace Sys2Proof.Machine

/-! ## `emit`: only the result port changes -/

@[simp] theorem State.emit_err (s : State) (rs : List Dword) : (s.emit rs).err = s.err := rfl
@[simp] theorem State.emit_errInfo (s : State) (rs : List Dword) : (s.emit rs).errInfo = s.errInfo := rfl
@[simp] theorem State.emit_cfg (s : State) (rs : List Dword) : (s.emit rs).cfg = s.cfg := rfl
@[simp] theorem State.emit_bq (s : State) (rs : List Dword) : (s.emit rs).bq = s.bq := rfl
@[simp] theorem State.emit_fir (s : State) (rs : List Dword) : (s.emit rs).fir = s.fir := rfl
@[simp] theorem State.emit_lag (s : State) (rs : List Dword) : (s.emit rs).lag = s.lag := rfl
@[simp] theorem State.emit_mmx (s : State) (rs : List Dword) : (s.emit rs).mmx = s.mmx := rfl
@[simp] theorem State.emit_mrms (s : State) (rs : List Dword) : (s.emit rs).mrms = s.mrms := rfl
@[simp] theorem State.emit_fd (s : State) (rs : List Dword) : (s.emit rs).fd = s.fd := rfl
@[simp] theorem State.emit_lu (s : State) (rs : List Dword) : (s.emit rs).lu = s.lu := rfl
@[simp] theorem State.emit_tp (s : State) (rs : List Dword) : (s.emit rs).tp = s.tp := rfl
@[simp] theorem State.emit_cp (s : State) (rs : List Dword) : (s.emit rs).cp = s.cp := rfl
@[simp] theorem State.emit_port (s : State) (rs : List Dword) : (s.emit rs).port = s.port := rfl
@[simp] theorem State.emit_results (s : State) (rs : List Dword) :
    (s.emit rs).results = s.results ++ rs := rfl
@[simp] theorem State.emit_draws (s : State) (rs : List Dword) : (s.emit rs).draws = s.draws := rfl

@[simp] theorem State.emit_nil (s : State) : s.emit [] = s := by simp [State.emit]

@[simp] theorem State.emit_emit (s : State) (as bs : List Dword) :
    (s.emit as).emit bs = s.emit (as ++ bs) := by simp [State.emit]

/-! ## `latch`: only ERR and ERR_INFO change, and only when no error is latched -/

theorem State.latch_of_clear {s : State} (h : s.err = 0#8) (r : Raise) (w : Word) :
    s.latch r w = { s with err := r.error.code, errInfo := errInfoWord r.chan r.stream w } := by
  simp [State.latch, h]

theorem State.latch_of_latched {s : State} (h : s.err ≠ 0#8) (r : Raise) (w : Word) :
    s.latch r w = s := by simp [State.latch, h]

@[simp] theorem State.latch_err (s : State) (r : Raise) (w : Word) :
    (s.latch r w).err = if s.err = 0#8 then r.error.code else s.err := by
  unfold State.latch; split <;> rfl
@[simp] theorem State.latch_errInfo (s : State) (r : Raise) (w : Word) :
    (s.latch r w).errInfo = if s.err = 0#8 then errInfoWord r.chan r.stream w else s.errInfo := by
  unfold State.latch; split <;> rfl
@[simp] theorem State.latch_cfg (s : State) (r : Raise) (w : Word) :
    (s.latch r w).cfg = s.cfg := by unfold State.latch; split <;> rfl
@[simp] theorem State.latch_bq (s : State) (r : Raise) (w : Word) :
    (s.latch r w).bq = s.bq := by unfold State.latch; split <;> rfl
@[simp] theorem State.latch_fir (s : State) (r : Raise) (w : Word) :
    (s.latch r w).fir = s.fir := by unfold State.latch; split <;> rfl
@[simp] theorem State.latch_lag (s : State) (r : Raise) (w : Word) :
    (s.latch r w).lag = s.lag := by unfold State.latch; split <;> rfl
@[simp] theorem State.latch_mmx (s : State) (r : Raise) (w : Word) :
    (s.latch r w).mmx = s.mmx := by unfold State.latch; split <;> rfl
@[simp] theorem State.latch_mrms (s : State) (r : Raise) (w : Word) :
    (s.latch r w).mrms = s.mrms := by unfold State.latch; split <;> rfl
@[simp] theorem State.latch_fd (s : State) (r : Raise) (w : Word) :
    (s.latch r w).fd = s.fd := by unfold State.latch; split <;> rfl
@[simp] theorem State.latch_lu (s : State) (r : Raise) (w : Word) :
    (s.latch r w).lu = s.lu := by unfold State.latch; split <;> rfl
@[simp] theorem State.latch_tp (s : State) (r : Raise) (w : Word) :
    (s.latch r w).tp = s.tp := by unfold State.latch; split <;> rfl
@[simp] theorem State.latch_cp (s : State) (r : Raise) (w : Word) :
    (s.latch r w).cp = s.cp := by unfold State.latch; split <;> rfl
@[simp] theorem State.latch_port (s : State) (r : Raise) (w : Word) :
    (s.latch r w).port = s.port := by unfold State.latch; split <;> rfl
@[simp] theorem State.latch_results (s : State) (r : Raise) (w : Word) :
    (s.latch r w).results = s.results := by unfold State.latch; split <;> rfl
@[simp] theorem State.latch_draws (s : State) (r : Raise) (w : Word) :
    (s.latch r w).draws = s.draws := by unfold State.latch; split <;> rfl

/-! ## `resetItems`: every item but the ports and the draw counter is the reset value -/

@[simp] theorem State.resetItems_err (s : State) : s.resetItems.err = State.reset.err := rfl
@[simp] theorem State.resetItems_errInfo (s : State) : s.resetItems.errInfo = State.reset.errInfo := rfl
@[simp] theorem State.resetItems_cfg (s : State) : s.resetItems.cfg = State.reset.cfg := rfl
@[simp] theorem State.resetItems_bq (s : State) : s.resetItems.bq = State.reset.bq := rfl
@[simp] theorem State.resetItems_fir (s : State) : s.resetItems.fir = State.reset.fir := rfl
@[simp] theorem State.resetItems_lag (s : State) : s.resetItems.lag = State.reset.lag := rfl
@[simp] theorem State.resetItems_mmx (s : State) : s.resetItems.mmx = State.reset.mmx := rfl
@[simp] theorem State.resetItems_mrms (s : State) : s.resetItems.mrms = State.reset.mrms := rfl
@[simp] theorem State.resetItems_fd (s : State) : s.resetItems.fd = State.reset.fd := rfl
@[simp] theorem State.resetItems_lu (s : State) : s.resetItems.lu = State.reset.lu := rfl
@[simp] theorem State.resetItems_tp (s : State) : s.resetItems.tp = State.reset.tp := rfl
@[simp] theorem State.resetItems_cp (s : State) : s.resetItems.cp = State.reset.cp := rfl
@[simp] theorem State.resetItems_port (s : State) : s.resetItems.port = s.port := rfl
@[simp] theorem State.resetItems_results (s : State) : s.resetItems.results = s.results := rfl
@[simp] theorem State.resetItems_draws (s : State) : s.resetItems.draws = s.draws := rfl

end Sys2Proof.Machine
end

