-- ==== Sys2Proof/Laws/Ops.lean ====
section
/-! SUPPORT. What the shared operations can do, said once: the helpers of `40_control.md` rule R84, the
step template of R83, the memory primitives of `20_memory.md` rule R66, and instance access (R73). -/

namespace Sys2Proof.Machine

/-! ## Binding an `Effect` -/

@[simp] theorem ok_bind {ε α β : Type} (a : α) (f : α → Except ε β) : (Except.ok a >>= f) = f a := rfl

@[simp] theorem error_bind {ε α β : Type} (e : ε) (f : α → Except ε β) :
    ((Except.error e : Except ε α) >>= f) = .error e := rfl

theorem bind_eq_ok {ε α β : Type} {x : Except ε α} {f : α → Except ε β} {b : β} :
    (x >>= f) = .ok b ↔ ∃ a, x = .ok a ∧ f a = .ok b := by
  cases x <;> simp

/-! ## Checks -/

@[simp] theorem need_true (e : ErrCode) : need true e = .ok () := rfl
@[simp] theorem need_false (e : ErrCode) : need false e = .error (raiseOf e) := rfl

theorem need_eq_ok {c : Bool} {e : ErrCode} {u : Unit} : need c e = .ok u ↔ c = true := by
  cases c <;> simp [need]

@[simp] theorem needReady_true : needReady true = .ok () := rfl
@[simp] theorem needReady_false : needReady false = .error (raiseOf .notReady) := rfl

theorem needReady_eq_ok {r : Bool} {u : Unit} : needReady r = .ok u ↔ r = true := need_eq_ok

theorem needIndex_of_lt {i n : Nat} (h : i < n) : needIndex i n = .ok () := by
  simp [needIndex, h]

theorem needIndex_of_ge {i n : Nat} (h : n ≤ i) :
    needIndex i n = .error (raiseOf .illegalIndex) := by
  simp [needIndex, Nat.not_lt.mpr h]

theorem needIndex_eq_ok {i n : Nat} {u : Unit} : needIndex i n = .ok u ↔ i < n := by
  simp [needIndex, need_eq_ok]

theorem needFs_of_ok {lo : Nat} {s : State} (h1 : lo ≤ s.cfg.fs.toNat)
    (h2 : s.cfg.fs.toNat ≤ Config.fsMax) : needFs lo s = .ok s.cfg.fs := by
  simp [needFs, h1, h2]

theorem needFs_eq_ok {lo : Nat} {s : State} {fs : Word} :
    needFs lo s = .ok fs ↔ fs = s.cfg.fs ∧ lo ≤ fs.toNat ∧ fs.toNat ≤ Config.fsMax := by
  unfold needFs
  split
  · rename_i h
    constructor
    · intro e; cases e; exact ⟨rfl, h⟩
    · rintro ⟨rfl, -⟩; rfl
  · rename_i h
    constructor
    · intro e; cases e
    · rintro ⟨rfl, h'⟩; exact absurd h' h

theorem needChannels_of_ok {s : State} (h1 : 1 ≤ s.cfg.channels.toNat)
    (h2 : s.cfg.channels.toNat ≤ Config.cMax) : needChannels s = .ok s.cfg.channels := by
  simp [needChannels, h1, h2]

theorem needChannels_eq_ok {s : State} {c : Byte} :
    needChannels s = .ok c ↔ c = s.cfg.channels ∧ 1 ≤ c.toNat ∧ c.toNat ≤ Config.cMax := by
  unfold needChannels
  split
  · rename_i h
    constructor
    · intro e; cases e; exact ⟨rfl, h⟩
    · rintro ⟨rfl, -⟩; rfl
  · rename_i h
    constructor
    · intro e; cases e
    · rintro ⟨rfl, h'⟩; exact absurd h' h

/-! ## Instances (R73) -/

theorem instAt_of_lt {α : Type} {n : Nat} {file : Vector α n} {idx : Byte} (h : idx.toNat < n) :
    instAt file idx = .ok file[idx.toNat] := by simp [instAt, h]

theorem instAt_of_ge {α : Type} {n : Nat} {file : Vector α n} {idx : Byte} (h : n ≤ idx.toNat) :
    instAt file idx = .error (raiseOf .illegalIndex) := by simp [instAt, Nat.not_lt.mpr h]

theorem instAt_eq_ok {α : Type} {n : Nat} {file : Vector α n} {idx : Byte} {q : α} :
    instAt file idx = .ok q ↔ ∃ h : idx.toNat < n, file[idx.toNat] = q := by
  unfold instAt
  split
  · rename_i h; simp [h]
  · rename_i h; simp [h]

/-- What an instance read gives is in the register file. -/
theorem instAt_mem {α : Type} {n : Nat} {file : Vector α n} {idx : Byte} {q : α}
    (h : instAt file idx = .ok q) : q ∈ file := by
  obtain ⟨hlt, rfl⟩ := instAt_eq_ok.mp h
  exact Vector.getElem_mem hlt

theorem putInst_get {α : Type} {n : Nat} {file : Vector α n} {idx : Byte} {q : α}
    (h : idx.toNat < n) : (putInst file idx q)[idx.toNat] = q := by
  simp [putInst]

theorem putInst_get_ne {α : Type} {n : Nat} {file : Vector α n} {idx : Byte} {q : α} {k : Nat}
    (hk : k < n) (hne : k ≠ idx.toNat) : (putInst file idx q)[k] = file[k] := by
  simp [putInst, Ne.symm hne]

/-- A property of every instance survives replacing one by another that has it. -/
theorem putInst_all {α : Type} {n : Nat} {file : Vector α n} {idx : Byte} {q : α} {P : α → Prop}
    (h : ∀ a ∈ file, P a) (hq : P q) : ∀ a ∈ putInst file idx q, P a := by
  intro a ha
  obtain ⟨k, hk, rfl⟩ := Vector.getElem_of_mem ha
  by_cases e : k = idx.toNat
  · subst e; rw [putInst_get hk]; exact hq
  · rw [putInst_get_ne hk e]; exact h _ (Vector.getElem_mem hk)

/-! ## The step template (R83) -/

/-- No error latched and the body completes: its state, with its results emitted. -/
theorem runCommand_ok {i : Instr} {body : State → Effect} {s t : State} {rs : List Dword}
    (h0 : s.err = 0#8) (hb : body s = .ok (t, rs)) : runCommand i body s = t.emit rs := by
  simp [runCommand, runWord, h0, hb]

/-- No error latched and the body raises: the error is latched and POISON emitted (R166). -/
theorem runCommand_raise {i : Instr} {body : State → Effect} {s : State} {r : Raise}
    (h0 : s.err = 0#8) (hb : body s = .error r) :
    runCommand i body s =
      { s with
        err := r.error.code, errInfo := errInfoWord r.chan r.stream (encodeWord i)
        results := s.results ++ List.replicate (nres i.opcode s) poison } := by
  simp [runCommand, runWord, h0, hb, State.latch, State.emit, nresOf]

/-- An error latched: every command but NOP, RESET and CSR_READ is discarded (R167). -/
theorem runCommand_discard {i : Instr} {body : State → Effect} {s : State}
    (h0 : s.err ≠ 0#8) (hi : runsWhileLatched (some i.opcode) = false) :
    runCommand i body s = s.emit (List.replicate (nres i.opcode s) poison) := by
  simp [runCommand, runWord, h0, hi, nresOf]

/-- Everything `runWord` can do: discard, complete, or take the error. -/
theorem runWord_cases (o : Option Opcode) (cmd : Word) (body : State → Effect) (s : State) :
    (s.err ≠ 0#8 ∧ runsWhileLatched o = false ∧
      runWord o cmd body s = s.emit (List.replicate (nresOf o s) poison)) ∨
    ((s.err = 0#8 ∨ runsWhileLatched o = true) ∧ ∃ t rs, body s = .ok (t, rs) ∧
      runWord o cmd body s = t.emit rs) ∨
    ((s.err = 0#8 ∨ runsWhileLatched o = true) ∧ ∃ r, body s = .error r ∧
      runWord o cmd body s = (s.latch r cmd).emit (List.replicate (nresOf o s) poison)) := by
  unfold runWord
  split
  · rename_i h; exact .inl ⟨h.1, h.2, rfl⟩
  · rename_i h
    have h' : s.err = 0#8 ∨ runsWhileLatched o = true := by
      by_cases he : s.err = 0#8
      · exact .inl he
      · exact .inr (by simpa [he] using h)
    split
    · rename_i t rs hb; exact .inr (.inl ⟨h', t, rs, hb, rfl⟩)
    · rename_i r hb; exact .inr (.inr ⟨h', r, hb, rfl⟩)

/-! ## Memory primitives (R66) -/

theorem memRead_eq_ok {a : Half} {s : State} {v : Dword} :
    memRead a s = .ok v ↔ ∃ r, csrAt a = some r ∧ v = csrValue r s := by
  unfold memRead
  split
  · rename_i h; simp [h]
  · rename_i r h; simp [h, eq_comm]

theorem memWrite_eq_ok {a : Half} {v : Dword} {s t : State} :
    memWrite a v s = .ok t ↔
      ∃ r cfg, csrAt a = some r ∧ s.cfg.write r v = some cfg ∧ t = { s with cfg := cfg } := by
  unfold memWrite
  split
  · rename_i h; simp [h]
  · rename_i r h
    split
    · rename_i h'; simp [h, h']
    · rename_i cfg h'; simp [h, h', eq_comm]

end Sys2Proof.Machine
end

