-- ==== Sys2Proof/Laws/Compressor.lean ====
section
/-! SUPPORT. The compressor's shared operations keep its shape (`49_compressor.md` rules R151 to R156). -/

namespace Sys2Proof.Machine

/-- What the lengths of a valid configuration satisfy (R151, R152). -/
theorem cpLengths_some {k c fs l hn w} (h : cpLengths k c fs = some (l, hn, w)) : 1 ≤ l ∧ l ≤ 65536 ∧ w = (l+hn) * c.toNat ∧ w ≤ 1048576 ∧ cpSettingsOk k = true := by
  unfold cpLengths at h
  split at h
  · rename_i l' hn' _ _
    split at h
    · rename_i hc
      simp only [Option.some.injEq, Prod.mk.injEq] at h
      obtain ⟨rfl, rfl, rfl⟩ := h
      simp only [Bool.and_eq_true, decide_eq_true_eq] at hc
      exact ⟨hc.1.1.2, hc.1.2, rfl, hc.2, hc.1.1.1⟩
    · cases h
  · cases h

/-- A MovRms step keeps the ring's length. -/
theorem mrmsNext_inv {d m x} (h : MovRms.Inv m) : (mrmsNext d m x).Inv := by
  obtain ⟨h3, h4, h5⟩ := h
  have hn : (mrmsNext d m x).w = m.w ∧ (mrmsNext d m x).sq = ringPush m.sq (drawNaN d (fmul x x)) := by
    unfold mrmsNext; simp only; split <;> exact ⟨rfl, rfl⟩
  refine ⟨by rw [hn.1]; exact h3, by rw [hn.1]; exact h4, ?_⟩
  rw [hn.1, hn.2]; simp [ringPush]; omega

/-- Feeding a frame keeps the preprocessor's shape. -/
theorem cpFeed_inv {det : Bool} {w : Dword} : ∀ (xs : List F64) (d c : Nat) (pre : CpPre) (pv : F64) (r : CpPre × F64), pre.Inv det w → cpFeed d c pre pv xs = .ok r → r.1.Inv det w
  | [], d, c, pre, pv, r, h, he => by unfold cpFeed at he; cases he; exact h
  | x :: xs, d, c, .peak mm, pv, r, h, he => by
    unfold cpFeed at he
    split at he
    · cases he
    · rename_i hx
      have hx : isNaN (rect x) = false := by simpa using hx
      have hi := mmxPush_inv (x := rect x) h.2.2 hx
      refine cpFeed_inv xs _ _ (.peak (mmxStep mm (rect x)).1) _ _ ?_ he
      exact ⟨h.1, by show (mmxPush mm (rect x)).w = w; rw [hi.2]; exact h.2.1, hi.1⟩
  | x :: xs, d, c, .rms m, pv, r, h, he => by
    unfold cpFeed at he
    refine cpFeed_inv xs _ _ _ _ _ ?_ he
    obtain ⟨h1, h2, h3, h4, h5⟩ := h
    have hn : (mrmsNext d m x).w = m.w ∧ (mrmsNext d m x).sq = ringPush m.sq (drawNaN d (fmul x x)) := by
      unfold mrmsNext; simp only; split <;> exact ⟨rfl, rfl⟩
    refine ⟨h1, by rw [hn.1]; exact h2, by rw [hn.1]; exact h3, by rw [hn.1]; exact h4, ?_⟩
    rw [hn.1, hn.2]; simp [ringPush]; omega

/-- The detector keeps the unit's shape, and its delay FIFO. -/
theorem cpDetect_inv {d : Nat} {u : Compressor} {x : List F64} {r} (h : u.Inv) (hr : u.ready = true) (he : cpDetect d u x = .ok r) : r.1.Inv ∧ r.1.ready = true ∧ r.1.c = u.c ∧ r.1.fifo = u.fifo := by
  unfold cpDetect at he
  simp only [bind_eq_ok] at he
  obtain ⟨p, hp, he⟩ := he
  cases he
  obtain ⟨a1, a2, a3, a4, a5, a6, a7, a8, a9, b1, b2, b3⟩ := h.2 hr
  have := cpFeed_inv x d 0 u.pre f0 p b3 hp
  refine ⟨⟨fun h' => ?_, fun _ => ⟨a1, a2, a3, a4, a5, a6, a7, a8, a9, b1, b2, this⟩⟩, hr, rfl, rfl⟩
  simp only at h'; rw [hr] at h'; cases h'

end Sys2Proof.Machine
end

