-- ==== Sys2Proof/Laws/Decode.lean ====
section
/-! SUPPORT. The byte order and the fields of the command word read back what was written
(`20_memory.md` rule R53, `30_encoding.md` rule R69), and the opcode table has no double entry (R75). -/

namespace Sys2Proof

@[simp] theorem opField_mkWord (op idx : Byte) (imm : Half) : opField (mkWord op idx imm) = op := by
  apply BitVec.eq_of_getLsbD_eq
  intro k hk
  simp only [opField, mkWord, BitVec.getLsbD_extractLsb', BitVec.getLsbD_append]
  simp [hk, show ¬ (24 + k < 16) by omega, show ¬ (24 + k - 16 < 8) by omega,
    show 24 + k - 16 - 8 = k by omega]

@[simp] theorem idxField_mkWord (op idx : Byte) (imm : Half) : idxField (mkWord op idx imm) = idx := by
  apply BitVec.eq_of_getLsbD_eq
  intro k hk
  simp only [idxField, mkWord, BitVec.getLsbD_extractLsb', BitVec.getLsbD_append]
  simp [hk, show ¬ (16 + k < 16) by omega, show 16 + k - 16 = k by omega]

@[simp] theorem immField_mkWord (op idx : Byte) (imm : Half) : immField (mkWord op idx imm) = imm := by
  apply BitVec.eq_of_getLsbD_eq
  intro k hk
  simp only [immField, mkWord, BitVec.getLsbD_extractLsb', BitVec.getLsbD_append]
  simp [hk, show 0 + k = k by omega]

/-- The fields of a word are the whole word. -/
theorem mkWord_fields (w : Word) : mkWord (opField w) (idxField w) (immField w) = w := by
  apply BitVec.eq_of_getLsbD_eq
  intro k hk
  simp only [opField, idxField, immField, mkWord, BitVec.getLsbD_extractLsb', BitVec.getLsbD_append]
  by_cases h1 : k < 16
  · simp [h1]
  · by_cases h2 : k < 24
    · have : k - 16 < 8 := by omega
      simp [h1, this]; congr 1; omega
    · have h3 : ¬ k - 16 < 8 := by omega
      have h4 : k - 16 - 8 < 8 := by omega
      simp [h1, h3, h4]; congr 1; omega

/-- The four bytes of a word make the word again. -/
theorem wordOfBytes_bytes (w : Word) :
    wordOfBytes (w.extractLsb' 0 8) (w.extractLsb' 8 8) (w.extractLsb' 16 8) (w.extractLsb' 24 8) = w := by
  apply BitVec.eq_of_getLsbD_eq
  intro k hk
  simp only [wordOfBytes, BitVec.getLsbD_extractLsb', BitVec.getLsbD_append]
  by_cases h1 : k < 8
  · simp [h1]
  · by_cases h2 : k < 16
    · have h3 : k - 8 < 8 := by omega
      simp [h1, h3]; congr 1; omega
    · have h3 : ¬ k - 8 < 8 := by omega
      by_cases h4 : k < 24
      · have h5 : k - 8 - 8 < 8 := by omega
        simp [h1, h3, h5]; congr 1; omega
      · have h5 : ¬ k - 8 - 8 < 8 := by omega
        have h6 : k - 8 - 8 - 8 < 8 := by omega
        simp [h1, h3, h5, h6]; congr 1; omega

theorem dwordOfWords_words (d : Dword) : dwordOfWords (d.extractLsb' 0 32) (d.extractLsb' 32 32) = d := by
  apply BitVec.eq_of_getLsbD_eq
  intro k hk
  simp only [dwordOfWords, BitVec.getLsbD_extractLsb', BitVec.getLsbD_append]
  by_cases h1 : k < 32
  · simp [h1]
  · have h2 : k - 32 < 32 := by omega
    simp [h1, h2]; congr 1; omega

@[simp] theorem takeWord_bytesOfWord (w : Word) (rest : List Byte) :
    takeWord (bytesOfWord w ++ rest) = some (w, rest) := by
  simp [takeWord, bytesOfWord, wordOfBytes_bytes]

@[simp] theorem takeDword_bytesOfDword (d : Dword) (rest : List Byte) :
    takeDword (bytesOfDword d ++ rest) = some (d, rest) := by
  simp [takeDword, bytesOfDword, dwordOfWords_words]

/-- Reading back the dwords that were written. -/
theorem takeDwords_flatMap (ds : List Dword) (rest : List Byte) :
    takeDwords ds.length (ds.flatMap bytesOfDword ++ rest) = some (ds, rest) := by
  induction ds with
  | nil => rfl
  | cons d ds ih => simp [takeDwords, ih]

/-- The bytes a word was taken from are its bytes. -/
theorem bytes_of_takeWord {bs : List Byte} {w : Word} {rest : List Byte} (h : takeWord bs = some (w, rest)) :
    bs = bytesOfWord w ++ rest := by
  unfold takeWord at h
  split at h
  · rename_i b0 b1 b2 b3 r
    simp only [Option.some.injEq, Prod.mk.injEq] at h
    obtain ⟨rfl, rfl⟩ := h
    have e : ∀ (b0 b1 b2 b3 : Byte), bytesOfWord (wordOfBytes b0 b1 b2 b3) = [b0,b1,b2,b3] := by
      intro b0 b1 b2 b3
      simp only [bytesOfWord, wordOfBytes, List.cons.injEq, and_true]
      refine ⟨?_, ?_, ?_, ?_⟩ <;>
      · apply BitVec.eq_of_getLsbD_eq
        intro k hk
        simp only [BitVec.getLsbD_extractLsb', BitVec.getLsbD_append]
        simp [hk]
        try (simp [show ¬ (16 + k < 8) by omega, show ¬ (24 + k < 8) by omega,
          show ¬ (16 + k - 8 < 8) by omega, show ¬ (24 + k - 8 < 8) by omega,
          show ¬ (24 + k - 8 - 8 < 8) by omega,
          show 16 + k - 8 - 8 = k by omega, show 24 + k - 8 - 8 - 8 = k by omega, hk])
    rw [e]; rfl
  · cases h

/-- The bytes a dword was taken from are its bytes. -/
theorem bytes_of_takeDword {bs : List Byte} {d : Dword} {rest : List Byte} (h : takeDword bs = some (d, rest)) :
    bs = bytesOfDword d ++ rest := by
  unfold takeDword at h
  split at h
  · cases h
  · rename_i lo bs' h1
    split at h
    · cases h
    · rename_i hi r h2
      cases h
      rw [bytes_of_takeWord h1, bytes_of_takeWord h2]
      have : ∀ lo hi : Word, bytesOfDword (dwordOfWords lo hi) = bytesOfWord lo ++ bytesOfWord hi := by
        intro lo hi
        unfold bytesOfDword dwordOfWords
        congr 2
        · apply BitVec.eq_of_getLsbD_eq
          intro k hk
          simp only [BitVec.getLsbD_extractLsb', BitVec.getLsbD_append]; simp [hk]
        · apply BitVec.eq_of_getLsbD_eq
          intro k hk
          simp only [BitVec.getLsbD_extractLsb', BitVec.getLsbD_append]; simp [hk]
      rw [this]; simp

/-- The bytes that `n` dwords were taken from are theirs, and there are `n`. -/
theorem bytes_of_takeDwords {n : Nat} : ∀ {bs : List Byte} {ds : List Dword} {rest : List Byte},
    takeDwords n bs = some (ds, rest) → ds.length = n ∧ bs = ds.flatMap bytesOfDword ++ rest := by
  induction n with
  | zero => intro bs ds rest h; cases h; exact ⟨rfl, rfl⟩
  | succ n ih =>
    intro bs ds rest h
    unfold takeDwords at h
    split at h
    · cases h
    · rename_i d bs' h1
      split at h
      · cases h
      · rename_i ds' r h2
        cases h
        obtain ⟨e1, e2⟩ := ih h2
        refine ⟨by simp [e1], ?_⟩
        rw [bytes_of_takeDword h1, e2]; simp

/-- Every opcode is the one its OP value is assigned to: no OP value is given twice (R75). -/
@[simp] theorem opcodeOf_code (o : Opcode) : opcodeOf o.row.code = some o := by
  cases o <;> decide

/-- An assigned OP value is its opcode's code. -/
theorem code_of_opcodeOf {op : Byte} {o : Opcode} (h : opcodeOf op = some o) : o.row.code = op := by
  have := List.find?_some h
  simpa using this

@[simp] theorem opField_encodeWord (i : Instr) : opField (encodeWord i) = i.opcode.row.code := by
  simp [encodeWord]

@[simp] theorem idxField_encodeWord (i : Instr) : idxField (encodeWord i) = i.idx := by simp [encodeWord]

@[simp] theorem immField_encodeWord (i : Instr) : immField (encodeWord i) = i.imm := by simp [encodeWord]

@[simp] theorem selector_append (sel : BitVec 4) : (0#12 ++ sel).extractLsb' 0 4 = sel := by
  apply BitVec.eq_of_getLsbD_eq
  intro k hk
  simp only [BitVec.getLsbD_extractLsb', BitVec.getLsbD_append]
  simp [hk]

@[simp] theorem selector_append_high (sel : BitVec 4) : (0#12 ++ sel).extractLsb' 4 12 = 0#12 := by
  apply BitVec.eq_of_getLsbD_eq
  intro k hk
  simp only [BitVec.getLsbD_extractLsb', BitVec.getLsbD_append]
  simp

@[simp] theorem zeroBit_append (z : Bool) : (0#15 ++ BitVec.ofBool z).getLsbD 0 = z := by
  cases z <;> decide

@[simp] theorem zeroBit_append_high (z : Bool) : (0#15 ++ BitVec.ofBool z).extractLsb' 1 15 = 0#15 := by
  cases z <;> decide

/-- An instruction whose fields its row admits decodes to what `buildInstr` makes of the fields. -/
theorem decodeWord_encodeWord {i : Instr} {ops : List Dword}
    (h1 : idxOk i.opcode.row.idx i.idx = true) (h2 : immReservedOk i.opcode.row.imm i.imm = true)
    (h3 : immSelectorOk i.opcode.row.imm i.imm = true) :
    decodeWord (encodeWord i) ops =
      .ok (buildInstr i.opcode i.idx i.imm fun k => ops.getD k 0#64) := by
  simp [decodeWord, h1, h2, h3]

/-- Decoding a word's bytes and its operand dwords is decoding the word. -/
theorem decode_bytes {w : Word} {ops : List Dword} {rest : List Byte} (h : nopsOf (opField w) = ops.length) :
    decode (bytesOfWord w ++ ops.flatMap bytesOfDword ++ rest) =
      match decodeWord w ops with | .ok i => .command i rest | .error why => .illegal why w rest := by
  simp only [decode, List.append_assoc, takeWord_bytesOfWord]
  rw [h, takeDwords_flatMap] <;> rfl

end Sys2Proof
end

