-- ==== Sys2Proof/Laws/Exec.lean ====
section
/-! SUPPORT. What every command can do, said once (`40_control.md` rule R83): it runs a body that
completes or raises, and a body that completes touches the state of its own family only. -/

namespace Sys2Proof.Machine

/-! ## Completing and raising -/

/-- A command whose body completes from an error-free state. -/
theorem exec_of_ok {i : Instr} {body : State → Effect} {s t : State} {rs : List Dword}
    (h : exec i s = .next (runCommand i body s)) (h0 : s.err = 0#8) (hb : body s = .ok (t, rs)) :
    exec i s = .next (t.emit rs) := by rw [h, runCommand_ok h0 hb]

/-- A command whose body raises from an error-free state (R166). -/
theorem exec_of_raise {i : Instr} {body : State → Effect} {s : State} {r : Raise}
    (h : exec i s = .next (runCommand i body s)) (h0 : s.err = 0#8) (hb : body s = .error r) :
    exec i s = .next { s with
      err := r.error.code, errInfo := errInfoWord r.chan r.stream (encodeWord i)
      results := s.results ++ List.replicate (nres i.opcode s) poison } := by
  rw [h, runCommand_raise h0 hb]

/-- No error has the code 0 (R165). -/
theorem ErrCode.code_ne_zero (e : ErrCode) : e.code ≠ 0#8 := by cases e <;> decide

/-- Every error code is at most 9 (R165). -/
theorem ErrCode.code_le_nine (e : ErrCode) : e.code.toNat ≤ 9 := by cases e <;> decide

/-- A command that leaves an error-free state error-free completed its body. -/
theorem body_of_exec {i : Instr} {body : State → Effect} {s t : State}
    (h : exec i s = .next (runCommand i body s)) (he : exec i s = .next t) (h0 : s.err = 0#8)
    (h1 : t.err = 0#8) : ∃ t' rs, body s = .ok (t', rs) ∧ t = t'.emit rs := by
  rw [h] at he
  cases he
  cases hb : body s with
  | ok p => exact ⟨p.1, p.2, rfl, runCommand_ok h0 hb⟩
  | error r => rw [runCommand_raise h0 hb] at h1; exact absurd h1 (ErrCode.code_ne_zero _)

/-- The commands that run while an error is latched (R167). -/
theorem runsWhileLatched_eq_false (i : Instr) :
    runsWhileLatched (some i.opcode) = false ↔ (i ≠ .nop ∧ i ≠ .reset ∧ ∀ a, i ≠ .csrRead a) := by
  cases i <;> simp [Instr.opcode] <;> decide

/-! ## Frames -/

theorem luAccumulate_frame {u u' : Loudness} {vs : List (Option F64)}
    (h : luAccumulate u vs = .ok u') : u'.blockN = u.blockN ∧ u'.hopN = u.hopN := by
  unfold luAccumulate at h
  simp only at h
  split at h
  · simp only [bind_eq_ok] at h
    obtain ⟨r, _, h⟩ := h
    cases h
    exact ⟨rfl, rfl⟩
  · cases h
    exact ⟨rfl, rfl⟩

theorem luFrameStep_frame {d : Nat} {u u' : Loudness} {x : List F64}
    (h : luFrameStep d u x = .ok u') : u'.blockN = u.blockN ∧ u'.hopN = u.hopN := by
  unfold luFrameStep at h
  have := luAccumulate_frame h
  exact this

/-- The detector changes the preprocessor and the envelope filter only. -/
theorem cpDetect_frame {d : Nat} {u : Compressor} {x : List F64} {r : Compressor × F64}
    (h : cpDetect d u x = .ok r) : ∃ pre env, r.1 = { u with pre := pre, env := env } := by
  unfold cpDetect at h
  simp only [bind_eq_ok] at h
  obtain ⟨p, _, h⟩ := h
  cases h
  exact ⟨_, _, rfl⟩

/-- What a body that completes leaves unchanged. -/
structure ExecFrame (i : Instr) (s t : State) (rs : List Dword) : Prop where
  err : i ≠ .reset → t.err = s.err ∧ t.errInfo = s.errInfo
  reset : i = .reset → t = s.resetItems
  results : t.results = s.results
  port : t.port = s.port
  draws : s.draws ≤ t.draws
  count : rs.length = nres i.opcode s
  family : i ≠ .reset →
    (i.opcode.row.family ≠ .biquad → t.bq = s.bq) ∧
    (i.opcode.row.family ≠ .fir → t.fir = s.fir) ∧
    (i.opcode.row.family ≠ .lag1 → t.lag = s.lag) ∧
    (i.opcode.row.family ≠ .movMax → t.mmx = s.mmx) ∧
    (i.opcode.row.family ≠ .movRms → t.mrms = s.mrms) ∧
    (i.opcode.row.family ≠ .frameDemux → t.fd = s.fd) ∧
    (i.opcode.row.family ≠ .loudness → t.lu = s.lu) ∧
    (i.opcode.row.family ≠ .truePeak → t.tp = s.tp) ∧
    (i.opcode.row.family ≠ .compressor → t.cp = s.cp) ∧
    ((∀ a v, i ≠ .csrWrite a v) → t.cfg = s.cfg)

/-- Every command runs a body with that frame. -/
theorem exec_frame (i : Instr) (s : State) : ∃ body, exec i s = .next (runCommand i body s) ∧
    ∀ t rs, body s = .ok (t, rs) → ExecFrame i s t rs := by
  cases i
  all_goals refine ⟨_, rfl, ?_⟩
  all_goals intro t rs h
  all_goals try simp only [bind_eq_ok, memWrite_eq_ok, memRead_eq_ok] at h
  case cpInit =>
    obtain ⟨c, _, fs, _, h⟩ := h
    split at h
    · cases h
    · cases h; constructor <;> simp [Instr.opcode, Opcode.row, nres]
  case cpFrame z =>
    obtain ⟨c, h1, fs, _, r, hr, h⟩ := h
    cases h
    obtain ⟨pre, env, e⟩ := cpDetect_frame hr
    constructor <;> simp [Instr.opcode, Opcode.row, nres, cpOutputs, needReady_eq_ok.mp h1, e]
    omega
  case cpFrameInitial =>
    obtain ⟨c, h1, fs, _, r, hr, h⟩ := h
    cases h
    obtain ⟨pre, env, e⟩ := cpDetect_frame hr
    constructor <;> simp [Instr.opcode, Opcode.row, nres, e]
  case fdPushErr => cases h
  case luFinalize =>
    obtain ⟨_, _, h⟩ := h
    split at h
    · cases h; constructor <;> simp [Instr.opcode, Opcode.row, nres]
    · simp only [bind_eq_ok] at h
      obtain ⟨_, _, h⟩ := h
      cases h; constructor <;> simp [Instr.opcode, Opcode.row, nres]
  all_goals first
    | (cases h; constructor <;> simp [Instr.opcode, Opcode.row, nres]; done)
    | (obtain ⟨_, _, h⟩ := h; cases h; constructor <;> simp [Instr.opcode, Opcode.row, nres]; done)
    | (obtain ⟨_, _, _, _, h⟩ := h; cases h; constructor <;> simp [Instr.opcode, Opcode.row, nres]; done)
    | (obtain ⟨_, _, _, _, _, _, h⟩ := h; cases h; constructor <;> simp [Instr.opcode, Opcode.row, nres]; done)
    | (obtain ⟨_, ⟨_, _, _, _, rfl⟩, h⟩ := h; cases h; constructor <;> simp [Instr.opcode, Opcode.row, nres]; done)
    | skip

end Sys2Proof.Machine
end

