-- ==== Sys2Proof/Laws/Loudness.lean ====
section
/-! SUPPORT. The loudness unit's shared operations keep its shape (`47_loudness.md` rules R132 to R137). -/

namespace Sys2Proof.Machine

/-- An append keeps a ring within B values. -/
theorem luAppend_inv {b : Dword} {a : LuAcc} {v} (hb : 1 ≤ b.toNat) (h : a.Inv b) : (luAppend b a v).Inv b := by
  obtain ⟨h1, h2, h3⟩ := h
  unfold luAppend
  split
  · exact ⟨h1, h2, h3⟩
  · split
    · rename_i he
      have hl : (a.len - 1#64 + 1#64) = a.len := by
        have : a.len - 1#64 + 1#64 = a.len := BitVec.sub_add_cancel _ _
        exact this
      refine ⟨?_, by simp only [hl]; exact h2, h3⟩
      simp only [hl]
      rw [List.length_append, List.length_tail, List.length_singleton, h1]
      rw [he]; omega
    · rename_i he
      have hne : a.len.toNat ≠ b.toNat := fun h => he (BitVec.eq_of_toNat_eq h)
      have hl : (a.len + 1#64).toNat = a.len.toNat + 1 := by
        rw [BitVec.toNat_add]; have := b.isLt; simp; omega
      refine ⟨by simp only [hl]; simp [h1], by simp only [hl]; omega, h3⟩

/-- Accumulator k takes the value v[k] (R135); one beyond the values takes none. -/
theorem luAppends_eq_mapIdx (b : Dword) : ∀ (as : List LuAcc) (vs : List (Option F64)),
    luAppends b as vs = as.mapIdx fun k a => luAppend b a (vs.getD k none)
  | [], vs => by unfold luAppends; rfl
  | a :: as, [] => by
    unfold luAppends
    exact (List.ext_getElem (by rw [List.length_mapIdx])
      fun k _ _ => by rw [List.getElem_mapIdx]; rfl).symm
  | a :: as, v :: vs => by
    unfold luAppends
    rw [luAppends_eq_mapIdx b as vs, List.mapIdx_cons]
    rfl

theorem luAppends_inv {b : Dword} (hb : 1 ≤ b.toNat) : ∀ (as : List LuAcc) (vs : List (Option F64)), (∀ a ∈ as, a.Inv b) →
    (∀ a ∈ luAppends b as vs, a.Inv b) ∧ (luAppends b as vs).length = as.length
  | [], vs, _ => by unfold luAppends; simp
  | a :: as, [], h => by unfold luAppends; exact ⟨h, rfl⟩
  | a :: as, v :: vs, h => by
    obtain ⟨i1, i2⟩ := luAppends_inv hb as vs (fun a' ha => h a' (by simp [ha]))
    unfold luAppends
    refine ⟨?_, by simp [i2]⟩
    intro a' ha'
    rcases List.mem_cons.mp ha' with rfl | ha'
    · exact luAppend_inv hb (h a (by simp))
    · exact i1 a' ha'

/-- A commit changes the histogram only. -/
theorem luCommit_inv {b : Dword} {k a e a'} (h : LuAcc.Inv b a) (he : luCommit k a e = .ok a') : a'.Inv b := by
  unfold luCommit at he
  simp only at he
  split at he
  · cases he
  · split at he
    · cases he
    · split at he
      · cases he; exact h
      · cases he; exact ⟨h.1, h.2.1, by simp [histBump]; exact h.2.2⟩

theorem luCommitFull_inv {b b' : Dword} : ∀ (k : Nat) (as : List LuAcc) (r : List LuAcc × Bool), (∀ a ∈ as, a.Inv b) → luCommitFull b' k as = .ok r →
    (∀ a ∈ r.1, a.Inv b) ∧ r.1.length = as.length
  | k, [], r, h, he => by unfold luCommitFull at he; cases he; simp
  | k, a :: as, r, h, he => by
    unfold luCommitFull at he
    have key : ∀ a' r', a'.Inv b → luCommitFull b' (k+1) as = .ok r' → (∀ x ∈ a' :: r'.1, x.Inv b) ∧ (a' :: r'.1).length = (a :: as).length := by
      intro a' r' ha' hr'
      obtain ⟨i1, i2⟩ := luCommitFull_inv (k+1) as r' (fun x hx => h x (by simp [hx])) hr'
      refine ⟨?_, by simp [i2]⟩
      intro x hx
      rcases List.mem_cons.mp hx with rfl | hx
      · exact ha'
      · exact i1 x hx
    split at he
    · simp only [bind_eq_ok] at he
      obtain ⟨a', ha', r', hr', he⟩ := he
      cases he; exact key _ _ (luCommit_inv (h a (by simp)) ha') hr'
    · simp only [bind_eq_ok] at he
      obtain ⟨a', ha', r', hr', he⟩ := he
      cases ha'
      cases he; exact key _ _ (h a (by simp)) hr'

theorem luCommitPartial_inv {b : Dword} : ∀ (k : Nat) (as : List LuAcc) (r : List LuAcc), (∀ a ∈ as, a.Inv b) → luCommitPartial k as = .ok r →
    (∀ a ∈ r, a.Inv b) ∧ r.length = as.length
  | k, [], r, h, he => by unfold luCommitPartial at he; cases he; simp
  | k, a :: as, r, h, he => by
    unfold luCommitPartial at he
    have key : ∀ a' r', a'.Inv b → luCommitPartial (k+1) as = .ok r' → (∀ x ∈ a' :: r', x.Inv b) ∧ (a' :: r').length = (a :: as).length := by
      intro a' r' ha' hr'
      obtain ⟨i1, i2⟩ := luCommitPartial_inv (k+1) as r' (fun x hx => h x (by simp [hx])) hr'
      refine ⟨?_, by simp [i2]⟩
      intro x hx
      rcases List.mem_cons.mp hx with rfl | hx
      · exact ha'
      · exact i1 x hx
    split at he
    · simp only [bind_eq_ok] at he
      obtain ⟨a', ha', r', hr', he⟩ := he
      cases he; exact key _ _ (luCommit_inv (h a (by simp)) ha') hr'
    · simp only [bind_eq_ok] at he
      obtain ⟨a', ha', r', hr', he⟩ := he
      cases ha'
      cases he; exact key _ _ (h a (by simp)) hr'

theorem luWeighChans_length (ks kh : BqCoef) : ∀ (d : Nat) (chs : List LuChan) (xs : List F64), (luWeighChans ks kh d chs xs).1.length = chs.length
  | d, [], xs => by unfold luWeighChans; simp
  | d, c :: cs, [] => by unfold luWeighChans; simp
  | d, c :: cs, x :: xs => by unfold luWeighChans; simp [luWeighChans_length ks kh (d+3) cs xs]

/-- A frame keeps the shape of the unit. -/
theorem luFrameStep_inv {d : Nat} {u u' : Loudness} {x} (h : u.Inv) (hr : u.ready = true) (he : luFrameStep d u x = .ok u') : u'.Inv := by
  obtain ⟨a1, a2, a3, a4, a5, a6, a7, a8, a9, b1⟩ := h.2 hr
  have hb : 1 ≤ u.blockN.toNat := by rw [a5]; omega
  unfold luFrameStep luAccumulate at he
  simp only at he
  obtain ⟨i1, i2⟩ := luAppends_inv hb u.accs (luValues (d + 3 * u.chans.length) u.indep (luWeighChans u.ks u.kh d u.chans x).2) b1
  split at he
  · simp only [bind_eq_ok] at he
    obtain ⟨r, hr', he⟩ := he
    cases he
    obtain ⟨j1, j2⟩ := luCommitFull_inv (b := u.blockN) 0 _ r i1 hr'
    refine ⟨(fun h' => by simp only at h'; rw [hr] at h'; cases h'), fun _ => ⟨a1, a2, a3, a4, a5, a6, a7, ?_, ?_, j1⟩⟩
    · simp only [luWeighChans_length]; exact a8
    · simp only [j2, i2]; exact a9
  · cases he
    refine ⟨(fun h' => by simp only at h'; rw [hr] at h'; cases h'), fun _ => ⟨a1, a2, a3, a4, a5, a6, a7, ?_, ?_, i1⟩⟩
    · simp only [luWeighChans_length]; exact a8
    · simp only [i2]; exact a9

end Sys2Proof.Machine
end

