-- ==== Sys2Proof/Laws/PerInstr.lean ====
section
/-! SUPPORT. Statements about every instruction as syntax, one lemma for each constructor. -/

namespace Sys2Proof.Laws

/-- Reading an instruction's command word with its operand dwords gives the instruction back. -/
def WordRoundTrip.Statement (i : Instr) : Prop :=
  i.wellFormed = true → decodeWord (encodeWord i) i.operands = .ok i

theorem WordRoundTrip.nop : WordRoundTrip.Statement (.nop) :=
  fun _ => decodeWord_encodeWord rfl rfl rfl
theorem WordRoundTrip.reset : WordRoundTrip.Statement (.reset) :=
  fun _ => decodeWord_encodeWord rfl rfl rfl
theorem WordRoundTrip.csrRead (addr : Half) : WordRoundTrip.Statement (.csrRead addr) :=
  fun _ => decodeWord_encodeWord rfl rfl rfl
theorem WordRoundTrip.csrWrite (addr : Half) (v : Dword) : WordRoundTrip.Statement (.csrWrite addr v) :=
  fun _ => decodeWord_encodeWord rfl rfl rfl
theorem WordRoundTrip.bqInit (inst : Byte) (b0 : F64) (b1 : F64) (b2 : F64) (a1 : F64) (a2 : F64) : WordRoundTrip.Statement (.bqInit inst b0 b1 b2 a1 a2) :=
  fun _ => decodeWord_encodeWord rfl rfl rfl
theorem WordRoundTrip.bqProcess (inst : Byte) (x : F64) : WordRoundTrip.Statement (.bqProcess inst x) :=
  fun _ => decodeWord_encodeWord rfl rfl rfl
theorem WordRoundTrip.firInit (inst : Byte) (p : Dword) (a : Dword) : WordRoundTrip.Statement (.firInit inst p a) :=
  fun _ => decodeWord_encodeWord rfl rfl rfl
theorem WordRoundTrip.firProcess (inst : Byte) (x : F64) : WordRoundTrip.Statement (.firProcess inst x) :=
  fun _ => decodeWord_encodeWord rfl rfl rfl
theorem WordRoundTrip.lagInit (inst : Byte) (tauRise : F64) (tauFall : F64) (gain : F64) : WordRoundTrip.Statement (.lagInit inst tauRise tauFall gain) :=
  fun _ => decodeWord_encodeWord rfl rfl rfl
theorem WordRoundTrip.lagProcess (inst : Byte) (x : F64) : WordRoundTrip.Statement (.lagProcess inst x) :=
  fun _ => decodeWord_encodeWord rfl rfl rfl
theorem WordRoundTrip.lagProcessInitial (inst : Byte) (x : F64) : WordRoundTrip.Statement (.lagProcessInitial inst x) :=
  fun _ => decodeWord_encodeWord rfl rfl rfl
theorem WordRoundTrip.lagSettlingLen (tauRise : F64) : WordRoundTrip.Statement (.lagSettlingLen tauRise) :=
  fun _ => decodeWord_encodeWord rfl rfl rfl
theorem WordRoundTrip.mmxInit (inst : Byte) (w : Dword) : WordRoundTrip.Statement (.mmxInit inst w) :=
  fun _ => decodeWord_encodeWord rfl rfl rfl
theorem WordRoundTrip.mmxProcess (inst : Byte) (x : F64) : WordRoundTrip.Statement (.mmxProcess inst x) :=
  fun _ => decodeWord_encodeWord rfl rfl rfl
theorem WordRoundTrip.mrmsInit (inst : Byte) (w : Dword) (gain : F64) : WordRoundTrip.Statement (.mrmsInit inst w gain) :=
  fun _ => decodeWord_encodeWord rfl rfl rfl
theorem WordRoundTrip.mrmsProcess (inst : Byte) (x : F64) : WordRoundTrip.Statement (.mrmsProcess inst x) :=
  fun _ => decodeWord_encodeWord rfl rfl rfl
theorem WordRoundTrip.mrmsRefresh (inst : Byte) : WordRoundTrip.Statement (.mrmsRefresh inst) :=
  fun _ => decodeWord_encodeWord rfl rfl rfl
theorem WordRoundTrip.mrmsReadAcc (inst : Byte) : WordRoundTrip.Statement (.mrmsReadAcc inst) :=
  fun _ => decodeWord_encodeWord rfl rfl rfl
theorem WordRoundTrip.fdInit : WordRoundTrip.Statement (.fdInit) :=
  fun _ => decodeWord_encodeWord rfl rfl rfl
theorem WordRoundTrip.fdPush (x : F64) : WordRoundTrip.Statement (.fdPush x) :=
  fun _ => decodeWord_encodeWord rfl rfl rfl
theorem WordRoundTrip.fdPushErr (code : Half) : WordRoundTrip.Statement (.fdPushErr code) :=
  fun _ => decodeWord_encodeWord rfl rfl rfl
theorem WordRoundTrip.fdEnd : WordRoundTrip.Statement (.fdEnd) :=
  fun _ => decodeWord_encodeWord rfl rfl rfl
theorem WordRoundTrip.fdRead (chan : Byte) : WordRoundTrip.Statement (.fdRead chan) :=
  fun _ => decodeWord_encodeWord rfl rfl rfl
theorem WordRoundTrip.luInit : WordRoundTrip.Statement (.luInit) :=
  fun _ => decodeWord_encodeWord rfl rfl rfl
theorem WordRoundTrip.luFrame : WordRoundTrip.Statement (.luFrame) :=
  fun _ => decodeWord_encodeWord rfl rfl rfl
theorem WordRoundTrip.luFinalize : WordRoundTrip.Statement (.luFinalize) :=
  fun _ => decodeWord_encodeWord rfl rfl rfl
theorem WordRoundTrip.luResult (acc : Byte) : WordRoundTrip.Statement (.luResult acc) :=
  fun _ => decodeWord_encodeWord rfl rfl rfl
theorem WordRoundTrip.luHistRead (acc : Byte) (bin : Dword) : WordRoundTrip.Statement (.luHistRead acc bin) :=
  fun _ => decodeWord_encodeWord rfl rfl rfl
theorem WordRoundTrip.luCoefRead (sel : BitVec 4) : WordRoundTrip.Statement (.luCoefRead sel) := by
  intro h
  have hs : selectorOk sel = true := h
  rw [decodeWord_encodeWord rfl rfl (by simp [immSelectorOk, Instr.opcode, Opcode.row, Instr.imm, hs])]
  simp [buildInstr, Instr.opcode, Instr.imm]
theorem WordRoundTrip.tpInit : WordRoundTrip.Statement (.tpInit) :=
  fun _ => decodeWord_encodeWord rfl rfl rfl
theorem WordRoundTrip.tpFrame : WordRoundTrip.Statement (.tpFrame) :=
  fun _ => decodeWord_encodeWord rfl rfl rfl
theorem WordRoundTrip.tpResult (acc : Byte) : WordRoundTrip.Statement (.tpResult acc) :=
  fun _ => decodeWord_encodeWord rfl rfl rfl
theorem WordRoundTrip.cpInit : WordRoundTrip.Statement (.cpInit) :=
  fun _ => decodeWord_encodeWord rfl rfl rfl
theorem WordRoundTrip.cpFrame (zero : Bool) : WordRoundTrip.Statement (.cpFrame zero) := by
  cases zero <;> exact fun _ => decodeWord_encodeWord rfl (by decide) rfl
theorem WordRoundTrip.cpFrameInitial : WordRoundTrip.Statement (.cpFrameInitial) :=
  fun _ => decodeWord_encodeWord rfl rfl rfl

/-- An instruction has as many operand dwords as its row of the opcode table gives. -/
def OperandCount.Statement (i : Instr) : Prop := i.operands.length = i.opcode.row.nops

theorem OperandCount.nop : OperandCount.Statement (.nop) := rfl
theorem OperandCount.reset : OperandCount.Statement (.reset) := rfl
theorem OperandCount.csrRead (addr : Half) : OperandCount.Statement (.csrRead addr) := rfl
theorem OperandCount.csrWrite (addr : Half) (v : Dword) : OperandCount.Statement (.csrWrite addr v) := rfl
theorem OperandCount.bqInit (inst : Byte) (b0 : F64) (b1 : F64) (b2 : F64) (a1 : F64) (a2 : F64) : OperandCount.Statement (.bqInit inst b0 b1 b2 a1 a2) := rfl
theorem OperandCount.bqProcess (inst : Byte) (x : F64) : OperandCount.Statement (.bqProcess inst x) := rfl
theorem OperandCount.firInit (inst : Byte) (p : Dword) (a : Dword) : OperandCount.Statement (.firInit inst p a) := rfl
theorem OperandCount.firProcess (inst : Byte) (x : F64) : OperandCount.Statement (.firProcess inst x) := rfl
theorem OperandCount.lagInit (inst : Byte) (tauRise : F64) (tauFall : F64) (gain : F64) : OperandCount.Statement (.lagInit inst tauRise tauFall gain) := rfl
theorem OperandCount.lagProcess (inst : Byte) (x : F64) : OperandCount.Statement (.lagProcess inst x) := rfl
theorem OperandCount.lagProcessInitial (inst : Byte) (x : F64) : OperandCount.Statement (.lagProcessInitial inst x) := rfl
theorem OperandCount.lagSettlingLen (tauRise : F64) : OperandCount.Statement (.lagSettlingLen tauRise) := rfl
theorem OperandCount.mmxInit (inst : Byte) (w : Dword) : OperandCount.Statement (.mmxInit inst w) := rfl
theorem OperandCount.mmxProcess (inst : Byte) (x : F64) : OperandCount.Statement (.mmxProcess inst x) := rfl
theorem OperandCount.mrmsInit (inst : Byte) (w : Dword) (gain : F64) : OperandCount.Statement (.mrmsInit inst w gain) := rfl
theorem OperandCount.mrmsProcess (inst : Byte) (x : F64) : OperandCount.Statement (.mrmsProcess inst x) := rfl
theorem OperandCount.mrmsRefresh (inst : Byte) : OperandCount.Statement (.mrmsRefresh inst) := rfl
theorem OperandCount.mrmsReadAcc (inst : Byte) : OperandCount.Statement (.mrmsReadAcc inst) := rfl
theorem OperandCount.fdInit : OperandCount.Statement (.fdInit) := rfl
theorem OperandCount.fdPush (x : F64) : OperandCount.Statement (.fdPush x) := rfl
theorem OperandCount.fdPushErr (code : Half) : OperandCount.Statement (.fdPushErr code) := rfl
theorem OperandCount.fdEnd : OperandCount.Statement (.fdEnd) := rfl
theorem OperandCount.fdRead (chan : Byte) : OperandCount.Statement (.fdRead chan) := rfl
theorem OperandCount.luInit : OperandCount.Statement (.luInit) := rfl
theorem OperandCount.luFrame : OperandCount.Statement (.luFrame) := rfl
theorem OperandCount.luFinalize : OperandCount.Statement (.luFinalize) := rfl
theorem OperandCount.luResult (acc : Byte) : OperandCount.Statement (.luResult acc) := rfl
theorem OperandCount.luHistRead (acc : Byte) (bin : Dword) : OperandCount.Statement (.luHistRead acc bin) := rfl
theorem OperandCount.luCoefRead (sel : BitVec 4) : OperandCount.Statement (.luCoefRead sel) := rfl
theorem OperandCount.tpInit : OperandCount.Statement (.tpInit) := rfl
theorem OperandCount.tpFrame : OperandCount.Statement (.tpFrame) := rfl
theorem OperandCount.tpResult (acc : Byte) : OperandCount.Statement (.tpResult acc) := rfl
theorem OperandCount.cpInit : OperandCount.Statement (.cpInit) := rfl
theorem OperandCount.cpFrame (zero : Bool) : OperandCount.Statement (.cpFrame zero) := rfl
theorem OperandCount.cpFrameInitial : OperandCount.Statement (.cpFrameInitial) := rfl

end Sys2Proof.Laws
end

