-- ==== Sys2Proof/Laws/TruePeak.lean ====
section
/-! SUPPORT. The true-peak maximum never falls and never becomes a NaN (`48_truepeak.md` rule R147). -/

namespace Sys2Proof.Machine

/-- What one sub-sample does to the maximum. -/
theorem tpMax_spec {m v : F64} (hm : isNaN m = false) : isNaN (tpMax m v) = false ∧ fle m (tpMax m v) = true ∧ (isNaN v = false → fle (fabs v) (tpMax m v) = true) ∧ (tpMax m v = m ∨ (isNaN v = false ∧ tpMax m v = fabs v)) := by
  unfold tpMax
  by_cases h : flt m (fabs v) = true
  · rw [if_pos h]
    have hv : isNaN v = false := by
      cases hh : isNaN v with
      | false => rfl
      | true => simp [flt, hh] at h
    have hn : isNaN (fabs v) = false := by simp [hv]
    rw [flt_iff hm hn] at h
    refine ⟨hn, ?_, ?_, .inr ⟨hv, rfl⟩⟩
    · rw [fle_iff hm hn]; omega
    · intro _; exact (fle_iff hn hn).mpr (Int.le_refl _)
  · rw [if_neg h]
    refine ⟨hm, by exact (fle_iff hm hm).mpr (Int.le_refl _), ?_, .inl rfl⟩
    intro hv
    have hn : isNaN (fabs v) = false := by simp [hv]
    exact (flt_false_iff hm hn).mp (by simpa using h)

/-- What one channel does to its maximum. -/
theorem tpChannel_max {h buf : List F64} {m x : F64} (hm : isNaN m = false ∧ fsign m = false) :
    (isNaN (tpChannel h buf m x).2 = false ∧ fsign (tpChannel h buf m x).2 = false)
      ∧ fle m (tpChannel h buf m x).2 = true := by
  have step : ∀ m v, isNaN m = false ∧ fsign m = false →
      (isNaN (tpMax m v) = false ∧ fsign (tpMax m v) = false) ∧ fle m (tpMax m v) = true := by
    intro m v hm
    obtain ⟨a, b, _, d⟩ := tpMax_spec (v := v) hm.1
    refine ⟨⟨a, ?_⟩, b⟩
    rcases d with d | ⟨_, d⟩
    · rw [d]; exact hm.2
    · rw [d]; simp
  obtain ⟨a1, a2⟩ := step m (firStep buf h x).2 hm
  obtain ⟨b1, b2⟩ := step _ (firStep (firStep buf h x).1 h f0).2 a1
  obtain ⟨c1, c2⟩ := step _ (firStep (firStep (firStep buf h x).1 h f0).1 h f0).2 b1
  obtain ⟨d1, d2⟩ := step _ (firStep (firStep (firStep (firStep buf h x).1 h f0).1 h f0).1 h f0).2 c1
  exact ⟨d1, fle_trans a2 (fle_trans b2 (fle_trans c2 d2))⟩

theorem tpChannel_length {h buf : List F64} {m x : F64} (hb : 1 ≤ buf.length) : (tpChannel h buf m x).1.length = buf.length := by
  simp [tpChannel, tpSubSample, firStep, ringPush]; omega

/-- What a frame does to the maxima. -/
theorem tpChans_max (h : List F64) (indep : Bool) : ∀ (c : Nat) (bufs : List (List F64)) (xs m : List F64), (∀ v ∈ m, isNaN v = false ∧ fsign v = false) →
    (tpChans h indep c bufs xs m).2.length = m.length ∧ (∀ v ∈ (tpChans h indep c bufs xs m).2, isNaN v = false ∧ fsign v = false) ∧
    ∀ k, k < m.length → fle (m.getD k f0) ((tpChans h indep c bufs xs m).2.getD k f0) = true
  | c, [], xs, m, hm => by
    unfold tpChans
    refine ⟨rfl, hm, fun k hk => ?_⟩
    have : isNaN (m.getD k f0) = false ∧ fsign (m.getD k f0) = false := by simp [List.getD, hk]; exact hm _ (List.getElem_mem hk)
    simp only; exact (fle_iff this.1 this.1).mpr (Int.le_refl _)
  | c, b :: bs, [], m, hm => by
    unfold tpChans
    refine ⟨rfl, hm, fun k hk => ?_⟩
    have : isNaN (m.getD k f0) = false ∧ fsign (m.getD k f0) = false := by simp [List.getD, hk]; exact hm _ (List.getElem_mem hk)
    simp only; exact (fle_iff this.1 this.1).mpr (Int.le_refl _)
  | c, b :: bs, x :: xs, m, hm => by
    unfold tpChans
    simp only
    generalize (if indep = true then c else 0) = kk
    have hmk : isNaN (m.getD kk f0) = false ∧ fsign (m.getD kk f0) = false := by
      by_cases h : kk < m.length
      · simp [List.getD, h]; exact hm _ (List.getElem_mem h)
      · simp [List.getD, h]; decide
    obtain ⟨o1, o2⟩ := tpChannel_max (h := h) (buf := b) (x := x) hmk
    have hm' : ∀ v ∈ m.set kk (tpChannel h b (m.getD kk f0) x).2, isNaN v = false ∧ fsign v = false := by
      intro v hv
      rcases List.mem_or_eq_of_mem_set hv with hv | rfl
      · exact hm v hv
      · exact o1
    obtain ⟨i1, i2, i3⟩ := tpChans_max h indep (c+1) bs xs _ hm'
    refine ⟨by rw [i1]; simp, i2, ?_⟩
    intro k hk
    have := i3 k (by simpa using hk)
    refine fle_trans ?_ this
    by_cases hkk : kk = k
    · subst hkk
      have : (m.set kk (tpChannel h b (m.getD kk f0) x).2).getD kk f0 = (tpChannel h b (m.getD kk f0) x).2 := by simp [List.getD, hk]
      rw [this]; exact o2
    · have e : (m.set kk (tpChannel h b (m.getD kk f0) x).2).getD k f0 = m.getD k f0 := by simp [List.getD, hkk]
      rw [e]
      have : isNaN (m.getD k f0) = false ∧ fsign (m.getD k f0) = false := by simp [List.getD, hk]; exact hm _ (List.getElem_mem hk)
      exact (fle_iff this.1 this.1).mpr (Int.le_refl _)

/-- What a frame does to the rings. -/
theorem tpChans_length (h : List F64) (indep : Bool) {L : Nat} (hL : 1 ≤ L) : ∀ (c : Nat) (bufs : List (List F64)) (xs m : List F64), (∀ b ∈ bufs, b.length = L) →
   (tpChans h indep c bufs xs m).1.length = bufs.length ∧ ∀ b ∈ (tpChans h indep c bufs xs m).1, b.length = L
  | c, [], xs, m, hb => by unfold tpChans; exact ⟨rfl, hb⟩
  | c, b :: bs, [], m, hb => by unfold tpChans; exact ⟨rfl, hb⟩
  | c, b :: bs, x :: xs, m, hb => by
    unfold tpChans
    simp only
    obtain ⟨i1, i2⟩ := tpChans_length h indep hL (c+1) bs xs (m.set (if indep = true then c else 0) (tpChannel h b (m.getD (if indep = true then c else 0) f0) x).2) (fun b' hb' => hb b' (by simp [hb']))
    refine ⟨by rw [List.length_cons, i1]; rfl, ?_⟩
    intro b' hb'
    rcases List.mem_cons.mp hb' with rfl | hb'
    · have := hb b (by simp)
      rw [tpChannel_length (by omega)]; exact this
    · exact i2 b' hb'

end Sys2Proof.Machine
end

