-- ==== Sys2Proof/Machine/Assembly.lean ====
section
/-! DEFINITION. The assembler's side of `30_encoding.md`: the text of a command, written and read
(rule R81), and the pseudo-instructions (R82). The machine never reads text, so no other definition uses
this file. -/

namespace Sys2Proof.Machine.Assembly

/-- The mnemonic of an opcode (R75). -/
def mnemonic : Opcode → String
  | .nop => "NOP"
  | .reset => "RESET"
  | .csrRead => "CSR_READ"
  | .csrWrite => "CSR_WRITE"
  | .bqInit => "BQ_INIT"
  | .bqProcess => "BQ_PROCESS"
  | .firInit => "FIR_INIT"
  | .firProcess => "FIR_PROCESS"
  | .lagInit => "LAG_INIT"
  | .lagProcess => "LAG_PROCESS"
  | .lagProcessInitial => "LAG_PROCESS_INITIAL"
  | .lagSettlingLen => "LAG_SETTLING_LEN"
  | .mmxInit => "MMX_INIT"
  | .mmxProcess => "MMX_PROCESS"
  | .mrmsInit => "MRMS_INIT"
  | .mrmsProcess => "MRMS_PROCESS"
  | .mrmsRefresh => "MRMS_REFRESH"
  | .mrmsReadAcc => "MRMS_READ_ACC"
  | .fdInit => "FD_INIT"
  | .fdPush => "FD_PUSH"
  | .fdPushErr => "FD_PUSH_ERR"
  | .fdEnd => "FD_END"
  | .fdRead => "FD_READ"
  | .luInit => "LU_INIT"
  | .luFrame => "LU_FRAME"
  | .luFinalize => "LU_FINALIZE"
  | .luResult => "LU_RESULT"
  | .luHistRead => "LU_HIST_READ"
  | .luCoefRead => "LU_COEF_READ"
  | .tpInit => "TP_INIT"
  | .tpFrame => "TP_FRAME"
  | .tpResult => "TP_RESULT"
  | .cpInit => "CP_INIT"
  | .cpFrame => "CP_FRAME"
  | .cpFrameInitial => "CP_FRAME_INITIAL"

/-- The name of a CSR (R34, R46). -/
def csrName : Csr → String
  | .id => "ID"
  | .status => "STATUS"
  | .errInfo => "ERR_INFO"
  | .params => "PARAMS"
  | .params2 => "PARAMS2"
  | .params3 => "PARAMS3"
  | .cfgChannels => "CFG_CHANNELS"
  | .cfgFs => "CFG_FS"
  | .luCfg => "LU_CFG"
  | .tpCfg => "TP_CFG"
  | .cpCfg => "CP_CFG"
  | .luWeight c => "LU_WEIGHT[" ++ toString c.val ++ "]"
  | .cpThresholdDb => "CP_THRESHOLD_DB"
  | .cpRatio => "CP_RATIO"
  | .cpKneeDb => "CP_KNEE_DB"
  | .cpAttackS => "CP_ATTACK_S"
  | .cpReleaseS => "CP_RELEASE_S"
  | .cpLookaheadS => "CP_LOOKAHEAD_S"
  | .cpHoldS => "CP_HOLD_S"
  | .cpMakeupDb => "CP_MAKEUP_DB"
  | .cpEnv => "CP_ENV"
  | .cpGainDb => "CP_GAIN_DB"
  | .cpDelayN => "CP_DELAY_N"
  | .cpWindowN => "CP_WINDOW_N"
  | .luBlockN => "LU_BLOCK_N"
  | .luHopN => "LU_HOP_N"
  | .luFrames => "LU_FRAMES"

/-- What stands before the number of an IDX operand (R81): the instance letters of the family, `ch` or
`acc`; nothing where no IDX operand is written. -/
def idxLetters (o : Opcode) : Option String :=
  match o.row.idx with
  | .zero => none
  | .chan => some "ch"
  | .acc => some "acc"
  | .inst =>
    match o.row.family with
    | .biquad => some "bq"
    | .fir => some "fir"
    | .lag1 => some "lag"
    | .movMax => some "mmx"
    | .movRms => some "mrms"
    | .control | .frameDemux | .loudness | .truePeak | .compressor => none

/-- The k-th operand dword of the command is of type u64 (R75). -/
def operandIsU64 (o : Opcode) (k : Nat) : Bool :=
  match o with
  | .firInit => true
  | .mmxInit => true
  | .mrmsInit => k == 0
  | .luHistRead => true
  | _ => false

/-- A CSR that holds a binary64 (R43, R46, R47), for CSR_WRITE's value (R81). -/
def csrIsF64 : Csr → Bool
  | .luWeight _ => true
  | .cpThresholdDb | .cpRatio | .cpKneeDb | .cpAttackS | .cpReleaseS | .cpLookaheadS | .cpHoldS
  | .cpMakeupDb | .cpEnv | .cpGainDb => true
  | .id | .status | .errInfo | .params | .params2 | .params3 | .cfgChannels | .cfgFs | .luCfg | .tpCfg
  | .cpCfg | .cpDelayN | .cpWindowN | .luBlockN | .luHopN | .luFrames => false

/-- The stage names of LU_COEF_READ, IMM[3] = 0 and 1 (R77, R81). -/
def stageNames : List String := ["shelf", "hp"]
/-- The coefficient names of LU_COEF_READ, IMM[2:0] = 0 to 4. -/
def coefNames : List String := ["b0", "b1", "b2", "a1", "a2"]

/-! ## Writing a command. A dword is written in the raw form, 16 hex digits. -/

/-- The last `n` hex digits of a number, the most significant first. -/
def hexDigits : Nat → Nat → List Char
  | 0, _ => []
  | n + 1, v => hexDigits n (v / 16) ++ [Nat.digitChar (v % 16)]

/-- A number as a 0x literal of `n` hex digits. -/
def hexLit (n v : Nat) : String := "0x" ++ String.ofList (hexDigits n v)

/-- A CSR operand: its name, or the 16-bit number of an address that has none. -/
def csrText (a : Half) : String :=
  match csrAt a with
  | none => hexLit 4 a.toNat
  | some r => csrName r

/-- The operands written for IMM (R81): none where R75 marks it 0. DESIGN CHOICE (log entry 16), safe for
the machine: R81 gives no form for FD_PUSH_ERR's stream code, which is written as a 16-bit integer. -/
def immTexts (k : ImmKind) (imm : Half) : List String :=
  match k with
  | .zero => []
  | .csr => [csrText imm]
  | .streamCode => [hexLit 4 imm.toNat]
  | .coefSelector =>
    [stageNames.getD (imm.extractLsb' 3 1).toNat "", coefNames.getD (imm.extractLsb' 0 3).toNat ""]
  | .zeroBit => if imm.getLsbD 0 then ["zero"] else []

/-- The operands written for IDX. -/
def idxTexts (o : Opcode) (idx : Byte) : List String :=
  match idxLetters o with
  | none => []
  | some l => [l ++ toString idx.toNat]

/-- A mnemonic and its operands, separated by `, `. -/
def line (m : String) : List String → String
  | [] => m
  | x :: xs => m ++ " " ++ xs.foldl (fun s y => s ++ ", " ++ y) x

/-- The line of a command (R81): the mnemonic, the IDX operand, the IMM operand, the operand dwords. -/
def print (i : Instr) : String :=
  line (mnemonic i.opcode)
    (idxTexts i.opcode i.idx ++ immTexts i.opcode.row.imm i.imm
      ++ i.operands.map fun d => hexLit 16 d.toNat)

/-! ## Reading a line -/

/-- Without blanks at the front. -/
def trimFront (cs : List Char) : List Char := cs.dropWhile fun c => c == ' ' || c == '\t'
/-- Without blanks at either end. -/
def trim (cs : List Char) : List Char := (trimFront (trimFront cs).reverse).reverse

/-- The parts between commas. -/
def splitCommas : List Char → List (List Char)
  | [] => [[]]
  | c :: cs =>
    match splitCommas cs with
    | [] => [[c]]
    | p :: ps => if c == ',' then [] :: p :: ps else (c :: p) :: ps

/-- The value of a digit in a base up to 16. -/
def digitValue (base : Nat) (c : Char) : Option Nat :=
  let n := c.toNat
  let v := if 48 ≤ n ∧ n ≤ 57 then n - 48 else if 97 ≤ n ∧ n ≤ 102 then n - 87
    else if 65 ≤ n ∧ n ≤ 70 then n - 55 else 16
  if v < base then some v else none

/-- The number that the digits, at least one, give in a base. -/
def digitsValue (base : Nat) (cs : List Char) : Option Nat :=
  match cs with
  | [] => none
  | _ :: _ =>
    cs.foldl (fun acc c =>
      match acc, digitValue base c with
      | some v, some d => some (v * base + d)
      | _, _ => none) (some 0)

/-- A decimal or 0x integer below `bound`. -/
def natOf (bound : Nat) (cs : List Char) : Option Nat :=
  let v := match cs with
    | '0' :: 'x' :: hs => digitsValue 16 hs
    | _ => digitsValue 10 cs
  match v with
  | none => none
  | some n => if n < bound then some n else none

/-- A number with an optional sign. -/
def intOf (cs : List Char) : Option Int :=
  match cs with
  | '-' :: ds => (digitsValue 10 ds).map fun n => -(n : Int)
  | '+' :: ds => (digitsValue 10 ds).map fun n => (n : Int)
  | _ => (digitsValue 10 cs).map fun n => (n : Int)

/-- The binary64 nearest to ±d·10^e (R81, R11). -/
def f64OfDecimal (neg : Bool) (d : Nat) (e : Int) : F64 :=
  mkF64 neg (if 0 ≤ e then roundUnits (d * 10 ^ e.toNat * oneUnits) 1
    else roundUnits (d * oneUnits) (10 ^ (-e).toNat))

/-- A decimal literal without its sign: digits, an optional fraction and an optional exponent. -/
def decimalOf (neg : Bool) (cs : List Char) : Option F64 :=
  let isExp := fun c : Char => c == 'e' || c == 'E'
  let mant := cs.takeWhile fun c => !isExp c
  let expo := match cs.dropWhile fun c => !isExp c with
    | [] => some 0
    | _ :: ds => intOf ds
  let whole := mant.takeWhile fun c => !(c == '.')
  let frac := (mant.dropWhile fun c => !(c == '.')).drop 1
  match digitsValue 10 (whole ++ frac), expo with
  | some d, some e => some (f64OfDecimal neg d (e - (frac.length : Int)))
  | _, _ => none

/-- An f64 operand (R81): a decimal literal, or 0x and 16 hex digits of raw bits. -/
def f64Of (cs : List Char) : Option F64 :=
  match cs with
  | '0' :: 'x' :: hs => if hs.length = 16 then (digitsValue 16 hs).map (BitVec.ofNat 64) else none
  | '-' :: ds => decimalOf true ds
  | _ => decimalOf false cs

/-- A u64 operand (R81). -/
def u64Of (cs : List Char) : Option Dword := (natOf (2 ^ 64) cs).map (BitVec.ofNat 64)

/-- Every implemented CSR address (R34). -/
def csrAddresses : List Half :=
  [0x0000#16, 0x0001#16, 0x0002#16, 0x0003#16, 0x0004#16, 0x0005#16, 0x0010#16, 0x0011#16, 0x0020#16,
   0x0021#16, 0x0022#16, 0x0030#16, 0x0031#16, 0x0032#16, 0x0033#16, 0x0034#16, 0x0035#16, 0x0036#16,
   0x0037#16, 0x0040#16, 0x0041#16, 0x0042#16, 0x0043#16, 0x0044#16, 0x0045#16, 0x0046#16, 0x0047#16,
   0x0050#16, 0x0051#16, 0x0052#16, 0x0053#16, 0x0060#16, 0x0061#16, 0x0062#16]

/-- A CSR operand: a name, or a 16-bit number. -/
def csrOf (cs : List Char) : Option Half :=
  match csrAddresses.find? fun a => (csrText a).toList == cs with
  | some a => some a
  | none => (natOf (2 ^ 16) cs).map (BitVec.ofNat 16)

/-- The position of a name in a list. -/
def nameIndex (names : List String) (cs : List Char) : Option Nat :=
  names.findIdx? fun n => n.toList == cs

/-- The IDX operand off the front of the operands. -/
def takeIdx (o : Opcode) (ops : List (List Char)) : Option (Byte × List (List Char)) :=
  match idxLetters o with
  | none => some (0#8, ops)
  | some l =>
    match ops with
    | [] => none
    | cs :: rest =>
      if cs.take l.length == l.toList then
        match digitsValue 10 (cs.drop l.length) with
        | some n => if n < 256 then some (BitVec.ofNat 8 n, rest) else none
        | none => none
      else none

/-- The IMM operand off the front of the operands. -/
def takeImm (k : ImmKind) (ops : List (List Char)) : Option (Half × List (List Char)) :=
  match k, ops with
  | .zero, _ => some (0#16, ops)
  | .csr, cs :: rest => (csrOf cs).map fun a => (a, rest)
  | .streamCode, cs :: rest => (natOf (2 ^ 16) cs).map fun n => (BitVec.ofNat 16 n, rest)
  | .coefSelector, st :: co :: rest =>
    match nameIndex stageNames st, nameIndex coefNames co with
    | some a, some b => some (BitVec.ofNat 16 (8 * a + b), rest)
    | _, _ => none
  | .zeroBit, [] => some (0#16, [])
  | .zeroBit, cs :: rest => if cs == "zero".toList then some (1#16, rest) else none
  | .csr, [] => none
  | .streamCode, [] => none
  | .coefSelector, [] => none
  | .coefSelector, [_] => none

/-- An operand dword: CSR_WRITE's value by the kind of its CSR, another by its type. R81 gives a value's
form for an integer CSR and for a binary64 CSR only. DESIGN CHOICE (log entry 16), safe for the machine: at
an address of no implemented CSR the value is read as an integer, and for a binary64 CSR the raw 0x form of
an f64 operand is read too. -/
def dwordOf (o : Opcode) (imm : Half) (k : Nat) (cs : List Char) : Option Dword :=
  match o with
  | .csrWrite =>
    match csrAt imm with
    | none => u64Of cs
    | some r => if csrIsF64 r then f64Of cs else u64Of cs
  | _ => if operandIsU64 o k then u64Of cs else f64Of cs

/-- The operand dwords from the k-th on. -/
def dwordsOf (o : Opcode) (imm : Half) : Nat → List (List Char) → Option (List Dword)
  | _, [] => some []
  | k, cs :: rest =>
    match dwordOf o imm k cs, dwordsOf o imm (k + 1) rest with
    | some d, some ds => some (d :: ds)
    | _, _ => none

/-- The command of a mnemonic and its operands. -/
def commandOf (o : Opcode) (ops : List (List Char)) : Option Instr :=
  match takeIdx o ops with
  | none => none
  | some (idx, ops1) =>
    match takeImm o.row.imm ops1 with
    | none => none
    | some (imm, ops2) =>
      match dwordsOf o imm 0 ops2 with
      | none => none
      | some ds =>
        if ds.length = o.row.nops then some (buildInstr o idx imm fun k => ds.getD k 0#64) else none

/-! ## Pseudo-instructions (R82) -/

/-- `FD_FRAME x0, …, x(C−1)`: one FD_PUSH for each sample. -/
def fdFrame (xs : List F64) : List Instr := xs.map .fdPush

/-- `CP_PAD`: a CP_FRAME of a zero frame. -/
def cpPad : List Instr := [.cpFrame true]

/-- `CSR_CLEAR csr`. -/
def csrClear (a : Half) : List Instr := [.csrWrite a 0#64]

/-- `LU_RESULTS` for NA accumulators. -/
def luResults (na : Byte) : List Instr :=
  (List.range na.toNat).map fun k => .luResult (BitVec.ofNat 8 k)

/-- `TP_RESULTS` for NA accumulators. -/
def tpResults (na : Byte) : List Instr :=
  (List.range na.toNat).map fun k => .tpResult (BitVec.ofNat 8 k)

/-- `CFG c, fs`. -/
def cfg (c fs : Dword) : List Instr := [.csrWrite 0x0010#16 c, .csrWrite 0x0011#16 fs]

/-- The commands of a pseudo-instruction; `luNa` and `tpNa` are the units' NA, which the assembler's user
knows. -/
def pseudoOf (luNa tpNa : Byte) (m : String) (ops : List (List Char)) : Option (List Instr) :=
  match m, ops with
  | "FD_FRAME", xs => (dwordsOf .fdPush 0#16 0 xs).map fdFrame
  | "CP_PAD", [] => some cpPad
  | "CSR_CLEAR", [a] => (csrOf a).map csrClear
  | "LU_RESULTS", [] => some (luResults luNa)
  | "TP_RESULTS", [] => some (tpResults tpNa)
  | "CFG", [c, fs] =>
    match u64Of c, u64Of fs with
    | some c, some fs => some (cfg c fs)
    | _, _ => none
  | _, _ => none

/-- The commands of one line (R81, R82): what follows a `;` is a comment, an empty line gives none. -/
def assemble (luNa tpNa : Byte) (text : String) : Option (List Instr) :=
  let cs := trim (text.toList.takeWhile fun c => !(c == ';'))
  let isBlank := fun c : Char => c == ' ' || c == '\t'
  let m := String.ofList (cs.takeWhile fun c => !isBlank c)
  let rest := trim (cs.dropWhile fun c => !isBlank c)
  let ops := if rest.isEmpty then [] else (splitCommas rest).map trim
  if cs.isEmpty then some []
  else
    match Opcode.all.find? fun o => mnemonic o == m with
    | some o => (commandOf o ops).map fun i => [i]
    | none => pseudoOf luNa tpNa m ops

end Sys2Proof.Machine.Assembly
end

