-- ==== Sys2Proof/Tests/Slice0.lean ====
section
/-! SUPPORT. Tests of the model against words and values of the spec (`30_encoding.md` rules R69 to R78,
`95_test_vectors.md`), and for each obligation with hypotheses a concrete state that meets them. -/

namespace Sys2Proof.Tests

-- One theorem after another: kernel evaluations in parallel wait for each other, a thread for each.
set_option Elab.async false

open Sys2Proof.Machine Sys2Proof.Claims

/-! ## Well-formedness: the one check of R77, refused for each reserved selector -/

theorem test_selector_5_refused : (Instr.luCoefRead 0x5#4).wellFormed = false := by decide
theorem test_selector_6_refused : (Instr.luCoefRead 0x6#4).wellFormed = false := by decide
theorem test_selector_7_refused : (Instr.luCoefRead 0x7#4).wellFormed = false := by decide
theorem test_selector_13_refused : (Instr.luCoefRead 0xD#4).wellFormed = false := by decide
theorem test_selector_14_refused : (Instr.luCoefRead 0xE#4).wellFormed = false := by decide
theorem test_selector_15_refused : (Instr.luCoefRead 0xF#4).wellFormed = false := by decide
theorem test_selector_4_and_12_accepted :
    (Instr.luCoefRead 0x4#4).wellFormed = true ∧ (Instr.luCoefRead 0xC#4).wellFormed = true := by decide

/-! ## Decoding: words written out from R69 and R75, each field and each operand dword at another value -/

theorem test_decode_nop : decodeTableWord 32 0x00000000 = some .nop := by decide +kernel
theorem test_decode_reset : decodeTableWord 32 0x01000000 = some .reset := by decide +kernel
theorem test_decode_csrRead : decodeTableWord 32 0x02000062 = some (.csrRead 0x0062#16) := by
  decide +kernel
theorem test_decode_csrWrite :
    decodeTableWord 96 0x401000000000000003000041
      = some (.csrWrite 0x0041#16 0x4010000000000000#64) := by decide +kernel
theorem test_decode_bqInit :
    decodeTableWord 352 0x3FD0000000000000BFE00000000000003FC00000000000003FD00000000000003FE000000000000010070000
      = some (.bqInit 7#8 0x3FE0000000000000#64 0x3FD0000000000000#64 0x3FC0000000000000#64
          0xBFE0000000000000#64 0x3FD0000000000000#64) := by decide +kernel
theorem test_decode_bqProcess :
    decodeTableWord 96 0x3FF000000000000011080000 = some (.bqProcess 8#8 0x3FF0000000000000#64) := by
  decide +kernel
theorem test_decode_firInit :
    decodeTableWord 160 0x0000000000000020000000000000000420010000 = some (.firInit 1#8 4#64 32#64) := by
  decide +kernel
theorem test_decode_firProcess :
    decodeTableWord 96 0x3FD333333333333321030000 = some (.firProcess 3#8 0x3FD3333333333333#64) := by
  decide +kernel
theorem test_decode_lagInit :
    decodeTableWord 224 0x40000000000000003FD999999999999A3FC999999999999A30020000
      = some (.lagInit 2#8 0x3FC999999999999A#64 0x3FD999999999999A#64 0x4000000000000000#64) := by
  decide +kernel
theorem test_decode_lagProcess :
    decodeTableWord 96 0x7FF800000000000031050000 = some (.lagProcess 5#8 0x7FF8000000000000#64) := by
  decide +kernel
theorem test_decode_lagProcessInitial :
    decodeTableWord 96 0x800000000000000032060000
      = some (.lagProcessInitial 6#8 0x8000000000000000#64) := by decide +kernel
theorem test_decode_lagSettlingLen :
    decodeTableWord 96 0x400000000000000033000000
      = some (.lagSettlingLen 0x4000000000000000#64) := by decide +kernel
theorem test_decode_mmxInit :
    decodeTableWord 96 0x000000000010000040040000 = some (.mmxInit 4#8 0x100000#64) := by decide +kernel
theorem test_decode_mmxProcess :
    decodeTableWord 96 0x400800000000000041000000 = some (.mmxProcess 0#8 0x4008000000000000#64) := by
  decide +kernel
theorem test_decode_mrmsInit :
    decodeTableWord 160 0x4008000000000000000000000000000250030000
      = some (.mrmsInit 3#8 2#64 0x4008000000000000#64) := by decide +kernel
theorem test_decode_mrmsProcess :
    decodeTableWord 96 0x400000000000000051FF0000 = some (.mrmsProcess 255#8 0x4000000000000000#64) := by
  decide +kernel
theorem test_decode_mrmsRefresh : decodeTableWord 32 0x52020000 = some (.mrmsRefresh 2#8) := by
  decide +kernel
theorem test_decode_mrmsReadAcc : decodeTableWord 32 0x53010000 = some (.mrmsReadAcc 1#8) := by
  decide +kernel
theorem test_decode_fdInit : decodeTableWord 32 0x60000000 = some .fdInit := by decide +kernel
theorem test_decode_fdPush :
    decodeTableWord 96 0xBFE000000000000061000000 = some (.fdPush 0xBFE0000000000000#64) := by
  decide +kernel
theorem test_decode_fdPushErr : decodeTableWord 32 0x62000013 = some (.fdPushErr 0x0013#16) := by
  decide +kernel
theorem test_decode_fdEnd : decodeTableWord 32 0x63000000 = some .fdEnd := by decide +kernel
theorem test_decode_fdRead : decodeTableWord 32 0x64010000 = some (.fdRead 1#8) := by decide +kernel
theorem test_decode_luInit : decodeTableWord 32 0x70000000 = some .luInit := by decide +kernel
theorem test_decode_luFrame : decodeTableWord 32 0x71000000 = some .luFrame := by decide +kernel
theorem test_decode_luFinalize : decodeTableWord 32 0x72000000 = some .luFinalize := by decide +kernel
theorem test_decode_luResult : decodeTableWord 32 0x73050000 = some (.luResult 5#8) := by decide +kernel
theorem test_decode_luHistRead :
    decodeTableWord 96 0x0000000000001E7974020000 = some (.luHistRead 2#8 7801#64) := by decide +kernel
theorem test_decode_luCoefRead : decodeTableWord 32 0x7500000B = some (.luCoefRead 0xB#4) := by
  decide +kernel
theorem test_decode_tpInit : decodeTableWord 32 0x80000000 = some .tpInit := by decide +kernel
theorem test_decode_tpFrame : decodeTableWord 32 0x81000000 = some .tpFrame := by decide +kernel
theorem test_decode_tpResult : decodeTableWord 32 0x82010000 = some (.tpResult 1#8) := by decide +kernel
theorem test_decode_cpInit : decodeTableWord 32 0x90000000 = some .cpInit := by decide +kernel
theorem test_decode_cpFrame :
    decodeTableWord 32 0x91000000 = some (.cpFrame false) ∧
      decodeTableWord 32 0x91000001 = some (.cpFrame true) := by decide +kernel
theorem test_decode_cpFrameInitial : decodeTableWord 32 0x92000000 = some .cpFrameInitial := by
  decide +kernel

/-- R53: the word and the operand dword of CT-6 as bytes, least significant first. -/
theorem test_decode_bytes_little_endian :
    decode [0x41#8, 0x00#8, 0x00#8, 0x03#8, 0x00#8, 0x00#8, 0x00#8, 0x00#8, 0x00#8, 0x00#8, 0x10#8, 0x40#8,
        0xAA#8]
      = .command (.csrWrite 0x0041#16 0x4010000000000000#64) [0xAA#8] := by decide +kernel

/-- R78: illegal words of each kind: an unassigned OP, IDX or IMM not 0, a reserved selector (LU-13), and
CP-10. -/
theorem test_decode_illegal :
    decodeTableWord 32 0x12000000 = none ∧ decodeTableWord 32 0xFF000000 = none ∧
    decodeTableWord 32 0x01010000 = none ∧ decodeTableWord 32 0x01000001 = none ∧
    decodeTableWord 96 0x3FF000000000000011090001 = none ∧
    decodeTableWord 32 0x75000005 = none ∧ decodeTableWord 32 0x75000010 = none ∧
    decodeTableWord 32 0x91000002 = none := by decide +kernel

/-! ## The assembler's text (R81) and pseudo-instructions (R82) -/

theorem test_print_hp_a1 : Assembly.print (.luCoefRead 0xB#4) = "LU_COEF_READ hp, a1" := by decide +kernel
theorem test_print_zero : Assembly.print (.cpFrame true) = "CP_FRAME zero" := by decide +kernel
theorem test_print_operand :
    Assembly.print (.csrWrite 0x0041#16 0x4010000000000000#64)
      = "CSR_WRITE CP_RATIO, 0x4010000000000000" := by decide +kernel
/-- The four examples of R81. -/
theorem test_assemble_examples :
    Assembly.assemble 1#8 1#8 "BQ_PROCESS bq2, 0.5" = some [.bqProcess 2#8 0x3FE0000000000000#64] ∧
    Assembly.assemble 1#8 1#8 "CSR_WRITE CP_RATIO, 4.0 ; ratio"
      = some [.csrWrite 0x0041#16 0x4010000000000000#64] ∧
    Assembly.assemble 1#8 1#8 "LU_COEF_READ hp, a1" = some [.luCoefRead 0xB#4] ∧
    Assembly.assemble 1#8 1#8 "CP_FRAME zero" = some [.cpFrame true] := by decide +kernel
/-- R82. -/
theorem test_assemble_cfg :
    Assembly.assemble 1#8 1#8 "CFG 2, 10"
      = some [.csrWrite 0x0010#16 2#64, .csrWrite 0x0011#16 10#64] := by decide +kernel
/-- 1.41 of R43, and its raw form read back. -/
theorem test_assemble_decimal :
    Assembly.assemble 1#8 1#8 "FD_PUSH 1.41" = some [.fdPush 0x3FF68F5C28F5C28F#64] ∧
    Assembly.assemble 1#8 1#8 (Assembly.print (.fdPush 0x3FF68F5C28F5C28F#64))
      = some [.fdPush 0x3FF68F5C28F5C28F#64] := by decide +kernel

/-! ## Helpers: the next state of a command, and small states -/

/-- The state an outcome carries. -/
def nextOf : Host.Outcome State Fault Refusal → State
  | .next t => t
  | .fault _ => State.reset
  | .refused _ => State.reset

/-- The state after a command. -/
def run (i : Instr) (s : State) : State := nextOf (exec i s)

/-- NaN. -/
def vNaN : F64 := 0x7FF8000000000000#64
/-- 1.0, 0.5, 0.25 and 2.0. -/
def v1 : F64 := 0x3FF0000000000000#64
def vHalf : F64 := 0x3FE0000000000000#64
def vQuarter : F64 := 0x3FD0000000000000#64
def v2 : F64 := 0x4000000000000000#64
/-- −1.0. -/
def vNeg1 : F64 := 0xBFF0000000000000#64
/-- +inf. -/
def vInf : F64 := 0x7FF0000000000000#64

/-- The state after reset with an error latched. -/
def latched : State := { State.reset with err := 8#8, errInfo := 0x11000000#64 }

/-- The state after reset with a channel count and a rate. -/
def withCfg (c : Byte) (fs : Word) : State :=
  { State.reset with cfg := { ConfigRegs.reset with channels := c, fs := fs } }

/-- Biquad 0 READY with BQ-1's coefficients and given last values. -/
def withBq (st : BqState) : State :=
  { State.reset with bq := State.reset.bq.set 0 ⟨true, ⟨vHalf, vQuarter, 0x3FC0000000000000#64,
      0xBFE0000000000000#64, vQuarter⟩, st⟩ }

/-- FIR 0 READY with the kernel of FIR-1 and a given ring. -/
def withFir (buf : List F64) : State :=
  { State.reset with fir := State.reset.fir.set 0 ⟨true, 2#64, 1#64, 3#64,
      [0x3FD9F02F6222C721#64, v1, 0x3FD9F02F6222C721#64], buf⟩ }

/-- Lag1 0 READY as after LAG-1 (rise 0.5, fall 0.25, gain 2.0) at a given level. -/
def withLag (level : F64) : State :=
  { State.reset with lag := State.reset.lag.set 0 ⟨true, ⟨vHalf, vQuarter, v2, level⟩⟩ }

/-- MovMax 0 READY with W = 2, a window and its candidates. -/
def withMmx (win cand : List F64) : State :=
  { State.reset with mmx := State.reset.mmx.set 0 ⟨true, ⟨2#64, win, cand⟩⟩ }

/-- MovRms 0 READY with W = 2 and gain 3.0. -/
def withMrms (sq : List F64) (acc : F64) (cnt : Dword) : State :=
  { State.reset with mrms := State.reset.mrms.set 0 ⟨true, ⟨2#64, 0x4008000000000000#64, sq, acc,
      cnt⟩⟩ }

/-- The FD READY with C channels, these first samples and a fill. -/
def withFd (c : Byte) (x0 x1 : F64) (cnt : Dword) (eos : Bool) (s : State) : State :=
  { s with fd := ⟨true, c, #v[x0, x1, 0#64, 0#64, 0#64, 0#64, 0#64, 0#64], cnt, eos⟩ }

/-- A section that passes its input unchanged. -/
def identityCoef : BqCoef := ⟨v1, 0#64, 0#64, 0#64, 0#64⟩

/-- A loudness unit of one channel of weight 1.0 with identity filters, B = 1 and O = 1. -/
def luUnit (w : F64) (acc : LuAcc) (committed : Bool) : Loudness where
  ready := true
  c := 1#8
  fs := 10#32
  indep := false
  strict := true
  blockN := 1#64
  hopN := 1#64
  ks := identityCoef
  kh := identityCoef
  chans := [⟨w, .zero, .zero⟩]
  na := 1#8
  accs := [acc]
  n := 0#64
  committed := committed

/-- An accumulator with a ring and an empty histogram. -/
def luRing (blk : List F64) : LuAcc :=
  ⟨blk, BitVec.ofNat 64 blk.length, List.replicate 7801 0#64⟩

/-- The state after reset with that loudness unit. -/
def withLu (u : Loudness) : State := { State.reset with lu := u }

/-- A true-peak unit of one channel with the identity kernel. -/
def withTp (m : F64) : State :=
  { State.reset with tp := ⟨true, 1#8, false, 1#64, [v1], [[0#64]], 1#8, [m]⟩ }

/-- A compressor of one channel with L = 1, Wp = 1, T = 0, R = 4, KW = 0 and M = 20 (as CP-2 but for the
knee), an RMS detector and an envelope of gain 1.0. -/
def cpUnit (det : Bool) (pre : CpPre) : Compressor :=
  { Compressor.reset with
    ready := true, c := 1#8, fs := 10#32, det := det, r := 0x4010000000000000#64,
    m := 0x4034000000000000#64, len := 1#64, winN := 1#64, pre := pre,
    env := ⟨v1, v1, v1, 0#64⟩, fifo := [[v1]] }

/-- The zero RMS preprocessor of window 1. -/
def rmsPre : CpPre := .rms ⟨1#64, v1, [0#64], 0#64, 0#64⟩
/-- The empty Peak preprocessor of window 1. -/
def peakPre : CpPre := .peak ⟨1#64, [], []⟩

/-- The state after reset with that compressor. -/
def withCp (u : Compressor) : State := { State.reset with cp := u }

/-- Settings that CP_INIT accepts at fs = 10: R = 2, look-ahead 0.2 s (CP-1). -/
def goodSet : CpSettings :=
  ⟨0#64, v2, 0#64, 0#64, 0#64, 0x3FC999999999999A#64, 0#64, 0#64⟩

/-- One channel at 10 Hz with these settings. -/
def withSet (k : CpSettings) : State :=
  { State.reset with cfg := { ConfigRegs.reset with channels := 1#8, fs := 10#32, set := k } }

/-! ## One step of each command (values of `95_test_vectors.md` where a docstring names one) -/

/-- CT-16. -/
theorem test_nop_while_latched : run .nop latched = latched := by decide +kernel
/-- CT-14. -/
theorem test_reset_clears : run .reset latched = State.reset := by decide +kernel
/-- CT-1. -/
theorem test_csrRead_id : (run (.csrRead 0#16) State.reset).results = [0x4146584300000007#64] := by
  decide +kernel
/-- CT-7. -/
theorem test_csrRead_unimplemented :
    (run (.csrRead 6#16) State.reset).err = 7#8 ∧
    (run (.csrRead 6#16) State.reset).errInfo = 0x0000000002000006#64 ∧
    (run (.csrRead 6#16) State.reset).results = [0xFFFFFFFFFFFFFFFF#64] := by decide +kernel
/-- CT-5. -/
theorem test_csrWrite_channels :
    (run (.csrWrite 0x10#16 0x100000003#64) State.reset).cfg.channels = 3#8 := by decide +kernel
/-- CT-8. -/
theorem test_csrWrite_readOnly : (run (.csrWrite 0#16 0#64) State.reset).err = 7#8 := by decide +kernel
/-- BQ-6. -/
theorem test_bqInit_clears :
    (run (.bqInit 0#8 vHalf vQuarter 0x3FC0000000000000#64 0xBFE0000000000000#64 vQuarter)
      (withBq ⟨v1, v1, v1, v1⟩)).bq[0].st = ⟨0#64, 0#64, 0#64, 0#64⟩ := by decide +kernel
/-- BQ-1, fifth output: −0.0625 from y1 = 0.0, y2 = 0.25. -/
theorem test_bqProcess_fifth :
    (run (.bqProcess 0#8 0#64) (withBq ⟨0#64, 0#64, 0#64, vQuarter⟩)).results
      = [0xBFB0000000000000#64] := by decide +kernel
/-- CT-12. -/
theorem test_bqProcess_notReady : (run (.bqProcess 0#8 v1) State.reset).err = 8#8 := by decide +kernel
/-- FIR-6. -/
theorem test_firInit_tooLong : (run (.firInit 1#8 4#64 33#64) State.reset).err = 3#8 := by decide +kernel
/-- FIR-10. -/
theorem test_firInit_index : (run (.firInit 4#8 1#64 1#64) State.reset).err = 6#8 := by decide +kernel
/-- FIR-3, third output: 1.8105694691387022. -/
theorem test_firProcess_third :
    (run (.firProcess 0#8 v1) (withFir [0#64, v1, v1])).results = [0x3FFCF817B1116390#64] := by
  decide +kernel
/-- LAG-4: the factor 1.0000000000000002 at 49 Hz. -/
theorem test_lagInit_factor :
    (run (.lagInit 1#8 0#64 0#64 v1) (withCfg 0#8 49#32)).lag[1].lag.rise = 0x3FF0000000000001#64 := by
  decide +kernel
/-- LAG-6. -/
theorem test_lagInit_infinite : (run (.lagInit 0#8 vInf v1 v1) (withCfg 0#8 10#32)).err = 3#8 := by
  decide +kernel
/-- LAG-2, third output: 1.125 from level 0.75. -/
theorem test_lagProcess_fall :
    (run (.lagProcess 0#8 0#64) (withLag 0x3FE8000000000000#64)).results = [0x3FF2000000000000#64] := by
  decide +kernel
/-- LAG-3, second output: 0.75 from level 0.5. -/
theorem test_lagProcessInitial_rise :
    (run (.lagProcessInitial 0#8 v1) (withLag vHalf)).results = [0x3FE8000000000000#64] := by
  decide +kernel
/-- LAG-11 and LAG-12 (+inf). -/
theorem test_lagSettlingLen :
    (run (.lagSettlingLen v2) (withCfg 0#8 10#32)).results = [14#64] ∧
    (run (.lagSettlingLen vInf) (withCfg 0#8 10#32)).results = [0xFFFFFFFFFFFFFFFF#64] := by
  decide +kernel
/-- MMX-9. -/
theorem test_mmxInit_tooLong : (run (.mmxInit 0#8 1048577#64) State.reset).err = 3#8 := by decide +kernel
/-- MMX-2, fourth output: 1 after 3 leaves the window. -/
theorem test_mmxProcess_evicts :
    (run (.mmxProcess 0#8 v1)
      (withMmx [0x4008000000000000#64, v1] [0x4008000000000000#64, v1])).results = [v1] := by
  decide +kernel
/-- MMX-7. -/
theorem test_mmxProcess_nan :
    (run (.mmxProcess 0#8 vNaN) (withMmx [v1] [v1])).err = 9#8 ∧
    (run (.mmxProcess 0#8 vNaN) (withMmx [v1] [v1])).errInfo = 0x0000000041000000#64 ∧
    (run (.mmxProcess 0#8 vNaN) (withMmx [v1] [v1])).mmx = (withMmx [v1] [v1]).mmx := by
  decide +kernel
/-- MRMS-6. -/
theorem test_mrmsInit_zero : (run (.mrmsInit 0#8 0#64 v1) State.reset).err = 3#8 := by decide +kernel
/-- MRMS-2, first output: 4.242640687119286. -/
theorem test_mrmsProcess_first :
    (run (.mrmsProcess 0#8 v2) (withMrms [0#64, 0#64] 0#64 0#64)).results
      = [0x4010F876CCDF6CDA#64] := by decide +kernel
/-- R112: the counter reaching 2^20 refreshes the sum from the ring. -/
theorem test_mrmsProcess_refreshes :
    (run (.mrmsProcess 0#8 0#64) (withMrms [0#64, v1] v2 0xFFFFF#64)).mrms[0].rms.acc = v1 := by
  decide +kernel
/-- R116: the sum is retaken and the counter stays. -/
theorem test_mrmsRefresh :
    (run (.mrmsRefresh 0#8) (withMrms [v1, v1] 0#64 5#64)).mrms[0].rms.acc = v2 ∧
    (run (.mrmsRefresh 0#8) (withMrms [v1, v1] 0#64 5#64)).mrms[0].rms.cnt = 5#64 := by decide +kernel
/-- R117. -/
theorem test_mrmsReadAcc : (run (.mrmsReadAcc 0#8) (withMrms [v1, v1] v2 5#64)).results = [v2] := by
  decide +kernel
/-- FD-8. -/
theorem test_fdInit_tooMany : (run .fdInit (withCfg 9#8 0#32)).err = 3#8 := by decide +kernel
/-- FD-1: the second push completes the frame. -/
theorem test_fdPush_completes :
    (run (.fdPush vHalf) (withFd 2#8 vQuarter 0#64 1#64 false State.reset)).fd.valid = true ∧
    (run (.fdPush vHalf) (withFd 2#8 vQuarter 0#64 1#64 false State.reset)).fd.frame[1] = vHalf := by
  decide +kernel
/-- FD-5. -/
theorem test_fdPush_afterEnd :
    (run (.fdPush v1) (withFd 2#8 vQuarter vHalf 2#64 true State.reset)).err = 8#8 := by decide +kernel
/-- FD-6. -/
theorem test_fdPushErr :
    (run (.fdPushErr 0x13#16) State.reset).err = 4#8 ∧
    (run (.fdPushErr 0x13#16) State.reset).errInfo = 0x0000001362000013#64 := by decide +kernel
/-- FD-4. -/
theorem test_fdEnd_insideFrame :
    (run .fdEnd (withFd 2#8 v1 vHalf 1#64 false State.reset)).err = 1#8 := by decide +kernel
/-- FD-2. -/
theorem test_fdRead :
    (run (.fdRead 1#8) (withFd 2#8 vQuarter 0xBFE0000000000000#64 2#64 false State.reset)).results
      = [0xBFE0000000000000#64] := by decide +kernel
/-- LU-7 and LU-8: B and O at 48000 Hz and 44100 Hz. -/
theorem test_luInit_lengths :
    (run .luInit (withCfg 2#8 48000#32)).lu.blockN = 19200#64 ∧
    (run .luInit (withCfg 2#8 48000#32)).lu.hopN = 4800#64 ∧
    (run .luInit (withCfg 1#8 44100#32)).lu.blockN = 17640#64 ∧
    (run .luInit (withCfg 1#8 44100#32)).lu.hopN = 4410#64 := by decide +kernel
/-- LU-9. -/
theorem test_luInit_rate : (run .luInit (withCfg 1#8 9#32)).err = 3#8 := by decide +kernel
/-- The index of E = 1.0 is 7000, and of E = 0.0 is −inf (`95_test_vectors.md` section 2.8). -/
theorem test_luIndex :
    luIndex v1 = fOfNat 7000 ∧ luIndex 0#64 = 0xFFF0000000000000#64 := by decide +kernel
/-- R135, R136: the energy of 1.0 enters the ring, the frame is counted, and the block is committed. -/
theorem test_luFrame :
    (run .luFrame (withFd 1#8 v1 0#64 1#64 false (withLu (luUnit v1 ⟨[], 0#64, []⟩ false)))).lu.accs
      = [⟨[v1], 1#64, []⟩] ∧
    (run .luFrame (withFd 1#8 v1 0#64 1#64 false
      (withLu (luUnit v1 ⟨[], 0#64, []⟩ false)))).lu.committed = true := by decide +kernel
/-- R137: a forced commit of a partial ring, then never again. -/
theorem test_luFinalize :
    (run .luFinalize (withLu (luUnit v1 (luRing [v1]) false))).lu.committed = true ∧
    (run .luFinalize (withLu (luUnit v1 ⟨[v1], 1#64, [0#64]⟩ true))).lu
      = luUnit v1 ⟨[v1], 1#64, [0#64]⟩ true := by
  decide +kernel
/-- S3: an empty histogram gives +0.0. -/
theorem test_luResult_empty :
    (run (.luResult 0#8) (withLu (luUnit v1 (luRing []) false))).results = [0#64] := by decide +kernel
/-- LU-14, and the last bin. -/
theorem test_luHistRead :
    (run (.luHistRead 0#8 7801#64) (withLu (luUnit v1 (luRing []) false))).err = 6#8 ∧
    (run (.luHistRead 0#8 7800#64) (withLu (luUnit v1 (luRing []) false))).results = [0#64] := by
  decide +kernel
/-- R77, R143: selector 8 is the high-pass b0. -/
theorem test_luCoefRead :
    (run (.luCoefRead 8#4) (withLu { luUnit v1 (luRing []) false with
      kh := ⟨v2, 0#64, 0#64, 0#64, 0#64⟩ })).results = [v2] := by decide +kernel
/-- R146: INDEPENDENT = 0 gives one maximum, +0.0. -/
theorem test_tpInit : (run .tpInit (withCfg 2#8 0#32)).tp.m = [0#64] := by decide +kernel
/-- R147: the magnitude of a negative sub-sample; a NaN is ignored (TP-8). -/
theorem test_tpFrame :
    (run .tpFrame (withFd 1#8 0xC000000000000000#64 0#64 1#64 false (withTp v1))).tp.m = [v2] ∧
    (run .tpFrame (withFd 1#8 vNaN 0#64 1#64 false (withTp v1))).tp.m = [v1] := by decide +kernel
/-- TP-9. -/
theorem test_tpResult :
    (run (.tpResult 0#8) (withTp 0#64)).results = [0#64] ∧ (run (.tpResult 1#8) (withTp 0#64)).err = 6#8 := by
  decide +kernel
/-- P2: CP_DELAY_N = 2. -/
theorem test_cpInit_delay : (run .cpInit (withSet goodSet)).cp.len = 2#64 := by decide +kernel
/-- CP-6 and CP-7. -/
theorem test_cpInit_refuses :
    (run .cpInit (withSet { goodSet with ratio := v1 })).err = 3#8 ∧
    (run .cpInit (withSet { goodSet with lookaheadS := 0x3FA999999999999A#64 })).err = 3#8 := by
  decide +kernel
/-- R160: the FIFO takes the consumed frame, and silence below the knee gets the make-up gain (CP-2). -/
theorem test_cpFrame_zero :
    (run (.cpFrame true) (withCp (cpUnit true rmsPre))).cp.fifo = [[0#64]] ∧
    (run (.cpFrame true) (withCp (cpUnit true rmsPre))).cp.gainDb = 0x4034000000000000#64 := by
  decide +kernel
/-- CP-9. -/
theorem test_cpFrame_notReady :
    (run (.cpFrame false) State.reset).err = 8#8 ∧ (run (.cpFrame false) State.reset).results = [] := by
  decide +kernel
/-- R162: the level moves and the FIFO does not. -/
theorem test_cpFrameInitial :
    (run .cpFrameInitial (withFd 1#8 v2 0#64 1#64 false (withCp (cpUnit true rmsPre)))).cp.env.level = v2 ∧
    (run .cpFrameInitial (withFd 1#8 v2 0#64 1#64 false (withCp (cpUnit true rmsPre)))).cp.fifo
      = [[v1]] := by decide +kernel

/-- P3: an unassigned word while an error is latched is discarded. -/
theorem test_step_illegal :
    nextOf (step { State.reset with port := [0#8, 0#8, 0#8, 0x12#8] })
      = { State.reset with err := 5#8, errInfo := 0x0000000012000000#64 } ∧
    nextOf (step { latched with port := [0#8, 0#8, 0#8, 0x12#8] }) = latched := by decide +kernel

/-! ## Witnesses: for each obligation with hypotheses, a state and operands that meet them

Where a statement has several clauses, there is a part for each, at a boundary of its range. -/

/-- Every command answers its next state. -/
theorem exec_run (i : Instr) (s : State) : exec i s = .next (run i s) := by cases i <;> rfl

/-- A decidable property of every element of a list, by running through the list. -/
theorem forall_of_all {α : Type} {P : α → Prop} (p : α → Bool) {l : List α} (h : l.all p = true)
    (hp : ∀ x, p x = true → P x := by intro x h; exact of_decide_eq_true h) : ∀ x ∈ l, P x :=
  fun x hx => hp x (List.all_eq_true.mp h x hx)

theorem witness_StepRunsDecodedCommand :
    decode (encode (.bqProcess 255#8 vNaN) ++ [1#8]) = .command (.bqProcess 255#8 vNaN) [1#8] := by
  decide +kernel

theorem witness_StepWaitsForAWholeCommand :
    decode [] = .incomplete ∧ decode [0#8, 0#8, 0#8] = .incomplete ∧
    decode [0#8, 0#8, 0#8, 0x61#8, 0#8, 0#8, 0#8, 0#8, 0#8, 0#8, 0#8] = .incomplete := by decide +kernel

theorem witness_DecodeInvertsEncode :
    (Instr.luCoefRead 0#4).wellFormed = true ∧ (Instr.luCoefRead 0xC#4).wellFormed = true ∧
    (Instr.bqInit 255#8 v1 v1 v1 v1 vNaN).wellFormed = true := by decide

theorem witness_EncodeInvertsDecode :
    decode [1#8, 0#8, 0#8, 0x91#8, 0xFF#8] = .command (.cpFrame true) [0xFF#8] := by decide +kernel

theorem witness_IllegalWordsRaiseIllegalCommand_op :
    State.reset.err = 0#8 ∧
    (∀ op ∈ [0x04, 0x0F, 0x12, 0x1F, 0x22, 0x2F, 0x34, 0x3F, 0x42, 0x4F, 0x54, 0x5F, 0x65, 0x6F, 0x76,
        0x7F, 0x83, 0x8F, 0x93, 0xFF],
      opUnassigned ((BitVec.ofNat 8 op ++ 0#24).extractLsb' 24 8).toNat) ∧
    (fun s : State => s.port = bytesOfWord 0x12000000#32 ++ [])
      { State.reset with port := [0#8, 0#8, 0#8, 0x12#8] } := by
  refine ⟨rfl, ?_, by decide⟩
  unfold opUnassigned
  decide

theorem witness_IllegalWordsRaiseIllegalCommand_fields :
    ([vNaN].length = Opcode.bqProcess.row.nops ∧ Opcode.bqProcess.row.imm = .zero ∧ 1#16 ≠ 0#16 ∧
      (fun s : State => s.port =
        bytesOfWord (Opcode.bqProcess.row.code ++ 9#8 ++ 1#16) ++ [vNaN].flatMap bytesOfDword ++ [])
        { State.reset with port := [1#8, 0#8, 9#8, 0x11#8, 0#8, 0#8, 0#8, 0#8, 0#8, 0#8, 0xF8#8, 0x7F#8] }) ∧
    (([] : List Dword).length = Opcode.reset.row.nops ∧ Opcode.reset.row.idx = .zero ∧ 1#8 ≠ 0#8) ∧
    (([] : List Dword).length = Opcode.luCoefRead.row.nops ∧ (0x0010#16 : Half).extractLsb' 4 12 ≠ 0#12 ∧
      4 < ((0x0005#16 : Half).extractLsb' 0 3).toNat) ∧
    (([] : List Dword).length = Opcode.cpFrame.row.nops ∧ (0x0002#16 : Half).extractLsb' 1 15 ≠ 0#15) := by
  decide +kernel

theorem witness_RaisedErrorChangesOnlyTheLatch :
    (State.reset.err = 0#8 ∧ (run (.csrRead 6#16) State.reset).err ≠ 0#8) ∧
    (latched.err ≠ 0#8 ∧ Instr.csrRead 6#16 ≠ .reset) ∧
    decode [0#8, 0#8, 0#8, 0x12#8] = .illegal .unassignedOp 0x12000000#32 [] := by decide +kernel

theorem witness_LatchedErrorDiscardsCommands :
    latched.err ≠ 0#8 ∧ Instr.bqProcess 0#8 v1 ≠ .nop ∧ Instr.bqProcess 0#8 v1 ≠ .reset ∧
    (∀ a, Instr.bqProcess 0#8 v1 ≠ .csrRead a) ∧
    decode [1#8, 0#8, 0#8, 0x01#8] = .illegal .reservedField 0x01000001#32 [] :=
  ⟨by decide, by decide, by decide, by simp, by decide +kernel⟩

theorem witness_EveryCommandReturnsItsResultCount :
    exec (.bqProcess 0#8 v1) State.reset = .next (run (.bqProcess 0#8 v1) State.reset) ∧
    State.reset.err = 0#8 ∧ (run (.bqProcess 0#8 v1) State.reset).err ≠ 0#8 ∧
    latched.err ≠ 0#8 ∧
    decode [0#8, 0#8, 9#8, 0x60#8] = .illegal .reservedField 0x60090000#32 [] :=
  ⟨rfl, by decide +kernel⟩

theorem witness_ResetCommandResetsEveryItem :
    latched.err ≠ 0#8 ∧ (run .reset latched).err = 0#8 ∧
    decode [0#8, 0#8, 0#8, 0x12#8] = .illegal .unassignedOp 0x12000000#32 [] := by decide +kernel

/-- A state with a READY frame demultiplexer and a command on the port has the shape. -/
theorem witness_StepKeepsInvariant :
    ({ withFd 2#8 v1 vNaN 2#64 true State.reset with port := encode (.fdRead 1#8) } : State).Inv := by
  constructor
  case fd => exact ⟨(fun h => by cases h), fun _ => by decide⟩
  case err_code => decide
  case err_info => exact fun _ => rfl
  case bq => intro q hq h; cases Vector.eq_of_mem_replicate hq; rfl
  case fir => intro q hq; cases Vector.eq_of_mem_replicate hq; exact ⟨fun _ => rfl, fun h => by cases h⟩
  case lag => intro q hq h; cases Vector.eq_of_mem_replicate hq; rfl
  case mmx => intro q hq; cases Vector.eq_of_mem_replicate hq; exact ⟨fun _ => rfl, fun h => by cases h⟩
  case mrms => intro q hq; cases Vector.eq_of_mem_replicate hq; exact ⟨fun _ => rfl, fun h => by cases h⟩
  case lu => exact ⟨fun _ => rfl, fun h => by cases h⟩
  case tp => exact ⟨fun _ => rfl, fun h => by cases h⟩
  case cp => exact ⟨fun _ => rfl, fun h => by cases h⟩

theorem witness_CommandsTouchOnlyTheirUnit :
    exec (.fdPush v1) (withFd 2#8 v1 vHalf 2#64 false State.reset)
      = .next (run (.fdPush v1) (withFd 2#8 v1 vHalf 2#64 false State.reset)) ∧
    Instr.fdPush v1 ≠ .reset ∧ (Instr.fdPush v1).opcode.row.family ≠ .biquad := ⟨rfl, by decide⟩

/-- Each of the nine commands completes in some state. -/
theorem witness_ReadCommandsHaveNoSideEffect :
    (run .nop State.reset).err = State.reset.err ∧
    (run (.csrRead 0x62#16) State.reset).err = State.reset.err ∧
    (run (.fdRead 1#8) (withFd 2#8 v1 vHalf 2#64 false State.reset)).err = 0#8 ∧
    (run (.mrmsReadAcc 0#8) (withMrms [v1, v1] v2 0#64)).err = 0#8 ∧
    (run (.luHistRead 0#8 7800#64) (withLu (luUnit v1 ⟨[], 0#64, []⟩ false))).err = 0#8 ∧
    (run (.luCoefRead 12#4) (withLu (luUnit v1 ⟨[], 0#64, []⟩ false))).err = 0#8 ∧
    (run (.luResult 0#8) (withLu (luUnit v1 ⟨[], 0#64, []⟩ false))).err = 0#8 ∧
    (run (.tpResult 0#8) (withTp v1)).err = 0#8 ∧
    (run (.lagSettlingLen v1) (withCfg 0#8 384000#32)).err = 0#8 := by decide +kernel

/-- IDX at its bound for the eight- and four-instance families, and the index operands at theirs. -/
theorem witness_IndexOutOfRangeRaisesIllegalIndex :
    State.reset.err = 0#8 ∧
    instBound (.bqProcess 8#8 v1) = some (8#8, 8) ∧ 8 ≤ (8#8 : Byte).toNat ∧
    instBound (.firProcess 4#8 v1) = some (4#8, 4) ∧ 4 ≤ (4#8 : Byte).toNat ∧
    instBound (.mrmsReadAcc 255#8) = some (255#8, 8) ∧ 8 ≤ (255#8 : Byte).toNat ∧
    State.reset.fd.c.toNat ≤ (0#8 : Byte).toNat ∧
    (withLu (luUnit v1 (luRing []) false)).lu.na.toNat ≤ (1#8 : Byte).toNat ∧
    7801 ≤ (7801#64 : Dword).toNat ∧
    (withTp v1).tp.na.toNat ≤ (1#8 : Byte).toNat := by decide +kernel

/-- Each READY bit that can be missing, the index operands at their last legal value. -/
theorem witness_UnreadyUnitRaisesNotReady :
    (∀ i ∈ [Instr.bqProcess 7#8 v1, .firProcess 3#8 v1, .lagProcess 7#8 v1, .lagProcessInitial 7#8 v1,
        .mmxProcess 7#8 v1, .mrmsProcess 7#8 v1, .mrmsRefresh 7#8, .mrmsReadAcc 7#8, .fdPush v1, .fdEnd,
        .luFrame, .luFinalize, .luCoefRead 12#4, .tpFrame, .cpFrame true, .cpFrame false,
        .cpFrameInitial], readyBit State.reset i = some false) ∧
    readyBit { State.reset with fd := { FrameDemux.reset with c := 1#8 } } (.fdRead 0#8) = some false ∧
    readyBit { State.reset with lu := { Loudness.reset with na := 1#8 } } (.luResult 0#8) = some false ∧
    readyBit { State.reset with lu := { Loudness.reset with na := 1#8 } } (.luHistRead 0#8 7800#64)
      = some false ∧
    readyBit { State.reset with tp := { TruePeak.reset with na := 1#8 } } (.tpResult 0#8) = some false ∧
    (withFd 2#8 v1 v1 2#64 true State.reset).fd.ready = true ∧
    (withFd 2#8 v1 v1 2#64 true State.reset).fd.eos = true ∧
    (withFd 2#8 v1 v1 2#64 true State.reset).err = 0#8 := by decide +kernel

theorem witness_InitArgumentsAreChecked :
    (withCfg 0#8 0#32).err = 0#8 ∧ (withCfg 0#8 0#32).cfg.channels.toNat = 0 ∧
    8 < (withCfg 9#8 0#32).cfg.channels.toNat ∧
    (withCfg 1#8 9#32).cfg.fs.toNat < 10 ∧ 384000 < (withCfg 1#8 384001#32).cfg.fs.toNat ∧
    (withCfg 1#8 0#32).cfg.fs.toNat = 0 ∧ (7#8 : Byte).toNat < 8 ∧
    isFinite vInf = false ∧ isFinite vNaN = false ∧
    (3#8 : Byte).toNat < 4 ∧ (0#64 : Dword).toNat = 0 ∧
    255 < 2 * ((1#64 : Dword).toNat * (129#64 : Dword).toNat - 1) + 1 ∧
    1048576 < (1048577#64 : Dword).toNat := by decide +kernel

theorem witness_CsrWriteStoresTheDefinedBits : State.reset.err = 0#8 := rfl

/-- Each gap of the map at both its ends, and a write to each end of the read-only ranges. -/
theorem witness_IllegalCsrAccessRaises :
    State.reset.err = 0#8 ∧ latched.err ≠ 0#8 ∧
    (∀ a ∈ [0x0006, 0x000F, 0x0012, 0x001F, 0x0023, 0x002F, 0x0038, 0x003F, 0x0048, 0x004F, 0x0054, 0x005F,
        0x0063, 0xFFFF],
      ¬ addrReadOnly (BitVec.ofNat 16 a).toNat ∧ ¬ addrReadWrite (BitVec.ofNat 16 a).toNat) ∧
    ∀ a ∈ [0x0000, 0x0005, 0x0050, 0x0053, 0x0060, 0x0062],
      ¬ addrReadWrite (BitVec.ofNat 16 a).toNat := by
  refine ⟨rfl, by decide, ?_, ?_⟩
  · unfold addrReadOnly addrReadWrite; decide
  · unfold addrReadWrite; decide

theorem witness_CsrAccessesHaveNoSideEffect :
    (run (.csrRead 0#16) State.reset).err = State.reset.err ∧
    State.reset.err = 0#8 ∧ (run (.csrWrite 0x47#16 v1) State.reset).err = 0#8 ∧
    0x47#16 ≠ 0x46#16 := by decide +kernel

/-- CP_FRAME, CP_INIT, LU_INIT and LU_FRAME change what they write, and RESET all of it. -/
theorem witness_ObservationRegistersHaveTheirWriters :
    (run (.cpFrame true) (withCp (cpUnit true rmsPre))).cp.gainDb
      ≠ (withCp (cpUnit true rmsPre)).cp.gainDb ∧
    (run .cpInit (withSet goodSet)).cp.len ≠ (withSet goodSet).cp.len ∧
    (run .cpInit (withSet goodSet)).cp.winN ≠ (withSet goodSet).cp.winN ∧
    (withSet goodSet).err = 0#8 ∧ (run .cpInit (withSet goodSet)).err = 0#8 ∧
    (run .luInit (withCfg 1#8 10#32)).lu.blockN ≠ (withCfg 1#8 10#32).lu.blockN ∧
    (run .luFrame (withFd 1#8 v1 0#64 1#64 false (withLu (luUnit v1 ⟨[], 0#64, []⟩ false)))).lu.n
      ≠ (withLu (luUnit v1 ⟨[], 0#64, []⟩ false)).lu.n := by decide +kernel

theorem witness_BiquadCommandsComplete :
    State.reset.err = 0#8 ∧ (0#8 : Byte).toNat < 8 ∧ (7#8 : Byte).toNat < 8 ∧
    (withBq ⟨v1, v1, v1, v1⟩).err = 0#8 ∧
    ∃ h : (0#8 : Byte).toNat < 8, (withBq ⟨v1, v1, v1, v1⟩).bq[(0#8 : Byte).toNat].ready = true :=
  ⟨rfl, by decide, by decide, rfl, by decide, by decide⟩

theorem witness_NanPoisonsBiquad :
    isNaN vNaN = true ∧
    ∃ h : (0#8 : Byte).toNat < 8, (withBq ⟨v1, v1, vNaN, v1⟩).bq[(0#8 : Byte).toNat].ready = true ∧
      isNaN (withBq ⟨v1, v1, vNaN, v1⟩).bq[(0#8 : Byte).toNat].st.y1 = true :=
  ⟨by decide, by decide, by decide⟩

/-- The shortest kernel, the longest (FIR-5), and a READY instance. -/
theorem witness_FirCommandsComplete :
    State.reset.err = 0#8 ∧ (3#8 : Byte).toNat < 4 ∧
    2 * ((1#64 : Dword).toNat * (1#64 : Dword).toNat - 1) + 1 ≤ 255 ∧
    2 * ((4#64 : Dword).toNat * (32#64 : Dword).toNat - 1) + 1 = 255 ∧
    ∃ h : (0#8 : Byte).toNat < 4, (withFir [v1, v1, v1]).fir[(0#8 : Byte).toNat].ready = true :=
  ⟨rfl, by decide, by decide, by decide, by decide, by decide⟩

theorem witness_LanczosKernelShape : 1 ≤ 1 ∧ 1 ≤ 255 := by decide

theorem witness_LagCommandsComplete :
    (withCfg 0#8 1#32).err = 0#8 ∧ 1 ≤ (withCfg 0#8 1#32).cfg.fs.toNat ∧
    (withCfg 0#8 384000#32).cfg.fs.toNat ≤ 384000 ∧ isFinite v1 = true ∧
    isFinite 0x7FEFFFFFFFFFFFFF#64 = true ∧ (7#8 : Byte).toNat < 8 ∧
    ∃ h : (0#8 : Byte).toNat < 8, (withLag vHalf).lag[(0#8 : Byte).toNat].ready = true :=
  ⟨rfl, by decide, by decide, by decide, by decide, by decide, by decide, by decide⟩

/-- Equal values rise; a smaller one falls; a NaN input and a NaN level. -/
theorem witness_LagUpdateFollowsTheSign :
    fle (⟨vHalf, vQuarter, v1, v1⟩ : Lag).level v1 = true ∧
    fle (⟨vHalf, vQuarter, v1, v1⟩ : Lag).level vHalf = false ∧ isNaN vNaN = true ∧
    isNaN (⟨vHalf, vQuarter, v1, vNaN⟩ : Lag).level = true := by decide

theorem witness_MovMaxCommandsComplete :
    State.reset.err = 0#8 ∧ (7#8 : Byte).toNat < 8 ∧ 1 ≤ (1#64 : Dword).toNat ∧
    (1048576#64 : Dword).toNat ≤ 1048576 ∧ isNaN vInf = false ∧
    ∃ h : (0#8 : Byte).toNat < 8, (withMmx [v1] [v1]).mmx[(0#8 : Byte).toNat].ready = true :=
  ⟨rfl, by decide, by decide, by decide, by decide, by decide, by decide⟩

/-- MMX-2: W = 2, 3, 3, 1. -/
theorem witness_MovMaxReturnsTheOldestWindowMaximum :
    1 ≤ (2#64 : Dword).toNat ∧
    (∀ v ∈ [0x4008000000000000#64, 0x4008000000000000#64], isNaN v = false) ∧ isNaN v1 = false :=
  ⟨by decide, forall_of_all (fun v => decide (isNaN v = false)) (by decide +kernel), by decide⟩

/-- A NaN in the last of eight channels, and in the only one. -/
theorem witness_NanIntoMovMaxRaises :
    (∃ h : (0#8 : Byte).toNat < 8, (withMmx [v1] [v1]).mmx[(0#8 : Byte).toNat].ready = true) ∧
    isNaN vNaN = true ∧
    (withFd 1#8 vNaN 0#64 1#64 false (withCp (cpUnit false peakPre))).cp.ready = true ∧
    (withFd 1#8 vNaN 0#64 1#64 false (withCp (cpUnit false peakPre))).cp.pre = .peak ⟨1#64, [], []⟩ ∧
    (withFd 1#8 vNaN 0#64 1#64 false (withCp (cpUnit false peakPre))).fd.valid = true ∧
    isNaN ((withFd 1#8 vNaN 0#64 1#64 false
      (withCp (cpUnit false peakPre))).fd.frame.toList.getD 0 0#64) = true ∧
    (let s : State := { withCp { cpUnit false peakPre with c := 8#8 } with
      fd := ⟨true, 8#8, (Vector.replicate 8 v1).set 7 vNaN, 8#64, true⟩ }
    s.fd.valid = true ∧ s.fd.c = s.cp.c ∧ 7 < s.cp.c.toNat ∧ s.cp.c.toNat ≤ 8 ∧
      (∀ k, k < 7 → isNaN (s.fd.frame.toList.getD k 0#64) = false) ∧
      isNaN (s.fd.frame.toList.getD 7 0#64) = true) :=
  ⟨⟨by decide, by decide⟩, by decide +kernel⟩

theorem witness_MovRmsCommandsComplete :
    State.reset.err = 0#8 ∧ (7#8 : Byte).toNat < 8 ∧ 1 ≤ (1#64 : Dword).toNat ∧
    (1048576#64 : Dword).toNat ≤ 1048576 ∧
    ∃ h : (0#8 : Byte).toNat < 8, (withMrms [v1, v1] v2 0xFFFFF#64).mrms[(0#8 : Byte).toNat].ready = true :=
  ⟨rfl, by decide, by decide, by decide, by decide, by decide⟩

/-- The calls before and after the refresh's. -/
theorem witness_MovRmsNanLastsUntilTheRefresh :
    isNaN (⟨2#64, v1, [v1, v1], vNaN, 0xFFFFE#64⟩ : MovRms).acc = true ∧
    ((⟨2#64, v1, [v1, v1], vNaN, 0xFFFFE#64⟩ : MovRms).cnt + 1#64).toNat % 1048576 ≠ 0 ∧
    ((⟨2#64, v1, [v1, v1], vNaN, 0x100000#64⟩ : MovRms).cnt + 1#64).toNat % 1048576 ≠ 0 := by decide

/-- FD_INIT with 1 and 8 channels; a push inside, at the end of and after a frame; FD_END with no, a
partial and a whole frame; FD_READ of the last channel. -/
theorem witness_FrameCommandsComplete :
    1 ≤ (withCfg 1#8 0#32).cfg.channels.toNat ∧ (withCfg 8#8 0#32).cfg.channels.toNat ≤ 8 ∧
    (let s := withFd 2#8 v1 v1 1#64 false State.reset
    s.err = 0#8 ∧ s.fd.ready = true ∧ s.fd.eos = false ∧ s.fd.cnt.toNat ≠ s.fd.c.toNat ∧
      0 < s.fd.cnt.toNat ∧ s.fd.cnt.toNat < s.fd.c.toNat ∧ (1#8 : Byte).toNat < s.fd.c.toNat) ∧
    (let s := withFd 2#8 v1 v1 2#64 false State.reset
    s.err = 0#8 ∧ s.fd.ready = true ∧ s.fd.eos = false ∧ s.fd.cnt.toNat = s.fd.c.toNat ∧
      s.fd.c.toNat ≤ s.fd.cnt.toNat ∧ (1#8 : Byte).toNat < s.fd.c.toNat ∧ (1#8 : Byte).toNat < 8) ∧
    (withFd 2#8 v1 v1 0#64 false State.reset).fd.cnt.toNat = 0 := by decide +kernel

theorem witness_PushedSamplesFormTheFrame :
    (withCfg 2#8 0#32).err = 0#8 ∧
    exec .fdInit (withCfg 2#8 0#32) = .next (run .fdInit (withCfg 2#8 0#32)) ∧
    (run .fdInit (withCfg 2#8 0#32)).err = 0#8 ∧
    [v1, vNaN].length = (withCfg 2#8 0#32).cfg.channels.toNat :=
  ⟨rfl, rfl, by decide +kernel, by decide⟩

/-- Each unit READY with no valid frame, with a frame of two channels, and with its own. -/
theorem witness_FrameConsumersCheckTheFrame :
    (withLu (luUnit v1 ⟨[], 0#64, []⟩ false)).lu.ready = true ∧
    (withLu (luUnit v1 ⟨[], 0#64, []⟩ false)).fd.valid = false ∧
    (withTp v1).tp.ready = true ∧ (withTp v1).fd.valid = false ∧
    (withCp (cpUnit true rmsPre)).cp.ready = true ∧ (withCp (cpUnit true rmsPre)).fd.valid = false ∧
    (withFd 2#8 v1 v1 2#64 false (withTp v1)).fd.c ≠ (withTp v1).tp.c ∧
    (withFd 2#8 v1 v1 2#64 false (withTp v1)).fd.valid = true ∧
    (withFd 2#8 v1 v1 2#64 false (withTp v1)).fd.c = 2#8 := by decide +kernel

theorem witness_LuInitCompletes :
    (withCfg 1#8 10#32).err = 0#8 ∧ 1 ≤ (withCfg 1#8 10#32).cfg.channels.toNat ∧
    (withCfg 8#8 384000#32).cfg.channels.toNat ≤ 8 ∧ 10 ≤ (withCfg 1#8 10#32).cfg.fs.toNat ∧
    (withCfg 8#8 384000#32).cfg.fs.toNat ≤ 384000 := by decide +kernel

/-- A hop that ends with a full ring of energy 1.0, and a frame that ends none. -/
theorem witness_LuFrameCompletes :
    (let s := withFd 1#8 v1 0#64 1#64 false (withLu (luUnit v1 ⟨[], 0#64, []⟩ false))
    s.err = 0#8 ∧ s.lu.ready = true ∧ s.fd.valid = true ∧ s.fd.c = s.lu.c ∧
      (s.lu.n + 1#64).toNat % s.lu.hopN.toNat = 0 ∧
      ∀ a ∈ ringAppends s.lu.blockN s.lu.accs (luValues (s.draws + 3 * s.lu.chans.length) s.lu.indep
          (luWeighChans s.lu.ks s.lu.kh s.draws s.lu.chans
            (s.fd.frame.toList.take s.lu.c.toNat)).2),
        s.lu.blockN.toNat ≤ a.len.toNat ∧ commitOk (ringMean a s.lu.blockN)) ∧
    (let u : Loudness := { luUnit v1 ⟨[], 0#64, []⟩ false with hopN := 2#64 }
    (u.n + 1#64).toNat % u.hopN.toNat ≠ 0) := by
  unfold commitOk
  decide +kernel

/-- A channel of weight 1.0 and one of weight −0.0. -/
theorem witness_LuWeighsAFrame :
    [LuChan.fresh v1, LuChan.fresh 0x8000000000000000#64].length = [v1, vNaN].length ∧
    feq (LuChan.fresh v1).w 0#64 = false ∧
    feq (LuChan.fresh 0x8000000000000000#64).w 0#64 = true := by decide

/-- A NaN, a negative, an infinite and a zero energy, and 1.0. -/
theorem witness_LuCommitCountsOneBin :
    isNaN (energyIndex vNaN) = true ∧ isNaN (energyIndex vNeg1) = true ∧ flt vNeg1 0#64 = true ∧
    fle 0x40BE790000000000#64 (energyIndex vInf) = true ∧ flt (energyIndex 0#64) 0#64 = true ∧
    isZero 0x8000000000000000#64 = true ∧
    isNaN (energyIndex v1) = false ∧ fle 0x40BE790000000000#64 (energyIndex v1) = false ∧
    flt (energyIndex v1) 0#64 = false ∧ (luRing []).hist.length = 7801 := by
  refine ⟨?_, ?_, ?_, ?_, ?_, ?_, ?_, ?_, ?_, List.length_replicate⟩ <;> decide +kernel

/-- A negative energy in the first accumulator (LU_FRAME, of a negative weight) and a NaN in the second
(LU_FINALIZE). -/
theorem witness_LuRaisesForTheLowestAccumulator :
    (let s := withFd 1#8 v1 0#64 1#64 false (withLu (luUnit vNeg1 ⟨[], 0#64, []⟩ false))
    s.err = 0#8 ∧ s.lu.ready = true ∧ s.fd.valid = true ∧ s.fd.c = s.lu.c ∧
      (s.lu.n + 1#64).toNat % s.lu.hopN.toNat = 0 ∧
      ringAppends s.lu.blockN s.lu.accs (luValues (s.draws + 3 * s.lu.chans.length) s.lu.indep
          (luWeighChans s.lu.ks s.lu.kh s.draws s.lu.chans
            (s.fd.frame.toList.take s.lu.c.toNat)).2) = [] ++ ⟨[vNeg1], 1#64, []⟩ :: [] ∧
      s.lu.blockN.toNat ≤ (⟨[vNeg1], 1#64, []⟩ : LuAcc).len.toNat ∧
      isNaN (energyIndex (ringMean ⟨[vNeg1], 1#64, []⟩ s.lu.blockN)) = true) ∧
    (let u : Loudness :=
      { luUnit v1 ⟨[], 0#64, []⟩ false with accs := [⟨[v1], 1#64, []⟩, ⟨[vNaN], 1#64, []⟩], na := 2#8 }
    u.committed = false ∧ u.accs = [⟨[v1], 1#64, []⟩] ++ ⟨[vNaN], 1#64, []⟩ :: [] ∧
      (∀ b ∈ [(⟨[v1], 1#64, []⟩ : LuAcc)], 0 < b.len.toNat ∧ commitOk (ringMean b b.len)) ∧
      0 < (⟨[vNaN], 1#64, []⟩ : LuAcc).len.toNat ∧
      luCommit 1 ⟨[vNaN], 1#64, []⟩ (ringMean ⟨[vNaN], 1#64, []⟩ 1#64)
        = .error ⟨.nanInput, BitVec.ofNat 16 1, 0#16⟩) := by
  refine ⟨by decide +kernel, ?_⟩
  · refine ⟨rfl, rfl, ?_, by decide, ?_⟩
    · unfold commitOk; decide +kernel
    · have : isNaN (luIndex (ringMean ⟨[vNaN], 1#64, []⟩ 1#64)) = true := by decide +kernel
      simp [luCommit, this]

theorem witness_LuFinalizeCompletes :
    (withLu (luUnit v1 ⟨[], 0#64, []⟩ true)).err = 0#8 ∧
    (withLu (luUnit v1 ⟨[], 0#64, []⟩ true)).lu.ready = true ∧
    (withLu (luUnit v1 ⟨[], 0#64, []⟩ true)).lu.committed = true ∧
    (withLu (luUnit v1 ⟨[v1], 1#64, []⟩ false)).lu.committed = false ∧
    (∀ a ∈ (withLu (luUnit v1 ⟨[v1], 1#64, []⟩ false)).lu.accs,
      0 < a.len.toNat ∧ commitOk (ringMean a a.len)) := by
  unfold commitOk
  decide +kernel

theorem witness_LuReadCommandsComplete :
    (withLu (luUnit v1 ⟨[], 0#64, []⟩ true)).err = 0#8 ∧
    (withLu (luUnit v1 ⟨[], 0#64, []⟩ true)).lu.ready = true ∧
    (0#8 : Byte).toNat < (withLu (luUnit v1 ⟨[], 0#64, []⟩ true)).lu.na.toNat ∧
    (withLu (luUnit v1 ⟨[], 0#64, []⟩ true)).lu.accs[(0#8 : Byte).toNat]? = some ⟨[], 0#64, []⟩ ∧
    (7800#64 : Dword).toNat < 7801 := by decide +kernel

/-- An empty histogram and one with a count in its first bin. -/
theorem witness_LuIntegratesInTwoGatedPasses :
    (List.replicate 7801 0#64 : List Dword).length = 7801 ∧
    (∀ n ∈ (List.replicate 7801 0#64 : List Dword), n = 0#64) ∧
    (1#64 :: List.replicate 7800 0#64 : List Dword).length = 7801 ∧
    ∃ n ∈ (1#64 :: List.replicate 7800 0#64 : List Dword), n ≠ 0#64 :=
  ⟨List.length_replicate, fun _ h => List.eq_of_mem_replicate h,
    by rw [List.length_cons, List.length_replicate], 1#64, List.mem_cons_self, by decide⟩

theorem witness_SilenceGivesZeroLoudness :
    (withCfg 1#8 10#32).err = 0#8 ∧ exec .luInit (withCfg 1#8 10#32) = .next (run .luInit (withCfg 1#8 10#32)) ∧
    (run .luInit (withCfg 1#8 10#32)).err = 0#8 ∧
    (let s := withFd 1#8 0x8000000000000000#64 0#64 1#64 false
      (withLu (luUnit v1 ⟨[0#64], 1#64, [0#64]⟩ false))
    silent s.lu ∧ finiteFilters s.lu ∧ s.fd.valid = true ∧ s.fd.c = s.lu.c ∧
      (∀ c : Fin 8, isZero s.fd.frame[c] = true) ∧ (0#8 : Byte).toNat < s.lu.na.toNat) := by
  refine ⟨rfl, rfl, by decide +kernel, ?_, ?_, by decide +kernel, rfl, by decide +kernel, by decide⟩
  · refine ⟨rfl, by decide, by decide, by decide, by decide, ?_, rfl, ?_⟩
    · unfold zeroFilter; decide +kernel
    · intro a ha
      cases List.mem_singleton.mp ha
      exact ⟨forall_of_all (fun v => decide (isZero v = true)) (by decide +kernel),
        forall_of_all (fun n => decide (n = 0#64)) (by decide)⟩
  · unfold finiteFilters finiteCoef; decide +kernel

theorem witness_TruePeakCommandsComplete :
    (withCfg 1#8 0#32).err = 0#8 ∧ 1 ≤ (withCfg 1#8 0#32).cfg.channels.toNat ∧
    (withCfg 8#8 0#32).cfg.channels.toNat ≤ 8 ∧
    (let s := withFd 1#8 v1 0#64 1#64 false (withTp v1)
    s.err = 0#8 ∧ s.tp.ready = true ∧ s.fd.valid = true ∧ s.fd.c = s.tp.c ∧
      (0#8 : Byte).toNat < s.tp.na.toNat) := by decide +kernel

theorem witness_TruePeakKeepsTheLargestSubSample :
    isNaN v1 = false ∧ [[v1], [v1]].length = [v1, v1].length ∧ [v1, v1].length = [v1, v1].length := by
  decide

/-- A READY unit of every TP_A: one channel, a kernel and a ring of zeros, the maximum 1.0. -/
theorem witness_TruePeakMaximaNeverDecrease :
    (⟨true, 1#8, false, BitVec.ofNat 64 (2 * (4 * Config.tpA - 1) + 1),
      List.replicate (2 * (4 * Config.tpA - 1) + 1) 0#64,
      [List.replicate (2 * (4 * Config.tpA - 1) + 1) 0#64], 1#8, [v1]⟩ : TruePeak).Inv ∧
    exec .tpFrame (withTp v1) = .next (run .tpFrame (withTp v1)) ∧ Instr.tpFrame ≠ .tpInit ∧
    Instr.tpFrame ≠ .reset := by
  have h : Config.tpA ≤ 32 := by unfold Config.tpA; have := Config.tpAPred.isLt; omega
  refine ⟨⟨(fun h => by cases h), fun _ => ?_⟩, rfl, by decide, by decide⟩
  have e : (BitVec.ofNat 64 (2 * (4 * Config.tpA - 1) + 1)).toNat = 2 * (4 * Config.tpA - 1) + 1 := by
    rw [BitVec.toNat_ofNat]; omega
  refine ⟨by decide, by decide, e, rfl, ?_, rfl, ?_, rfl, ?_⟩
  · rw [e]; exact List.length_replicate
  · intro b hb; rw [e]; simp only [List.mem_singleton] at hb; rw [hb]; exact List.length_replicate
  · exact forall_of_all (fun v => decide (isNaN v = false ∧ fsign v = false)) (by decide +kernel)

/-- Settings at the bounds: L = 1 (0.1 s at 10 Hz), and L = CP_LMAX with Wp = WIN_MAX (one second of
look-ahead and hold at 65536 Hz with eight channels). -/
theorem witness_CpInitCompletes :
    ∀ k ∈ [({ goodSet with lookaheadS := 0x3FB999999999999A#64 }, 10, 1, 1, 0),
        ({ goodSet with lookaheadS := v1, holdS := v1 }, 65536, 8, 65536, 65536)],
      let fs := fOfNat k.2.1
      flt v1 k.1.ratio = true ∧ isFinite k.1.thresholdDb = true ∧ isFinite k.1.makeupDb = true ∧
      isFinite k.1.kneeDb = true ∧ fle 0#64 k.1.kneeDb = true ∧ isFinite k.1.attackS = true ∧
      isFinite k.1.releaseS = true ∧ isFinite k.1.lookaheadS = true ∧ fle 0#64 k.1.lookaheadS = true ∧
      isFinite k.1.holdS = true ∧ fle 0#64 k.1.holdS = true ∧
      isFinite (fmul k.1.lookaheadS fs) = true ∧ isFinite (fmul k.1.holdS fs) = true ∧
      fToNat (ftrunc (fmul k.1.lookaheadS fs)) = k.2.2.2.1 ∧
      fToNat (ftrunc (fmul k.1.holdS fs)) = k.2.2.2.2 ∧ 1 ≤ k.2.2.2.1 ∧ k.2.2.2.1 ≤ 65536 ∧
      (k.2.2.2.1 + k.2.2.2.2) * k.2.2.1 ≤ 1048576 := by decide +kernel

/-- One bad setting for each condition of R152. -/
theorem witness_CpInitRefusesBadSettings :
    (withSet goodSet).err = 0#8 ∧ (withCfg 0#8 10#32).cfg.channels.toNat < 1 ∧
    8 < (withCfg 9#8 10#32).cfg.channels.toNat ∧ (withCfg 1#8 0#32).cfg.fs.toNat < 1 ∧
    384000 < (withCfg 1#8 384001#32).cfg.fs.toNat ∧ flt v1 v1 = false ∧ flt v1 vNaN = false ∧
    isFinite vInf = false ∧ isFinite vNaN = false ∧ flt vNeg1 0#64 = true ∧
    isFinite (fmul 0x7FEFFFFFFFFFFFFF#64 (fOfNat 10)) = false ∧
    fToNat (ftrunc (fmul 0#64 (fOfNat 10))) < 1 ∧
    65536 < fToNat (ftrunc (fmul v1 (fOfNat 65537))) ∧
    1048576 < (fToNat (ftrunc (fmul v1 (fOfNat 65536))) + fToNat (ftrunc (fmul v1 (fOfNat 65537)))) * 8 := by
  decide +kernel

/-- In Peak mode no number of a frame is a NaN after the rectifier, whichever PEAK_RECTIFY is. -/
theorem feedable_peak {mm : MovMax} {x : List F64} (h : ∀ v ∈ x, isNaN v = false) :
    feedable (.peak mm) x := by
  intro m _ v hv
  unfold rectified
  split
  · rw [← fabs_eq_and, isNaN_fabs]; exact h v hv
  · exact h v hv

/-- A zero frame in RMS mode, and the FD's frame in Peak mode. -/
theorem witness_CpFrameCompletes :
    (withCp (cpUnit true rmsPre)).err = 0#8 ∧ (withCp (cpUnit true rmsPre)).cp.ready = true ∧
    feedable (withCp (cpUnit true rmsPre)).cp.pre (cpConsumed true (withCp (cpUnit true rmsPre))) ∧
    (let s := withFd 1#8 v1 0#64 1#64 false (withCp (cpUnit false peakPre))
    s.cp.ready = true ∧ s.fd.valid = true ∧ s.fd.c = s.cp.c ∧
      feedable s.cp.pre (cpConsumed false s)) :=
  ⟨rfl, rfl, (fun _ h => by cases h), rfl, by decide +kernel, rfl, feedable_peak
    (forall_of_all (fun v => decide (isNaN v = false)) (by decide +kernel))⟩

theorem witness_CpFrameInitialCompletes :
    let s := withFd 1#8 v1 0#64 1#64 false (withCp (cpUnit false peakPre))
    s.err = 0#8 ∧ s.cp.ready = true ∧ s.fd.valid = true ∧ s.fd.c = s.cp.c ∧
      feedable s.cp.pre (cpConsumed false s) :=
  ⟨rfl, rfl, by decide +kernel, rfl, feedable_peak
    (forall_of_all (fun v => decide (isNaN v = false)) (by decide +kernel))⟩

/-- CP_INIT with the RMS detector, then a frame of the FD and two zero frames. -/
theorem witness_CpDelaysFramesByTheLookAhead :
    (let s : State := { withSet goodSet with cfg := { (withSet goodSet).cfg with cp := 1#1 } }
    s.err = 0#8 ∧ exec .cpInit s = .next (run .cpInit s) ∧
      (∀ i ∈ [Instr.fdInit, .fdPush v1, .cpFrame false, .cpFrame true, .cpFrame true],
        i ≠ .cpInit ∧ i ≠ .reset) ∧
      (afterAll [.fdInit, .fdPush v1, .cpFrame false, .cpFrame true, .cpFrame true] (run .cpInit s)).err
        = 0#8) :=
  ⟨rfl, rfl, by decide, by decide +kernel⟩

/-- Levels below, inside and above a knee of 6 dB around 0 dB; a knee of 0 dB; finite settings. -/
theorem witness_CpGainRegions :
    let kw : F64 := 0x4018000000000000#64
    flt (fmul v2 (fsub 0xC069000000000000#64 0#64)) (fneg kw) = true ∧
    (flt (fmul v2 (fsub v1 0#64)) (fneg kw) = false ∧ flt 0#64 kw = true ∧
      fle (fmul v2 (fsub v1 0#64)) kw = true) ∧
    (flt (fmul v2 (fsub 0x4024000000000000#64 0#64)) (fneg kw) = false ∧
      fle (fmul v2 (fsub 0x4024000000000000#64 0#64)) kw = false) ∧
    flt 0#64 0#64 = false ∧ isFinite kw = true ∧ flt v1 v2 = true := by decide +kernel

/-- An envelope of 1.0, a NaN, a negative one and −0.0. -/
theorem witness_CpLevelReplacesNaN :
    isNaN (fmul 0x4034000000000000#64 (fnLog10 v1)) = false ∧
    isNaN (fmul 0x4034000000000000#64 (fnLog10 vNeg1)) = true ∧ isNaN vNaN = true ∧
    flt vNeg1 0#64 = true ∧ isZero 0x8000000000000000#64 = true := by decide +kernel

/-- CP-2's make-up gain on a zero frame. -/
theorem witness_BelowTheKneeOnlyMakeupApplies :
    let s := withCp (cpUnit true rmsPre)
    let t := run (.cpFrame true) s
    s.err = 0#8 ∧ isNaN s.cp.m = false ∧ exec (.cpFrame true) s = .next t ∧ t.err = 0#8 ∧
      flt (fmul v2 (fsub (cpLevel t.cp.envObs) s.cp.t)) (fneg s.cp.kw) = true :=
  ⟨rfl, by decide, rfl, by decide +kernel, by decide +kernel⟩

end Sys2Proof.Tests
end

section
/-! SUPPORT. The CSR map read backwards (`10_state.md` rules R32 to R34): each implemented CSR has one
address, so what an access to an address does is a case split on the CSR and not on the address. -/

namespace Sys2Proof.Machine

open Claims

/-! ## The address of a CSR -/

/-- The address of each implemented CSR (R34). -/
def Csr.addr : Csr → Half
  | .id => 0x0000#16
  | .status => 0x0001#16
  | .errInfo => 0x0002#16
  | .params => 0x0003#16
  | .params2 => 0x0004#16
  | .params3 => 0x0005#16
  | .cfgChannels => 0x0010#16
  | .cfgFs => 0x0011#16
  | .luCfg => 0x0020#16
  | .tpCfg => 0x0021#16
  | .cpCfg => 0x0022#16
  | .luWeight c => BitVec.ofNat 16 (0x0030 + c.val)
  | .cpThresholdDb => 0x0040#16
  | .cpRatio => 0x0041#16
  | .cpKneeDb => 0x0042#16
  | .cpAttackS => 0x0043#16
  | .cpReleaseS => 0x0044#16
  | .cpLookaheadS => 0x0045#16
  | .cpHoldS => 0x0046#16
  | .cpMakeupDb => 0x0047#16
  | .cpEnv => 0x0050#16
  | .cpGainDb => 0x0051#16
  | .cpDelayN => 0x0052#16
  | .cpWindowN => 0x0053#16
  | .luBlockN => 0x0060#16
  | .luHopN => 0x0061#16
  | .luFrames => 0x0062#16

@[simp] theorem csrAt_addr (r : Csr) : csrAt r.addr = some r := by
  cases r with
  | luWeight c => revert c; decide
  | _ => rfl

theorem addr_of_csrAt {a : Half} {r : Csr} (h : csrAt a = some r) : a = r.addr := by
  unfold csrAt at h
  apply BitVec.eq_of_toNat_eq
  split at h
  -- The last arm of the map is the range of the weights; every other arm is one address.
  case h_27 =>
    split at h
    · split at h
      · cases h
        simp only [Csr.addr, BitVec.toNat_ofNat]
        omega
      · cases h
    · cases h
  all_goals cases h; assumption

theorem csrAt_eq_some_iff {a : Half} {r : Csr} : csrAt a = some r ↔ a = r.addr :=
  ⟨addr_of_csrAt, fun h => h ▸ csrAt_addr r⟩

theorem Csr.luWeight_addr_bounds (c : Fin Config.cMax) :
    0x0030 ≤ (Csr.luWeight c).addr.toNat ∧ (Csr.luWeight c).addr.toNat ≤ 0x0037 := by
  revert c; decide

/-- The ranges of R34 leave no CSR out. -/
theorem Csr.addr_implemented (r : Csr) : addrReadOnly r.addr.toNat ∨ addrReadWrite r.addr.toNat := by
  unfold addrReadOnly addrReadWrite
  cases r with
  | luWeight c => have := Csr.luWeight_addr_bounds c; omega
  | _ => decide

theorem csrAt_eq_none {a : Half} (hro : ¬ addrReadOnly a.toNat) (hrw : ¬ addrReadWrite a.toNat) :
    csrAt a = none := by
  cases h : csrAt a with
  | none => rfl
  | some r =>
    rw [addr_of_csrAt h] at hro hrw
    exact absurd r.addr_implemented (not_or.mpr ⟨hro, hrw⟩)

/-! ## Reading and writing -/

/-- The CSRs that refuse a write are those at the read-only addresses. -/
theorem ConfigRegs.write_eq_none_iff {c : ConfigRegs} {r : Csr} {v : Dword} :
    c.write r v = none ↔ addrReadOnly r.addr.toNat := by
  unfold addrReadOnly
  cases r with
  | luWeight k =>
    have := Csr.luWeight_addr_bounds k
    simp only [ConfigRegs.write, reduceCtorEq, false_iff]
    omega
  | _ => simp [ConfigRegs.write, Csr.addr]

@[simp] theorem memRead_addr (r : Csr) (s : State) : memRead r.addr s = .ok (csrValue r s) := by
  simp [memRead]

theorem memRead_of_unimplemented {a : Half} (hro : ¬ addrReadOnly a.toNat)
    (hrw : ¬ addrReadWrite a.toNat) (s : State) : memRead a s = .error (raiseOf .illegalCsr) := by
  simp [memRead, csrAt_eq_none hro hrw]

theorem memWrite_of_not_readWrite {a : Half} (hrw : ¬ addrReadWrite a.toNat) (v : Dword) (s : State) :
    memWrite a v s = .error (raiseOf .illegalCsr) := by
  unfold memWrite
  cases h : csrAt a with
  | none => rfl
  | some r =>
    rw [addr_of_csrAt h] at hrw
    have hw : s.cfg.write r v = none :=
      ConfigRegs.write_eq_none_iff.mpr (r.addr_implemented.resolve_right hrw)
    simp [hw]

end Sys2Proof.Machine
end

section
/-! SUPPORT. How a command ends (`40_control.md` rule R83, `60_exceptions.md` rules R166, R167), as one
case split over the next state. -/

namespace Sys2Proof.Machine

open Claims

/-- `exec_of_raise` in the words of the claims. -/
theorem exec_eq_raised {i : Instr} {body : State → Effect} {s : State} {r : Raise}
    (h : exec i s = .next (runCommand i body s)) (h0 : s.err = 0#8) (hb : body s = .error r) :
    exec i s = .next (raised i r.error r.chan r.stream s) :=
  exec_of_raise h h0 hb

/-- An error raised while another is latched leaves the latch alone and only returns POISON. -/
theorem exec_of_raise_latched {i : Instr} {body : State → Effect} {s : State} {r : Raise}
    (h : exec i s = .next (runCommand i body s)) (h0 : s.err ≠ 0#8)
    (hi : runsWhileLatched (some i.opcode) = true) (hb : body s = .error r) :
    exec i s = .next (s.emit (List.replicate (nres i.opcode s) poison)) := by
  simp [h, runCommand, runWord, hi, hb, State.latch_of_latched h0, nresOf]

/-- A command completes its body, or it changes nothing but the error latch and the result port. -/
theorem completes_or_keeps {i : Instr} {body : State → Effect} {s t : State}
    (h : exec i s = .next (runCommand i body s)) (he : exec i s = .next t) :
    (∃ t' rs, body s = .ok (t', rs) ∧ t = t'.emit rs) ∨
      t = { s with err := t.err, errInfo := t.errInfo, results := t.results } := by
  rw [h] at he
  cases he
  unfold runCommand
  rcases runWord_cases (some i.opcode) (encodeWord i) body s with
    ⟨-, -, e⟩ | ⟨-, t', rs, hb, e⟩ | ⟨-, r, -, e⟩
  · exact .inr (by rw [e]; rfl)
  · exact .inl ⟨t', rs, hb, e⟩
  · refine .inr ?_
    rw [e]
    unfold State.latch
    split <;> rfl

/-- RESET completes in every state, with an error latched too (R86, R171). -/
theorem exec_reset (s : State) : exec .reset s = .next s.resetItems := by
  have hi : runsWhileLatched (some Instr.reset.opcode) = true := rfl
  simp [exec, execReset, runCommand, runWord, hi]

end Sys2Proof.Machine
end

section
/-! SUPPORT. What a command can do to the compressor unit and to the loudness unit (`10_state.md` rules
R25, R27, R28): who writes which of their items. -/

namespace Sys2Proof.Machine

/-! ## The compressor unit -/

theorem family_eq_compressor {i : Instr} : i.opcode.row.family = .compressor ↔
    i = .cpInit ∨ (∃ z, i = .cpFrame z) ∨ i = .cpFrameInitial := by
  cases i <;> simp [Instr.opcode, Opcode.row]

theorem exec_keeps_cp {i : Instr} {s t : State} (he : exec i s = .next t) (hr : i ≠ .reset)
    (hf : i.opcode.row.family ≠ .compressor) : t.cp = s.cp := by
  obtain ⟨body, h, frame⟩ := exec_frame i s
  rcases completes_or_keeps h he with ⟨t', rs, hb, rfl⟩ | hk
  · obtain ⟨-, -, -, -, -, -, -, -, hcp, -⟩ := (frame t' rs hb).family hr
    exact hcp hf
  · rw [hk]

/-- CP_FRAME writes the detector, the FIFO and the two observation registers (R160). -/
theorem cpFrame_writes {z : Bool} {s t : State} (he : exec (.cpFrame z) s = .next t) :
    ∃ pre env fifo e g,
      t.cp = { s.cp with pre := pre, env := env, fifo := fifo, envObs := e, gainDb := g } := by
  rcases completes_or_keeps rfl he with ⟨t', rs, hb, rfl⟩ | hk
  · simp only [bind_eq_ok] at hb
    obtain ⟨_, -, _, -, r, hr, hb⟩ := hb
    obtain ⟨pre, env, hu⟩ := cpDetect_frame hr
    cases hb
    exact ⟨pre, env, _, _, _, by rw [hu]; rfl⟩
  · exact ⟨_, _, _, _, _, by rw [hk]⟩

/-- CP_FRAME_INITIAL writes the detector alone (R162). -/
theorem cpFrameInitial_writes {s t : State} (he : exec .cpFrameInitial s = .next t) :
    ∃ pre env, t.cp = { s.cp with pre := pre, env := env } := by
  rcases completes_or_keeps rfl he with ⟨t', rs, hb, rfl⟩ | hk
  · simp only [bind_eq_ok] at hb
    obtain ⟨_, -, _, -, r, hr, hb⟩ := hb
    cases hb
    exact cpDetect_frame hr
  · exact ⟨_, _, by rw [hk]⟩

/-- CP_INIT clears the two observation registers of R47. -/
theorem cpInit_clears_observations {s t : State} (he : exec .cpInit s = .next t) (h0 : s.err = 0#8)
    (h1 : t.err = 0#8) : t.cp.envObs = 0#64 ∧ t.cp.gainDb = 0#64 := by
  obtain ⟨t', rs, hb, rfl⟩ := body_of_exec rfl he h0 h1
  simp only [bind_eq_ok] at hb
  obtain ⟨c, -, fs, -, hb⟩ := hb
  split at hb
  · cases hb
  · cases hb
    exact ⟨rfl, rfl⟩

/-- What a command can do to the compressor unit. -/
theorem exec_cp_cases {i : Instr} {s t : State} (he : exec i s = .next t) :
    i = .reset ∨ i = .cpInit ∨
    (∃ z, i = .cpFrame z ∧ ∃ pre env fifo e g,
      t.cp = { s.cp with pre := pre, env := env, fifo := fifo, envObs := e, gainDb := g }) ∨
    ∃ pre env, t.cp = { s.cp with pre := pre, env := env } := by
  by_cases hr : i = .reset
  · exact .inl hr
  by_cases hf : i.opcode.row.family = .compressor
  · rcases family_eq_compressor.mp hf with rfl | ⟨z, rfl⟩ | rfl
    · exact .inr (.inl rfl)
    · exact .inr (.inr (.inl ⟨z, rfl, cpFrame_writes he⟩))
    · exact .inr (.inr (.inr (cpFrameInitial_writes he)))
  · exact .inr (.inr (.inr ⟨_, _, exec_keeps_cp he hr hf⟩))

/-! ## The loudness unit -/

theorem family_eq_loudness {i : Instr} : i.opcode.row.family = .loudness ↔
    i = .luInit ∨ i = .luFrame ∨ i = .luFinalize ∨
      (∃ k, i = .luResult k) ∨ (∃ k b, i = .luHistRead k b) ∨ (∃ x, i = .luCoefRead x) := by
  cases i <;> simp [Instr.opcode, Opcode.row]

theorem exec_keeps_lu {i : Instr} {s t : State} (he : exec i s = .next t) (hr : i ≠ .reset)
    (hf : i.opcode.row.family ≠ .loudness) : t.lu = s.lu := by
  obtain ⟨body, h, frame⟩ := exec_frame i s
  rcases completes_or_keeps h he with ⟨t', rs, hb, rfl⟩ | hk
  · obtain ⟨-, -, -, -, -, -, hlu, -⟩ := (frame t' rs hb).family hr
    exact hlu hf
  · rw [hk]

theorem luFrame_keeps_lengths {s t : State} (he : exec .luFrame s = .next t) :
    t.lu.blockN = s.lu.blockN ∧ t.lu.hopN = s.lu.hopN := by
  rcases completes_or_keeps rfl he with ⟨t', rs, hb, rfl⟩ | hk
  · simp only [bind_eq_ok] at hb
    obtain ⟨_, -, _, -, u, hu, hb⟩ := hb
    cases hb
    exact luFrameStep_frame hu
  · rw [hk]
    exact ⟨rfl, rfl⟩

/-- LU_FINALIZE writes the accumulators and COMMITTED (R137). -/
theorem luFinalize_writes {s t : State} (he : exec .luFinalize s = .next t) :
    ∃ accs committed, t.lu = { s.lu with accs := accs, committed := committed } := by
  rcases completes_or_keeps rfl he with ⟨t', rs, hb, rfl⟩ | hk
  · obtain ⟨_, -, hb⟩ := bind_eq_ok.mp hb
    split at hb
    · cases hb
      exact ⟨_, _, rfl⟩
    · obtain ⟨accs, -, hb⟩ := bind_eq_ok.mp hb
      cases hb
      exact ⟨accs, true, rfl⟩
  · exact ⟨_, _, by rw [hk]⟩

/-- The three read commands of the loudness unit (R141 to R143) keep it. -/
theorem luRead_keeps_lu {i : Instr} {s t : State} (he : exec i s = .next t)
    (hi : (∃ k, i = .luResult k) ∨ (∃ k b, i = .luHistRead k b) ∨ (∃ x, i = .luCoefRead x)) :
    t.lu = s.lu := by
  obtain ⟨body, h, hbody⟩ : ∃ body, exec i s = .next (runCommand i body s) ∧
      ∀ t rs, body s = .ok (t, rs) → t.lu = s.lu := by
    rcases hi with ⟨k, rfl⟩ | ⟨k, b, rfl⟩ | ⟨x, rfl⟩
    all_goals
      refine ⟨_, rfl, fun t rs hb => ?_⟩
      simp only [bind_eq_ok] at hb
    · obtain ⟨_, -, _, -, hb⟩ := hb; cases hb; rfl
    · obtain ⟨_, -, _, -, _, -, hb⟩ := hb; cases hb; rfl
    · obtain ⟨_, -, _, -, hb⟩ := hb; cases hb; rfl
  rcases completes_or_keeps h he with ⟨t', rs, hb, rfl⟩ | hk
  · exact hbody t' rs hb
  · rw [hk]

/-- What a command can do to the loudness unit. -/
theorem exec_lu_cases {i : Instr} {s t : State} (he : exec i s = .next t) :
    i = .reset ∨ i = .luInit ∨
    (i = .luFrame ∧ t.lu.blockN = s.lu.blockN ∧ t.lu.hopN = s.lu.hopN) ∨
    ∃ accs committed, t.lu = { s.lu with accs := accs, committed := committed } := by
  by_cases hr : i = .reset
  · exact .inl hr
  by_cases hf : i.opcode.row.family = .loudness
  · rcases family_eq_loudness.mp hf with rfl | rfl | rfl | hread
    · exact .inr (.inl rfl)
    · exact .inr (.inr (.inl ⟨rfl, luFrame_keeps_lengths he⟩))
    · exact .inr (.inr (.inr (luFinalize_writes he)))
    · exact .inr (.inr (.inr ⟨_, _, luRead_keeps_lu he hread⟩))
  · exact .inr (.inr (.inr ⟨_, _, exec_keeps_lu he hr hf⟩))

end Sys2Proof.Machine
end

section
/-! PROOFS. The statements about the state's registers: `10_state.md` rules R33, R47 to R50. -/

namespace Sys2Proof.Proofs

open Sys2Proof.Machine Sys2Proof.Claims

/-- Settles O24: such an access fails in the memory primitive, whatever the state. -/
theorem illegalCsrAccessRaises : Obligations.IllegalCsrAccessRaises := by
  refine ⟨fun s a h0 hro hrw => ?read, fun s a h0 hro hrw => ?latchedRead, fun s a v h0 hrw => ?write⟩
  case read =>
    exact exec_eq_raised (i := .csrRead a) (r := raiseOf .illegalCsr) rfl h0
      (by rw [memRead_of_unimplemented hro hrw]; rfl)
  case latchedRead =>
    exact exec_of_raise_latched (i := .csrRead a) rfl h0 rfl
      (by rw [memRead_of_unimplemented hro hrw]; rfl)
  case write =>
    exact exec_eq_raised (i := .csrWrite a v) (r := raiseOf .illegalCsr) rfl h0
      (by rw [memWrite_of_not_readWrite hrw]; rfl)

/-- Settles O26, from what a command can do to each of the two units. -/
theorem observationRegistersHaveTheirWriters : Obligations.ObservationRegistersHaveTheirWriters := by
  refine ⟨fun s => ⟨memRead_addr .cpEnv s, memRead_addr .cpGainDb s, memRead_addr .cpDelayN s,
    memRead_addr .cpWindowN s, memRead_addr .luBlockN s, memRead_addr .luHopN s,
    memRead_addr .luFrames s⟩,
    fun i s t he => ⟨?cpObserved, ?cpLengths, ?luLengths, ?luFrames, ?reset, ?cpInit⟩⟩
  case cpObserved =>
    intro hne
    rcases exec_cp_cases he with rfl | rfl | ⟨z, rfl, -⟩ | ⟨pre, env, hcp⟩
    · exact .inr (.inr rfl)
    · exact .inr (.inl rfl)
    · exact .inl ⟨z, rfl⟩
    · simp [hcp] at hne
  case cpLengths =>
    intro hne
    rcases exec_cp_cases he with rfl | rfl | ⟨z, -, pre, env, fifo, e, g, hcp⟩ | ⟨pre, env, hcp⟩
    · exact .inr rfl
    · exact .inl rfl
    · simp [hcp] at hne
    · simp [hcp] at hne
  case luLengths =>
    intro hne
    rcases exec_lu_cases he with rfl | rfl | ⟨-, hblock, hhop⟩ | ⟨accs, committed, hlu⟩
    · exact .inr rfl
    · exact .inl rfl
    · simp [hblock, hhop] at hne
    · simp [hlu] at hne
  case luFrames =>
    intro hne
    rcases exec_lu_cases he with rfl | rfl | ⟨rfl, -⟩ | ⟨accs, committed, hlu⟩
    · exact .inr (.inr rfl)
    · exact .inl rfl
    · exact .inr (.inl rfl)
    · simp [hlu] at hne
  case reset =>
    rintro rfl
    rw [exec_reset] at he
    cases he
    exact ⟨rfl, rfl, rfl, rfl, rfl, rfl, rfl⟩
  case cpInit =>
    rintro rfl h0 h1
    exact cpInit_clears_observations he h0 h1

/-- Settles O12, unit by unit in the order of the reset table. -/
theorem resetStateHoldsTheResetValues : Obligations.ResetStateHoldsTheResetValues := by
  refine ⟨
    -- ERR and ERR_INFO, then the hardwired registers.
    rfl, rfl,
    memRead_addr .id _, memRead_addr .params _, memRead_addr .params2 _, memRead_addr .params3 _,
    -- The configuration registers.
    rfl, rfl, rfl, rfl, rfl, by decide, rfl,
    -- The five register files.
    fun i => Vector.getElem_replicate i.isLt, fun i => Vector.getElem_replicate i.isLt,
    fun i => Vector.getElem_replicate i.isLt, fun i => Vector.getElem_replicate i.isLt,
    fun i => Vector.getElem_replicate i.isLt,
    -- The frame demultiplexer.
    rfl, rfl, fun c => Vector.getElem_replicate c.isLt, rfl, rfl, ?luTpCp⟩
  -- Every item of the loudness unit, the true-peak detector and the compressor is a field of its reset
  -- literal.
  case luTpCp => and_intros <;> rfl

end Sys2Proof.Proofs
end

section
/-! SUPPORT. What a write of a CSR leaves alone (`20_memory.md` rule R59): the other CSRs, and the
register itself when it is written again. -/

namespace Sys2Proof.Machine

/-- A register stores only the defined bits of a written value, so storing them again is no change. -/
theorem ConfigRegs.write_again {c c' : ConfigRegs} {r : Csr} {v : Dword}
    (h : c.write r v = some c') : c'.write r v = some c' := by
  cases r
  all_goals cases h
  case luWeight k => simp [ConfigRegs.write]
  all_goals rfl

/-- The value of each CSR stands in a field, or in an element of the weights, of its own. -/
theorem csrValue_write_ne {s : State} {c : ConfigRegs} {r q : Csr} {v : Dword}
    (h : s.cfg.write r v = some c) (hne : r ≠ q) :
    csrValue q { s with cfg := c } = csrValue q s := by
  cases r
  all_goals cases h
  case luWeight k =>
    cases q with
    | luWeight j =>
      have hkj : k.val ≠ j.val := fun e => hne (congrArg Csr.luWeight (Fin.ext e))
      exact Vector.getElem_set_ne k.isLt j.isLt hkj
    | _ => rfl
  -- The register itself contradicts `hne`; every other value reads a field not written.
  all_goals cases q <;> trivial

/-- A completed write can be repeated and gives the same state. -/
theorem memWrite_again {a : Half} {v : Dword} {s t : State} (h : memWrite a v s = .ok t) :
    memWrite a v t = .ok t := by
  obtain ⟨r, cfg, hr, hw, rfl⟩ := memWrite_eq_ok.mp h
  exact memWrite_eq_ok.mpr ⟨r, cfg, hr, ConfigRegs.write_again hw, rfl⟩

/-- A completed write is seen at no other address, implemented or not. -/
theorem memRead_memWrite_ne {a b : Half} {v : Dword} {s t : State} (h : memWrite a v s = .ok t)
    (hab : a ≠ b) : memRead b t = memRead b s := by
  obtain ⟨r, cfg, hr, hw, rfl⟩ := memWrite_eq_ok.mp h
  cases hq : csrAt b with
  | none => simp [memRead, hq]
  | some q =>
    have hne : r ≠ q := by
      rintro rfl
      exact hab ((addr_of_csrAt hr).trans (addr_of_csrAt hq).symm)
    simp [memRead, hq, csrValue_write_ne hw hne]

/-- Taking an error shows in ERR, or another error is latched already and nothing changes (R166). -/
theorem State.latch_eq_self_of_err_eq {s : State} {r : Raise} {w : Word}
    (h : (s.latch r w).err = s.err) : s.latch r w = s := by
  by_cases h0 : s.err = 0#8
  · simp only [State.latch, h0, if_true] at h
    exact absurd h r.error.code_ne_zero
  · exact State.latch_of_latched h0 r w

/-- A command that leaves ERR alone completes its body, or it changes nothing but the result port. -/
theorem completes_or_emits {i : Instr} {body : State → Effect} {s t : State}
    (h : exec i s = .next (runCommand i body s)) (he : exec i s = .next t) (herr : t.err = s.err) :
    (∃ t' rs, body s = .ok (t', rs) ∧ t = t'.emit rs) ∨ ∃ rs, t = s.emit rs := by
  rw [h] at he
  cases he
  unfold runCommand at herr ⊢
  rcases runWord_cases (some i.opcode) (encodeWord i) body s with
    ⟨-, -, e⟩ | ⟨-, t', rs, hb, e⟩ | ⟨-, r, -, e⟩
  · exact .inr ⟨_, e⟩
  · exact .inl ⟨t', rs, hb, e⟩
  · rw [e] at herr
    exact .inr ⟨_, by rw [e, State.latch_eq_self_of_err_eq herr]⟩

/-- A CSR_WRITE that raises nothing is the memory primitive (R66, R88). -/
theorem memWrite_of_exec_csrWrite {s t : State} {a : Half} {v : Dword}
    (he : exec (.csrWrite a v) s = .next t) (h0 : s.err = 0#8) (h1 : t.err = 0#8) :
    memWrite a v s = .ok t := by
  obtain ⟨t', rs, hb, rfl⟩ := body_of_exec rfl he h0 h1
  obtain ⟨u, hu, hb⟩ := bind_eq_ok.mp hb
  cases hb
  rwa [State.emit_nil]

/-- A memory write that completes is what CSR_WRITE does when no error is latched (R66, R88). -/
theorem exec_csrWrite_of_memWrite {s t : State} {a : Half} {v : Dword}
    (h0 : s.err = 0#8) (hw : memWrite a v s = .ok t) : exec (.csrWrite a v) s = .next t := by
  have he := exec_of_ok (i := .csrWrite a v) (t := t) (rs := []) rfl h0 (by rw [hw]; rfl)
  rwa [State.emit_nil] at he

end Sys2Proof.Machine
end

section
/-! PROOFS. The statements about the CSR space: `20_memory.md` rule R59. -/

namespace Sys2Proof.Proofs

open Sys2Proof.Machine

/-- Settles O25: a read's body returns its own state, and a write is the memory primitive. -/
theorem csrAccessesHaveNoSideEffect : Obligations.CsrAccessesHaveNoSideEffect := by
  refine ⟨fun s t a he herr => ?read, fun s t a b v h0 he h1 => ?write⟩
  case read =>
    rcases completes_or_emits rfl he herr with ⟨t', rs, hb, rfl⟩ | ⟨rs, rfl⟩
    · obtain ⟨v, -, hb⟩ := bind_eq_ok.mp hb
      cases hb
      rfl
    · rfl
  case write =>
    have hw := memWrite_of_exec_csrWrite he h0 h1
    refine ⟨?_, exec_csrWrite_of_memWrite h1 (memWrite_again hw), memRead_memWrite_ne hw⟩
    obtain ⟨r, cfg, -, -, rfl⟩ := memWrite_eq_ok.mp hw
    rfl

end Sys2Proof.Proofs
end

section
/-! SUPPORT. Illegal command words (`30_encoding.md` rule R78): which words the decoder refuses, and what
the step does with one (`40_control.md` rule R83). -/

namespace Sys2Proof

open Claims

/-! ## Refused words -/

/-- No opcode's OP value is in the ranges of R78. -/
theorem Opcode.code_not_unassigned (o : Opcode) : ¬ opUnassigned o.row.code.toNat := by
  unfold opUnassigned
  cases o <;> decide

theorem opcodeOf_of_unassigned {op : Byte} (h : opUnassigned op.toNat) : opcodeOf op = none := by
  cases ho : opcodeOf op with
  | none => rfl
  | some o => exact absurd (code_of_opcodeOf ho ▸ h) o.code_not_unassigned

/-- A word with an unassigned OP takes no operand dword (R70). -/
theorem nopsOf_of_unassigned {op : Byte} (h : opUnassigned op.toNat) : nopsOf op = 0 := by
  simp [nopsOf, opcodeOf_of_unassigned h]

@[simp] theorem nopsOf_code (o : Opcode) : nopsOf o.row.code = o.row.nops := by
  simp [nopsOf]

theorem decodeWord_of_unassigned {w : Word} (h : opUnassigned (opField w).toNat) (ops : List Dword) :
    decodeWord w ops = .error .unassignedOp := by
  simp [decodeWord, opcodeOf_of_unassigned h]

/-- The kinds of R78 that concern a field: a nonzero IDX or IMM where the row says 0, a reserved
selector, and reserved IMM bits of CP_FRAME. -/
def IllegalField (o : Opcode) (idx : Byte) (imm : Half) : Prop :=
  (o.row.idx = .zero ∧ idx ≠ 0#8) ∨ (o.row.imm = .zero ∧ imm ≠ 0#16) ∨
    (o = .luCoefRead ∧ (imm.extractLsb' 4 12 ≠ 0#12 ∨ 4 < (imm.extractLsb' 0 3).toNat)) ∨
    (o = .cpFrame ∧ imm.extractLsb' 1 15 ≠ 0#15)

/-- The selector of R77 is the low three bits of IMM's low four. -/
theorem selectorOk_low (imm : Half) :
    selectorOk (imm.extractLsb' 0 4) = decide ((imm.extractLsb' 0 3).toNat ≤ 4) := by
  have h : (imm.extractLsb' 0 4).extractLsb' 0 3 = imm.extractLsb' 0 3 := by
    apply BitVec.eq_of_getLsbD_eq
    intro k hk
    simp only [BitVec.getLsbD_extractLsb']
    simp [hk, show k < 4 by omega]
  rw [selectorOk, h]

/-- Each illegal field fails one of the decoder's three checks. -/
theorem check_fails_of_illegalField {o : Opcode} {idx : Byte} {imm : Half}
    (h : IllegalField o idx imm) :
    idxOk o.row.idx idx = false ∨ immReservedOk o.row.imm imm = false ∨
      immSelectorOk o.row.imm imm = false := by
  rcases h with ⟨hk, hne⟩ | ⟨hk, hne⟩ | ⟨rfl, hne | hgt⟩ | ⟨rfl, hne⟩
  · exact .inl (by simp [hk, idxOk, hne])
  · exact .inr (.inl (by simp [hk, immReservedOk, hne]))
  · exact .inr (.inr (by simp [Opcode.row, immSelectorOk, hne]))
  · have hsel : selectorOk (imm.extractLsb' 0 4) = false := by
      rw [selectorOk_low]
      exact decide_eq_false (Nat.not_le.mpr hgt)
    exact .inr (.inr (by simp [Opcode.row, immSelectorOk, hsel]))
  · exact .inr (.inl (by simp [Opcode.row, immReservedOk, hne]))

theorem decodeWord_of_illegalField {o : Opcode} {idx : Byte} {imm : Half}
    (h : IllegalField o idx imm) (ops : List Dword) :
    ∃ why, decodeWord (mkWord o.row.code idx imm) ops = .error why := by
  simp only [decodeWord, opField_mkWord, idxField_mkWord, immField_mkWord, opcodeOf_code]
  rcases check_fails_of_illegalField h with hf | hf | hf
  · exact ⟨.reservedField, by simp [hf]⟩
  · exact ⟨.reservedField, by simp [hf]⟩
  · rw [hf]
    split
    · exact ⟨.reservedSelector, rfl⟩
    · exact ⟨.reservedField, rfl⟩

/-- A refused word is taken off the stream with its operand dwords (R70, R83). -/
theorem decode_of_refused {w : Word} {ops : List Dword} {why : Reject} (rest : List Byte)
    (hn : nopsOf (opField w) = ops.length) (hd : decodeWord w ops = .error why) :
    decode (bytesOfWord w ++ ops.flatMap bytesOfDword ++ rest) = .illegal why w rest := by
  rw [decode_bytes hn, hd]

end Sys2Proof

namespace Sys2Proof.Machine

open Claims

/-! ## The step of an illegal word -/

theorem nresOf_opcodeOf (w : Word) (s : State) : nresOf (opcodeOf (opField w)) s = wordNres w s := by
  unfold nresOf wordNres
  cases opcodeOf (opField w) <;> rfl

/-- NRES depends on the compressor unit alone (R74). -/
theorem wordNres_port (w : Word) (s : State) (rest : List Byte) :
    wordNres w { s with port := rest } = wordNres w s := rfl

@[simp] theorem wordNres_mkWord (o : Opcode) (idx : Byte) (imm : Half) (s : State) :
    wordNres (mkWord o.row.code idx imm) s = nres o s := by
  simp [wordNres]

theorem wordNres_of_unassigned {w : Word} (h : opUnassigned (opField w).toNat) (s : State) :
    wordNres w s = 0 := by
  simp [wordNres, opcodeOf_of_unassigned h]

theorem step_of_illegal {s : State} {why : Reject} {w : Word} {rest : List Byte}
    (h : decode s.port = .illegal why w rest) :
    step s = .next (runIllegal w { s with port := rest }) := by
  simp only [step, h]

/-- Latched or not, an illegal word returns its NRES POISON dwords (R74). -/
theorem runIllegal_results (w : Word) (s : State) :
    (runIllegal w s).results = s.results ++ List.replicate (wordNres w s) poison := by
  unfold runIllegal
  rcases runWord_cases (opcodeOf (opField w)) w (fun _ => .error (raiseOf .illegalCommand)) s with
    ⟨-, -, e⟩ | ⟨-, t, rs, hb, -⟩ | ⟨-, r, -, e⟩
  · rw [e, State.emit_results, nresOf_opcodeOf]
  · cases hb
  · rw [e, State.emit_results, State.latch_results, nresOf_opcodeOf]

/-- The record of an error without chan and stream is the command word (R166). -/
theorem errInfoWord_zero (w : Word) : errInfoWord 0#16 0#16 w = 0#32 ++ w := rfl

theorem runIllegal_of_clear {s : State} (h0 : s.err = 0#8) (w : Word) :
    runIllegal w s = { s with
      err := 5#8, errInfo := 0#32 ++ w
      results := s.results ++ List.replicate (wordNres w s) poison } := by
  simp [runIllegal, runWord, h0, raiseOf, State.latch_of_clear h0, nresOf_opcodeOf, State.emit,
    ErrCode.code, errInfoWord_zero]

/-- An illegal word that meets no latched error latches ILLEGAL_COMMAND (R78, R166). -/
theorem step_of_illegal_of_clear {s : State} {why : Reject} {w : Word} {rest : List Byte}
    (h0 : s.err = 0#8) (h : decode s.port = .illegal why w rest) :
    step s = .next { s with
      port := rest, err := 5#8, errInfo := 0#32 ++ w
      results := s.results ++ List.replicate (wordNres w s) poison } := by
  rw [step_of_illegal h, runIllegal_of_clear (s := { s with port := rest }) h0, wordNres_port]

end Sys2Proof.Machine
end

section
/-! SUPPORT. The result dwords of a command (`30_encoding.md` rule R74). -/

namespace Sys2Proof.Machine

/-- A body that completes latches no error: RESET clears the latch and the others keep it. -/
theorem ExecFrame.err_clear {i : Instr} {s t : State} {rs : List Dword} (frame : ExecFrame i s t rs)
    (h0 : s.err = 0#8) : t.err = 0#8 := by
  by_cases hr : i = .reset
  · rw [frame.reset hr]
    rfl
  · rw [(frame.err hr).1, h0]

/-- A command returns NRES dwords: those of a body that completed, in a state where it may run and with
no error latched by it, or POISON alone. -/
theorem exec_results {i : Instr} {s t : State} (he : exec i s = .next t) :
    (∃ rs, t.results = s.results ++ rs ∧ rs.length = nres i.opcode s ∧
      (s.err = 0#8 ∨ runsWhileLatched (some i.opcode) = true) ∧ (s.err = 0#8 → t.err = 0#8)) ∨
    t.results = s.results ++ List.replicate (nres i.opcode s) poison := by
  obtain ⟨body, h, frame⟩ := exec_frame i s
  rw [h] at he
  cases he
  unfold runCommand
  rcases runWord_cases (some i.opcode) (encodeWord i) body s with
    ⟨-, -, e⟩ | ⟨hrun, t', rs, hb, e⟩ | ⟨-, r, -, e⟩
  · exact .inr (by rw [e, State.emit_results]; rfl)
  · have hf := frame t' rs hb
    refine .inl ⟨rs, ?_, hf.count, hrun, fun h0 => ?_⟩
    · rw [e, State.emit_results, hf.results]
    · rw [e, State.emit_err, hf.err_clear h0]
  · exact .inr (by rw [e, State.emit_results, State.latch_results]; rfl)

end Sys2Proof.Machine
end

section
/-! PROOFS. The statements about illegal words and result counts: `30_encoding.md` rules R74, R78. -/

namespace Sys2Proof.Proofs

open Sys2Proof.Machine Sys2Proof.Claims

/-- Settles O6: the decoder refuses each kind, and the step latches what it refuses. -/
theorem illegalWordsRaiseIllegalCommand : Obligations.IllegalWordsRaiseIllegalCommand := by
  refine ⟨fun s w rest h0 hop hport => ?unassigned,
    fun s o idx imm ops rest h0 hlen hfield hport => ?field⟩
  case unassigned =>
    have hdec : decode s.port = .illegal .unassignedOp w rest := by
      have := decode_of_refused (ops := []) rest (nopsOf_of_unassigned hop)
        (decodeWord_of_unassigned hop [])
      simpa [hport] using this
    rw [step_of_illegal_of_clear h0 hdec, wordNres_of_unassigned hop]
    simp
  case field =>
    obtain ⟨why, hrefused⟩ := decodeWord_of_illegalField hfield ops
    have hdec : decode s.port = .illegal why (mkWord o.row.code idx imm) rest := by
      have hn : nopsOf (opField (mkWord o.row.code idx imm)) = ops.length := by simp [hlen]
      rw [hport]
      exact decode_of_refused rest hn hrefused
    rw [step_of_illegal_of_clear h0 hdec, wordNres_mkWord]
    rfl

/-- Settles O10, from what a command and an illegal word leave on the result port. -/
theorem everyCommandReturnsItsResultCount : Obligations.EveryCommandReturnsItsResultCount := by
  refine ⟨fun i s t he => ?command, fun s t why w rest hdec he => ?illegalWord, by decide,
    fun _ => rfl⟩
  case command =>
    rcases exec_results he with ⟨rs, hres, hlen, hrun, hclear⟩ | hres
    · refine ⟨rs, hres, hlen, ?_⟩
      rintro (⟨h0, h1⟩ | ⟨h0, hdiscarded⟩)
      · exact absurd (hclear h0) h1
      · have hrun := hrun.resolve_left h0
        simp [(runsWhileLatched_eq_false i).mpr hdiscarded] at hrun
    · exact ⟨_, hres, List.length_replicate, fun _ d hd => List.eq_of_mem_replicate hd⟩
  case illegalWord =>
    rw [step_of_illegal hdec] at he
    cases he
    exact runIllegal_results w _

end Sys2Proof.Proofs
end

section
/-! SUPPORT. What a draw is a result of (`00_scope.md` rule R15), and the two branches of the Lag1 level
with their NaNs (`43_lag1.md` rule R101). -/

namespace Sys2Proof.Machine

open Claims

/-- A drawn value is a result of the computed one, whatever the draw. -/
theorem isResult_drawNaN (d : Nat) (v : F64) : isResult v (drawNaN d v) :=
  ⟨drawNaN_of_not_nan, fun hnan => by rwa [isNaN_drawNaN]⟩

/-- A NaN target or level goes through the difference and the product into the sum. -/
theorem isNaN_fadd_fmul_fsub {l k x : F64} (h : isNaN x = true ∨ isNaN l = true) :
    isNaN (fadd l (fmul k (fsub x l))) = true := by
  rcases h with hx | hl
  · simp [hx]
  · simp [hl]

theorem fle_of_nan {l x : F64} (h : isNaN x = true ∨ isNaN l = true) : fle l x = false :=
  h.elim fle_nan_right fle_nan_left

theorem lagLevel_of_fle {g : Lag} {x : F64} (h : fle g.level x = true) :
    lagLevel g x = fadd g.level (fmul g.rise (fsub x g.level)) := if_pos h

theorem lagLevel_of_not_fle {g : Lag} {x : F64} (h : fle g.level x = false) :
    lagLevel g x = fadd g.level (fmul g.fall (fsub x g.level)) :=
  if_neg (Bool.eq_false_iff.mp h)

/-- The level that lag_step stores is a result of R101's expression. -/
theorem lagStep_level_isResult (d : Nat) (g : Lag) (x : F64) :
    isResult (lagLevel g x) (lagStep d g x).level := isResult_drawNaN d (lagLevel g x)

end Sys2Proof.Machine
end

section
/-! PROOFS. The statements about the Lag1 envelope follower: `43_lag1.md` rule R101. -/

namespace Sys2Proof.Proofs

open Sys2Proof.Machine

/-- Settles O32, branch by branch; a NaN operand never compares, so it falls and its step is a NaN. -/
theorem lagUpdateFollowsTheSign : Obligations.LagUpdateFollowsTheSign := by
  refine fun d g x => ⟨fun hrise => ?rise, fun hfall => ?fall, fun hnan => ?nan, rfl, rfl, rfl⟩
  case rise =>
    rw [← lagLevel_of_fle hrise]
    exact lagStep_level_isResult d g x
  case fall =>
    rw [← lagLevel_of_not_fle hfall]
    exact lagStep_level_isResult d g x
  case nan =>
    have hfall := fle_of_nan hnan
    have hlevel : isNaN (lagLevel g x) = true := by
      rw [lagLevel_of_not_fle hfall]
      exact isNaN_fadd_fmul_fsub hnan
    exact ⟨hfall, (lagStep_level_isResult d g x).2 hlevel⟩

end Sys2Proof.Proofs
end

section
/-! SUPPORT. The MovMax state of a whole run of samples (`44_movmax.md` rules R106, R108). -/

namespace Sys2Proof.Machine

theorem MovMax.holds_empty (w : Dword) : MovMax.Holds w [] (MovMax.empty w) :=
  ⟨rfl, List.drop_nil.symm, rfl⟩

/-- Feeding samples that are not NaNs extends the run whose MovMax state this is. -/
theorem MovMax.Holds.foldl {w : Dword} (hw : 1 ≤ w.toNat) {xs ys : List F64} {m : MovMax}
    (h : MovMax.Holds w xs m) (hxs : ∀ v ∈ xs, isNaN v = false) (hys : ∀ v ∈ ys, isNaN v = false) :
    MovMax.Holds w (xs ++ ys) (ys.foldl (fun m v => (mmxStep m v).1) m) := by
  induction ys generalizing xs m with
  | nil => rwa [List.append_nil]
  | cons y ys ih =>
    obtain ⟨hy, hys⟩ := List.forall_mem_cons.mp hys
    have hxy : ∀ v ∈ xs ++ [y], isNaN v = false :=
      List.forall_mem_append.mpr ⟨hxs, List.forall_mem_singleton.mpr hy⟩
    rw [List.append_cons]
    exact ih (mmxPush_holds hw h hxs hy) hxy hys

/-- Feeding samples that are not NaNs, from the empty window on, gives their MovMax state. -/
theorem MovMax.holds_foldl {w : Dword} (hw : 1 ≤ w.toNat) {xs : List F64}
    (hxs : ∀ v ∈ xs, isNaN v = false) :
    MovMax.Holds w xs (xs.foldl (fun m v => (mmxStep m v).1) (MovMax.empty w)) :=
  (MovMax.holds_empty w).foldl hw (List.forall_mem_nil _) hxs

/-- The last W samples of a run hold at least one, W being at least 1. -/
theorem drop_length_sub_ne_nil {α : Type} {xs : List α} {w : Nat} (hw : 1 ≤ w) (hne : xs ≠ []) :
    xs.drop (xs.length - w) ≠ [] := by
  have := List.length_pos_iff.mpr hne
  rw [Ne, List.drop_eq_nil_iff]
  omega

/-- The front candidate of a run's state is the oldest of the largest of its last W samples (R108). -/
theorem MovMax.Holds.front_oldest_maximum {w : Dword} {xs : List F64} {m : MovMax}
    (h : MovMax.Holds w xs m) (hw : 1 ≤ w.toNat) (hne : xs ≠ [])
    (hxs : ∀ v ∈ xs, isNaN v = false) :
    ∃ older newer, m.win = older ++ m.cand.headD f0 :: newer ∧
      (∀ v ∈ older, flt v (m.cand.headD f0) = true) ∧
      ∀ v ∈ newer, fle v (m.cand.headD f0) = true := by
  have hwin : ∀ v ∈ m.win, isNaN v = false := by
    intro v hv
    rw [h.win] at hv
    exact hxs v (List.mem_of_mem_drop hv)
  have hwne : m.win ≠ [] := by
    rw [h.win]
    exact drop_length_sub_ne_nil hw hne
  rw [h.cand]
  exact candidates_head m.win hwin hwne

end Sys2Proof.Machine
end

section
/-! SUPPORT. A NaN on its way into mmx_step (`44_movmax.md` rule R107): what the compressor's
preprocessor does with a frame that holds one. -/

namespace Sys2Proof.Machine

/-- The rectifier of R154 clears a sign at most, so it makes and hides no NaN. -/
@[simp] theorem isNaN_rect (x : F64) : isNaN (rect x) = isNaN x := by
  unfold rect
  split
  · exact isNaN_fabs x
  · rfl

/-- `k` is the lowest channel of the frame `x` that holds a NaN. -/
structure LowestNaN (x : List F64) (k : Nat) : Prop where
  below : ∀ j, j < k → isNaN (x.getD j 0#64) = false
  here : isNaN (x.getD k 0#64) = true

/-- No frame without samples holds a NaN. -/
theorem not_lowestNaN_nil {k : Nat} : ¬ LowestNaN [] k := fun h => by cases h.here

theorem LowestNaN.tail {v : F64} {x : List F64} {k : Nat} (h : LowestNaN (v :: x) (k + 1)) :
    LowestNaN x k :=
  ⟨fun j hj => h.below (j + 1) (Nat.succ_lt_succ hj), h.here⟩

/-- Cutting a frame behind its lowest NaN keeps that NaN the lowest. -/
theorem LowestNaN.take {x : List F64} {k n : Nat} (h : LowestNaN x k) (hk : k < n) :
    LowestNaN (x.take n) k := by
  have hget : ∀ j, j ≤ k → (x.take n).getD j 0#64 = x.getD j 0#64 := fun j hj => by
    rw [List.getD_eq_getElem?_getD, List.getElem?_take_of_lt (by omega), List.getD_eq_getElem?_getD]
  exact ⟨fun j hj => by rw [hget j (by omega)]; exact h.below j hj,
    by rw [hget k (Nat.le_refl k)]; exact h.here⟩

/-- In Peak mode the loop of R156, begun at channel `c`, stops at the first NaN and names its channel. -/
theorem cpFeed_peak_nan {d c k : Nat} {mm : MovMax} {pv : F64} {x : List F64} (h : LowestNaN x k) :
    cpFeed d c (.peak mm) pv x = .error ⟨.nanInput, BitVec.ofNat 16 (c + k), 0#16⟩ := by
  induction x generalizing c k mm pv with
  | nil => exact absurd h not_lowestNaN_nil
  | cons v x ih =>
    cases k with
    | zero =>
      have hv : isNaN v = true := h.here
      simp [cpFeed, hv]
    | succ k =>
      have hv : isNaN v = false := h.below 0 (Nat.succ_pos k)
      have hnext : c + 1 + k = c + (k + 1) := by omega
      simp [cpFeed, hv, ih h.tail, hnext]

theorem cpDetect_peak_nan {d k : Nat} {u : Compressor} {mm : MovMax} {x : List F64}
    (hpre : u.pre = .peak mm) (h : LowestNaN x k) :
    cpDetect d u x = .error ⟨.nanInput, BitVec.ofNat 16 k, 0#16⟩ := by
  simp [cpDetect, hpre, cpFeed_peak_nan h]

/-- need_frame gives the FD's frame when it is VALID and has the unit's channels (R124). -/
theorem needFrame_of_valid {c : Byte} {s : State} (hv : s.fd.valid = true) (hc : s.fd.c = c) :
    needFrame c s = .ok (frameSamples s.fd c) := by
  simp [needFrame, hv, hc]

end Sys2Proof.Machine
end

section
/-! PROOFS. The statements about MovMax: `44_movmax.md` rules R107, R108. -/

namespace Sys2Proof.Proofs

open Sys2Proof.Machine

/-- Settles O34: the state after a run of samples is that of its last W, and its front candidate is
what mmx_step returns. -/
theorem movMaxReturnsTheOldestWindowMaximum : Obligations.MovMaxReturnsTheOldestWindowMaximum := by
  intro w xs x hw hxs hx m window
  have hall : ∀ v ∈ xs ++ [x], isNaN v = false :=
    List.forall_mem_append.mpr ⟨hxs, List.forall_mem_singleton.mpr hx⟩
  have h : MovMax.Holds w (xs ++ [x]) (mmxStep m x).1 :=
    mmxPush_holds hw (MovMax.holds_foldl hw hxs) hxs hx
  have hwin : (mmxStep m x).1.win = window := h.win
  refine ⟨hwin, hwin ▸ h.cand, ?_⟩
  rw [← hwin]
  exact h.front_oldest_maximum hw (by simp) hall

/-- Settles O35: MMX_PROCESS checks its operand, and the detector of both compressor commands stops at
the frame's lowest NaN. -/
theorem nanIntoMovMaxRaises : Obligations.NanIntoMovMaxRaises := by
  refine ⟨fun s i x h0 hi hr hx => ?process,
    fun s mm c h0 hr hpre hv hc hlt _ hbelow hnan => ?compressor⟩
  case process =>
    exact exec_eq_raised (i := .mmxProcess i x) (r := raiseOf .nanInput) rfl h0
      (by simp [instAt_of_lt hi, hr, hx])
  case compressor =>
    have hlow : LowestNaN (frameSamples s.fd s.cp.c) c := LowestNaN.take ⟨hbelow, hnan⟩ hlt
    have hframe := needFrame_of_valid hv hc
    have hdetect := cpDetect_peak_nan (d := s.draws) hpre hlow
    constructor
    · exact exec_eq_raised (i := .cpFrame false) (r := ⟨.nanInput, BitVec.ofNat 16 c, 0#16⟩) rfl h0
        (by simp [hr, cpInputFrame, hframe, hdetect])
    · exact exec_eq_raised (i := .cpFrameInitial) (r := ⟨.nanInput, BitVec.ofNat 16 c, 0#16⟩) rfl h0
        (by simp [hr, hframe, hdetect])

end Sys2Proof.Proofs
end

section
/-! SUPPORT. The consumers of a frame (`46_frame.md` rule R124): they check the frame before anything
else, and no command of another family writes the FD. -/

namespace Sys2Proof.Machine

open Claims

theorem needFrame_of_invalid {c : Byte} {s : State} (h : s.fd.valid = false ∨ s.fd.c ≠ c) :
    needFrame c s = .error (raiseOf .invalidFrame) := by
  rcases h with hv | hc
  · simp [needFrame, hv]
  · simp [needFrame, hc]

/-- A command of a READY unit whose body asks for a frame of `c` channels raises INVALID_FRAME when
there is none, whatever it would do with one. -/
theorem exec_raises_invalidFrame {i : Instr} {body : State → Effect} {s : State} {ready : Bool}
    {c : Byte} {consume : List F64 → Effect} (h : exec i s = .next (runCommand i body s))
    (hbody : body s = (needReady ready >>= fun _ => needFrame c s >>= consume)) (h0 : s.err = 0#8)
    (hr : ready = true) (hf : s.fd.valid = false ∨ s.fd.c ≠ c) :
    exec i s = .next (raised i .invalidFrame 0#16 0#16 s) :=
  exec_eq_raised (r := raiseOf .invalidFrame) h h0
    (by rw [hbody, hr, needReady_true, ok_bind, needFrame_of_invalid hf, error_bind])

theorem exec_keeps_fd {i : Instr} {s t : State} (he : exec i s = .next t) (hr : i ≠ .reset)
    (hf : i.opcode.row.family ≠ .frameDemux) : t.fd = s.fd := by
  obtain ⟨body, h, frame⟩ := exec_frame i s
  rcases completes_or_keeps h he with ⟨t', rs, hb, rfl⟩ | hk
  · obtain ⟨-, -, -, -, -, hfd, -⟩ := (frame t' rs hb).family hr
    exact hfd hf
  · rw [hk]

end Sys2Proof.Machine
end

section
/-! PROOFS. The statements about the frame demultiplexer: `46_frame.md` rule R124. -/

namespace Sys2Proof.Proofs

open Sys2Proof.Machine

/-- Settles O40: each consumer's body begins with need_ready and need_frame, and none is a command of
the FD's family. -/
theorem frameConsumersCheckTheFrame : Obligations.FrameConsumersCheckTheFrame := by
  refine ⟨fun s h0 => ⟨fun hr hf => ?luFrame, fun hr hf => ?tpFrame,
      fun hr hf => ⟨?cpFrame, ?cpFrameInitial⟩⟩,
    fun s c hv hc => needFrame_of_valid hv hc, fun i s t hi he => ?keepsFd⟩
  case luFrame => exact exec_raises_invalidFrame (i := .luFrame) rfl rfl h0 hr hf
  case tpFrame => exact exec_raises_invalidFrame (i := .tpFrame) rfl rfl h0 hr hf
  case cpFrame => exact exec_raises_invalidFrame (i := .cpFrame false) rfl rfl h0 hr hf
  case cpFrameInitial => exact exec_raises_invalidFrame (i := .cpFrameInitial) rfl rfl h0 hr hf
  case keepsFd =>
    rcases hi with rfl | rfl | ⟨z, rfl⟩ | rfl
    all_goals exact exec_keeps_fd he nofun nofun

end Sys2Proof.Proofs
end

section
/-! SUPPORT. What lu_weigh gives, channel by channel (`47_loudness.md` rule R132). -/

namespace Sys2Proof.Machine

open Claims

theorem luWeighChan_of_skipped {d : Nat} {ks kh : BqCoef} {ch : LuChan} {x : F64}
    (h : feq ch.w f0 = true) : luWeighChan d ks kh ch x = (ch, none) := if_pos h

/-- A weighed channel steps both filters, shelf first, and gives w·(y·y) of the filtered sample. -/
theorem luWeighChan_of_weighed {d : Nat} {ks kh : BqCoef} {ch : LuChan} {x : F64}
    (h : feq ch.w f0 = false) :
    ∃ y1 y2 e : F64, isResult (bqOutput ch.shelf ks x) y1 ∧ isResult (bqOutput ch.hp kh y1) y2 ∧
      isResult (fmul ch.w (fmul y2 y2)) e ∧
      luWeighChan d ks kh ch x =
        (⟨ch.w, ⟨x, ch.shelf.x1, y1, ch.shelf.y1⟩, ⟨y1, ch.hp.x1, y2, ch.hp.y1⟩⟩, some e) :=
  ⟨_, _, _, isResult_drawNaN _ _, isResult_drawNaN _ _, isResult_drawNaN _ _,
    if_neg (Bool.eq_false_iff.mp h)⟩

/-- Each channel of lu_weigh on its own, channel c with the draws from `d + 3c` on. -/
def luWeighed (d : Nat) (ks kh : BqCoef) (chs : List LuChan) (xs : List F64) :
    List (LuChan × Option F64) :=
  (chs.zip xs).mapIdx fun c p => luWeighChan (d + 3 * c) ks kh p.1 p.2

@[simp] theorem luWeighed_length {d : Nat} {ks kh : BqCoef} {chs : List LuChan} {xs : List F64}
    (h : chs.length = xs.length) : (luWeighed d ks kh chs xs).length = xs.length := by
  simp [luWeighed, h]

@[simp] theorem luWeighed_getElem {d : Nat} {ks kh : BqCoef} {chs : List LuChan} {xs : List F64}
    {c : Nat} (hc : c < chs.length) (hx : c < xs.length) (h : c < (luWeighed d ks kh chs xs).length) :
    (luWeighed d ks kh chs xs)[c] = luWeighChan (d + 3 * c) ks kh chs[c] xs[c] := by
  simp [luWeighed]

/-- The channels of lu_weigh do not depend on one another. -/
theorem luWeighChans_eq_unzip {d : Nat} {ks kh : BqCoef} {chs : List LuChan} {xs : List F64}
    (h : chs.length = xs.length) :
    luWeighChans ks kh d chs xs
      = ((luWeighed d ks kh chs xs).map (·.1), (luWeighed d ks kh chs xs).map (·.2)) := by
  induction chs generalizing d xs with
  | nil =>
    cases xs with
    | nil => rfl
    | cons x xs => cases h
  | cons ch chs ih =>
    cases xs with
    | nil => cases h
    | cons x xs =>
      have hdraws : luWeighed d ks kh (ch :: chs) (x :: xs)
          = luWeighChan d ks kh ch x :: luWeighed (d + 3) ks kh chs xs := by
        simp [luWeighed, List.mapIdx_cons, Nat.mul_add, Nat.add_assoc, Nat.add_comm 3]
      rw [luWeighChans, ih (Nat.succ.inj h), hdraws, List.map_cons, List.map_cons]

/-- The combined sum leaves the skipped channels out (R132). -/
theorem luCombine_eq_foldl (es : List (Option F64)) :
    luCombine es = (es.filterMap id).foldl fadd f0 := by
  rw [List.foldl_filterMap, luCombine]
  congr 1
  funext s v
  cases v <;> rfl

end Sys2Proof.Machine
end

section
/-! SUPPORT. The index of R133 and lu_commit (`47_loudness.md` rule R134), a lemma for each case of the
index: a NaN, past the last bin, below the first, a bin. -/

namespace Sys2Proof.Machine

open Claims

/-! ## Comparison with a bound of whole units -/

theorem fround_of_nan {x : F64} (h : isNaN x = true) : fround x = x := by
  have : ¬ isFinite x = true := fun hf => by rw [isFinite_not_nan hf] at h; cases h
  exact if_neg this

theorem isNaN_eq_false_of_fle {x y : F64} (h : fle x y = true) : isNaN y = false := by
  obtain ⟨⟨-, hy⟩, -⟩ : (_ ∧ isNaN y = false) ∧ _ := by simpa [fle] using h
  exact hy

theorem isNaN_eq_false_of_flt {x y : F64} (h : flt x y = true) : isNaN x = false := by
  obtain ⟨⟨hx, -⟩, -⟩ : (isNaN x = false ∧ _) ∧ _ := by simpa [flt] using h
  exact hx

/-- Nothing at or past a bound of at least zero is below zero. -/
theorem fle_eq_false_of_flt_zero {b i : F64} (hb : fle f0 b = true) (h : flt i f0 = true) :
    fle b i = false := by
  refine Bool.eq_false_iff.mpr fun hle => ?_
  have hpos : fle f0 i = true := fle_trans hb hle
  rw [(flt_false_iff (isNaN_eq_false_of_flt h) (by decide)).mpr hpos] at h
  cases h

/-- A value that is neither below zero nor at or past `b` has a smaller number of units than `b`. -/
theorem units_lt_of_flt_of_fle {b i : F64} (hb : isNaN b = false) (hs : fsign b = false)
    (hn : isNaN i = false) (hlow : flt i f0 = false) (hhigh : fle b i = false) :
    units i < units b := by
  have hzero : 0 ≤ fkey i := (fle_iff (by decide) hn).mp ((flt_false_iff hn (by decide)).mp hlow)
  have hbound : fkey i < fkey b := by
    rw [← Int.not_le, ← fle_iff hb hn, hhigh]
    exact Bool.false_ne_true
  have hmag : fmag i < fmag b := by
    unfold fkey at hzero hbound
    rw [hs] at hbound
    split at hzero <;> simp_all
  exact unitsOfMag_lt hmag

/-! ## The index (R133) -/

/-- R130's SCALE is the literal quotient 7801.0 / 78.0. -/
theorem fScale_eq_scale : fScale = scale := by decide +kernel

theorem luIndex_eq_energyIndex (e : F64) : luIndex e = energyIndex e := by
  rw [energyIndex, dbIndex, ← fScale_eq_scale]
  rfl

/-- A value below zero has its sign bit set and is no zero. -/
theorem fsign_of_flt_zero {e : F64} (h : flt e f0 = true) : fsign e = true ∧ isZero e = false := by
  have hkey : fkey e < 0 := (flt_iff (isNaN_eq_false_of_flt h) (by decide)).mp h
  unfold fkey at hkey
  split at hkey
  · rename_i hs
    refine ⟨hs, ?_⟩
    rw [isZero, beq_eq_false_iff_ne]
    omega
  · omega

theorem fnLog10_of_nan_or_neg {e : F64} (h : isNaN e = true ∨ flt e f0 = true) :
    fnLog10 e = qNaN := by
  rcases h with hn | hneg
  · exact if_pos hn
  · obtain ⟨hs, hz⟩ := fsign_of_flt_zero hneg
    simp [fnLog10, isNaN_eq_false_of_flt hneg, hz, hs]

theorem fnLog10_of_zero {e : F64} (h : isZero e = true) : fnLog10 e = fInf true := by
  simp [fnLog10, h, isZero_not_nan h]

theorem isNaN_luIndex {e : F64} (h : isNaN e = true ∨ flt e f0 = true) : isNaN (luIndex e) = true := by
  simp [luIndex, luIndexOfDb, fnLog10_of_nan_or_neg h, fround_of_nan]

/-- Silence has the index −inf. -/
theorem luIndex_of_zero {e : F64} (h : isZero e = true) : luIndex e = fInf true := by
  rw [luIndex, fnLog10_of_zero h]
  decide +kernel

/-! ## The bins -/

theorem fToNat_lt_binCount {i : F64} (hn : isNaN i = false) (hhigh : fle (fOfNat binCount) i = false)
    (hlow : flt i f0 = false) : fToNat i < binCount := by
  have hbins : units (fOfNat binCount) = binCount * oneUnits := by decide +kernel
  have hlt := units_lt_of_flt_of_fle (isNaN_fOfNat binCount) (by decide +kernel) hn hlow hhigh
  rw [hbins] at hlt
  exact (Nat.div_lt_iff_lt_mul oneUnits_pos).mpr hlt

@[simp] theorem histBump_length (hist : List Dword) (i : Nat) :
    (histBump hist i).length = hist.length := List.length_set

theorem histBump_getD_self {hist : List Dword} {i : Nat} (h : i < hist.length) :
    (histBump hist i).getD i 0#64 = hist.getD i 0#64 + 1#64 := by
  simp [histBump, List.getD_eq_getElem?_getD, h]

theorem histBump_getD_ne {hist : List Dword} {i j : Nat} (h : j ≠ i) :
    (histBump hist i).getD j 0#64 = hist.getD j 0#64 := by
  simp [histBump, List.getD_eq_getElem?_getD, List.getElem?_set_ne h.symm]

/-! ## lu_commit (R134) -/

theorem luCommit_of_nan {k : Nat} {a : LuAcc} {e : F64} (h : isNaN (luIndex e) = true) :
    luCommit k a e = .error ⟨.nanInput, BitVec.ofNat 16 k, 0#16⟩ := by
  simp [luCommit, h]

theorem luCommit_of_past {k : Nat} {a : LuAcc} {e : F64} (h : fle (fOfNat binCount) (luIndex e) = true) :
    luCommit k a e = .error ⟨.denormalizedInput, BitVec.ofNat 16 k, 0#16⟩ := by
  simp [luCommit, isNaN_eq_false_of_fle h, h]

theorem luCommit_of_below {k : Nat} {a : LuAcc} {e : F64} (h : flt (luIndex e) f0 = true) :
    luCommit k a e = .ok a := by
  have hhigh : fle (fOfNat binCount) (luIndex e) = false :=
    fle_eq_false_of_flt_zero (by decide +kernel) h
  simp [luCommit, isNaN_eq_false_of_flt h, hhigh, h]

theorem luCommit_of_bin {k : Nat} {a : LuAcc} {e : F64} (hn : isNaN (luIndex e) = false)
    (hhigh : fle (fOfNat binCount) (luIndex e) = false) (hlow : flt (luIndex e) f0 = false) :
    luCommit k a e = .ok { a with hist := histBump a.hist (fToNat (luIndex e)) } := by
  simp [luCommit, hn, hhigh, hlow]

end Sys2Proof.Machine
end

section
/-! PROOFS. The statements about the loudness unit: `47_loudness.md` rules R132 to R134. -/

namespace Sys2Proof.Proofs

open Sys2Proof.Machine Sys2Proof.Claims

/-- Settles O43: the channels are independent of one another, and each is skipped or weighed by its
weight. -/
theorem luWeighsAFrame : Obligations.LuWeighsAFrame := by
  intro d ks kh chans xs hlen
  rw [luWeighChans_eq_unzip hlen]
  refine ⟨by simp [hlen], by simp [hlen], fun c hc hx h1 h2 => ⟨fun hw => ?skipped, fun hw => ?weighed⟩,
    fun n => ⟨rfl, _, ?sum, rfl⟩⟩
  case skipped =>
    simp [hc, hx, luWeighChan_of_skipped hw]
  case weighed =>
    obtain ⟨y1, y2, e, hy1, hy2, he, hchan⟩ :=
      luWeighChan_of_weighed (d := d + 3 * c) (ks := ks) (kh := kh) (x := xs[c]) hw
    exact ⟨y1, y2, e, hy1, hy2, he, by simp [hc, hx, hchan], by simp [hc, hx, hchan]⟩
  case sum =>
    rw [← f0, ← luCombine_eq_foldl]
    exact isResult_drawNaN n _

/-- Settles O44, case by case of the index; a bin's number is below 7801 because the index is. -/
theorem luCommitCountsOneBin : Obligations.LuCommitCountsOneBin := by
  have hbins : fOfNat binCount = 0x40BE790000000000#64 := by decide +kernel
  refine ⟨by decide +kernel, by decide +kernel, fun k a e => ?_⟩
  rw [← luIndex_eq_energyIndex, ← hbins]
  refine ⟨luCommit_of_nan, luCommit_of_past, luCommit_of_below, isNaN_luIndex, ?infinite, ?silent,
    fun hn hhigh hlow hlen => ?bin⟩
  case infinite =>
    rintro rfl
    decide +kernel
  case silent =>
    intro hz
    apply luCommit_of_below
    rw [luIndex_of_zero hz]
    decide
  case bin =>
    have hbin : fToNat (luIndex e) < a.hist.length := hlen ▸ fToNat_lt_binCount hn hhigh hlow
    exact ⟨_, luCommit_of_bin hn hhigh hlow, rfl, rfl, (histBump_length _ _).trans hlen,
      histBump_getD_self hbin, fun j hj => histBump_getD_ne hj⟩

end Sys2Proof.Proofs
end

section
/-! SUPPORT. The level in dB and the gain below the knee (`49_compressor.md` rules R157, R158). -/

namespace Sys2Proof.Machine

/-! ## −inf below every finite value (R12) -/

/-- −inf is below every finite value. -/
theorem flt_negInf_of_finite {x : F64} (h : isFinite x = true) : flt (fInf true) x = true := by
  have hmag : fmag x < infMag := fmag_of_finite h
  have hinf : fkey (fInf true) = -(infMag : Int) := by decide
  rw [flt_iff (isNaN_fInf true) (isFinite_not_nan h), hinf, fkey]
  split <;> omega

/-! ## cp_level (R157) -/

theorem cpLevel_of_not_nan {e : F64} (h : isNaN (fmul f20 (fnLog10 e)) = false) :
    cpLevel e = fmul f20 (fnLog10 e) := by
  simp [cpLevel, h]

theorem cpLevel_of_nan {e : F64} (h : isNaN (fmul f20 (fnLog10 e)) = true) :
    cpLevel e = fMinus200 := by
  simp [cpLevel, h]

/-- The logarithm of a NaN or a negative envelope is a NaN, and so is 20 times it. -/
theorem cpLevel_of_nan_or_neg {e : F64} (h : isNaN e = true ∨ flt e f0 = true) :
    cpLevel e = fMinus200 := by
  apply cpLevel_of_nan
  rw [fnLog10_of_nan_or_neg h]
  decide

/-- The logarithm of a zero envelope is −inf, and so is 20 times it, which is no NaN. -/
theorem cpLevel_of_zero {e : F64} (h : isZero e = true) : cpLevel e = fInf true := by
  have hlevel : fmul f20 (fnLog10 e) = fInf true := by
    rw [fnLog10_of_zero h]
    decide
  rw [cpLevel_of_not_nan (by rw [hlevel, isNaN_fInf]), hlevel]

/-- A level is never a NaN: where the product is one, the level is −200.0. -/
theorem isNaN_cpLevel (e : F64) : isNaN (cpLevel e) = false := by
  cases hn : isNaN (fmul f20 (fnLog10 e)) with
  | false => rw [cpLevel_of_not_nan hn, hn]
  | true => rw [cpLevel_of_nan hn]; decide

/-! ## cp_gain below the knee (R158) -/

theorem cpGain_of_below_knee {u : Compressor} {ld : F64}
    (h : flt (fmul f2 (fsub ld u.t)) (fneg u.kw) = true) : cpGain u ld = u.m :=
  if_pos h

/-- −inf dB stays −inf when a finite threshold is subtracted, so it is below a finite knee. -/
theorem cpGain_negInf {u : Compressor} (ht : isFinite u.t = true) (hkw : isFinite u.kw = true) :
    cpGain u (fInf true) = u.m := by
  apply cpGain_of_below_knee
  have hsub : fsub (fInf true) u.t = fInf true :=
    fsub_inf_finite (by decide) (isNaN_fInf true) ht
  have hmul : fmul f2 (fInf true) = fInf true := by decide
  rw [hsub, hmul]
  exact flt_negInf_of_finite (isFinite_fneg hkw)

end Sys2Proof.Machine
end

section
/-! PROOFS. The statements about the compressor: `49_compressor.md` rule R157. -/

namespace Sys2Proof.Proofs

open Sys2Proof.Machine

/-- Settles O59, by the case of the envelope; a zero one reaches cp_gain as −inf, below the knee. -/
theorem cpLevelReplacesNaN : Obligations.CpLevelReplacesNaN := by
  intro e
  refine ⟨cpLevel_of_not_nan, cpLevel_of_nan, cpLevel_of_nan_or_neg,
    fun hzero => ⟨cpLevel_of_zero hzero, fun u ht hkw => ?gain⟩, isNaN_cpLevel e⟩
  case gain =>
    rw [cpLevel_of_zero hzero]
    exact cpGain_negInf ht hkw

end Sys2Proof.Proofs
end

section
/-! SUPPORT. What a command does to the error latch and what a latched error does to a command
(`60_exceptions.md` rules R166, R167). -/

namespace Sys2Proof.Machine

open Claims

/-! ## The latch across a command -/

/-- From an error-free state an error gets latched only by the command's body raising it: a body that
completes leaves the latch clear. -/
theorem raised_of_exec {i : Instr} {s t : State} (he : exec i s = .next t) (h0 : s.err = 0#8)
    (h1 : t.err ≠ 0#8) : ∃ r : Raise, t = raised i r.error r.chan r.stream s := by
  obtain ⟨body, h, frame⟩ := exec_frame i s
  cases hb : body s with
  | ok p =>
    obtain ⟨t', rs⟩ := p
    rw [exec_of_ok h h0 hb] at he
    cases he
    exact absurd ((frame t' rs hb).err_clear h0) h1
  | error r =>
    rw [exec_eq_raised h h0 hb] at he
    cases he
    exact ⟨r, rfl⟩

/-- However a command other than RESET ends, it keeps a latched error and its record. -/
theorem exec_keeps_latch {i : Instr} {s t : State} (he : exec i s = .next t) (h0 : s.err ≠ 0#8)
    (hr : i ≠ .reset) : t.err = s.err ∧ t.errInfo = s.errInfo := by
  obtain ⟨body, h, frame⟩ := exec_frame i s
  rw [h] at he
  cases he
  unfold runCommand
  rcases runWord_cases (some i.opcode) (encodeWord i) body s with
    ⟨-, -, e⟩ | ⟨-, t', rs, hb, e⟩ | ⟨-, r, -, e⟩
  · rw [e]
    exact ⟨rfl, rfl⟩
  · rw [e]
    exact (frame t' rs hb).err hr
  · rw [e, State.latch_of_latched h0]
    exact ⟨rfl, rfl⟩

/-! ## Discarding -/

/-- A latched error discards every command but NOP, RESET and CSR_READ. -/
theorem exec_discards {i : Instr} {s : State} (h0 : s.err ≠ 0#8)
    (hi : runsWhileLatched (some i.opcode) = false) :
    exec i s = .next (s.emit (List.replicate (nres i.opcode s) poison)) := by
  obtain ⟨body, h, -⟩ := exec_frame i s
  rw [h, runCommand_discard h0 hi]

/-- An illegal word with a latched error is discarded, or, where its OP is that of a command that
still runs, raises an error that the latch does not take: both return POISON alone. -/
theorem runIllegal_of_latched {s : State} (h0 : s.err ≠ 0#8) (w : Word) :
    runIllegal w s = s.emit (List.replicate (wordNres w s) poison) := by
  unfold runIllegal
  rcases runWord_cases (opcodeOf (opField w)) w (fun _ => .error (raiseOf .illegalCommand)) s with
    ⟨-, -, e⟩ | ⟨-, t, rs, hb, -⟩ | ⟨-, r, -, e⟩
  · rw [e, nresOf_opcodeOf]
  · cases hb
  · rw [e, State.latch_of_latched h0, nresOf_opcodeOf]

theorem step_of_illegal_of_latched {s : State} {why : Reject} {w : Word} {rest : List Byte}
    (h0 : s.err ≠ 0#8) (h : decode s.port = .illegal why w rest) :
    step s = .next { s with
      port := rest, results := s.results ++ List.replicate (wordNres w s) poison } := by
  rw [step_of_illegal h, runIllegal_of_latched (s := { s with port := rest }) h0, wordNres_port]
  rfl

end Sys2Proof.Machine
end

section
/-! PROOFS. The statements about raised and latched errors: `60_exceptions.md` rules R166, R167. -/

namespace Sys2Proof.Proofs

open Sys2Proof.Machine

/-- Settles O8: only a body that raises sets the latch, and only RESET changes a latch that is set. -/
theorem raisedErrorChangesOnlyTheLatch : Obligations.RaisedErrorChangesOnlyTheLatch := by
  refine ⟨fun i s t he h0 h1 => ?raises, fun i s t he h0 hr => exec_keeps_latch he h0 hr,
    fun s why w rest h0 hdec => step_of_illegal_of_clear h0 hdec⟩
  case raises =>
    obtain ⟨r, ht⟩ := raised_of_exec he h0 h1
    exact ⟨r.error, r.chan, r.stream, ht⟩

/-- Settles O9: R83 discards the command before its Check, and an illegal word can only raise. -/
theorem latchedErrorDiscardsCommands : Obligations.LatchedErrorDiscardsCommands := by
  refine ⟨fun i s h0 hnop hreset hread => ?command,
    fun s why w rest h0 hdec => step_of_illegal_of_latched h0 hdec⟩
  case command =>
    exact exec_discards h0 ((runsWhileLatched_eq_false i).mpr ⟨hnop, hreset, hread⟩)

end Sys2Proof.Proofs
end

section
/-! SUPPORT. The decoder and the encoder as inverses (`30_encoding.md` rules R69 to R78): the fields of
the instruction that `buildInstr` makes are the fields it was given, where the decoder accepts them. -/

namespace Sys2Proof

open Laws

/-! ## From an instruction to its bytes -/

theorem decodeWord_encodeWord_operands {i : Instr} (h : i.wellFormed = true) :
    decodeWord (encodeWord i) i.operands = .ok i := by
  cases i with
  | luCoefRead sel => exact WordRoundTrip.luCoefRead sel h
  | cpFrame z => exact WordRoundTrip.cpFrame z h
  | _ => exact decodeWord_encodeWord rfl rfl rfl

theorem operands_length (i : Instr) : i.operands.length = i.opcode.row.nops := by
  cases i <;> rfl

/-! ## From accepted fields to an instruction -/

@[simp] theorem buildInstr_opcode (o : Opcode) (idx : Byte) (imm : Half) (opnd : Nat → Dword) :
    (buildInstr o idx imm opnd).opcode = o := by
  cases o <;> rfl

/-- An instruction carries its IDX, but where the row says that it is 0. -/
theorem buildInstr_idx {o : Opcode} {idx : Byte} {imm : Half} {opnd : Nat → Dword}
    (h : idxOk o.row.idx idx = true) : (buildInstr o idx imm opnd).idx = idx := by
  cases o
  all_goals first | rfl | exact (eq_of_beq h).symm

/-- The high and the low bits of a word are the whole word. -/
theorem append_extractLsb' {m n : Nat} (x : BitVec (m + n)) :
    x.extractLsb' n m ++ x.extractLsb' 0 n = x :=
  (BitVec.extractLsb'_append_extractLsb'_eq_extractLsb' (Nat.zero_add n).symm).trans
    BitVec.extractLsb'_eq_self

theorem ofBool_getLsbD_zero {n : Nat} (x : BitVec n) :
    BitVec.ofBool (x.getLsbD 0) = x.extractLsb' 0 1 := by
  apply BitVec.eq_of_getLsbD_eq
  intro k hk
  obtain rfl : k = 0 := by omega
  simp

/-- Twelve zero bits and the selector are the IMM field (R77). -/
theorem selector_append_low {imm : Half} (h : imm.extractLsb' 4 12 = 0#12) :
    0#12 ++ imm.extractLsb' 0 4 = imm := by
  rw [← h]
  exact append_extractLsb' (m := 12) (n := 4) imm

/-- Fifteen zero bits and the ZERO bit are the IMM field (R75). -/
theorem zeroBit_append_low {imm : Half} (h : imm.extractLsb' 1 15 = 0#15) :
    0#15 ++ BitVec.ofBool (imm.getLsbD 0) = imm := by
  rw [← h, ofBool_getLsbD_zero]
  exact append_extractLsb' (m := 15) (n := 1) imm

/-- An instruction carries its IMM, but for the bits that the row says are 0. -/
theorem buildInstr_imm {o : Opcode} {idx : Byte} {imm : Half} {opnd : Nat → Dword}
    (hres : immReservedOk o.row.imm imm = true) (hsel : immSelectorOk o.row.imm imm = true) :
    (buildInstr o idx imm opnd).imm = imm := by
  cases o
  case luCoefRead =>
    obtain ⟨hhigh, -⟩ := Bool.and_eq_true_iff.mp hsel
    exact selector_append_low (eq_of_beq hhigh)
  case cpFrame => exact zeroBit_append_low (eq_of_beq hres)
  all_goals first | rfl | exact (eq_of_beq hres).symm

theorem buildInstr_wellFormed {o : Opcode} {idx : Byte} {imm : Half} {opnd : Nat → Dword}
    (hsel : immSelectorOk o.row.imm imm = true) : (buildInstr o idx imm opnd).wellFormed = true := by
  cases o
  case luCoefRead => exact (Bool.and_eq_true_iff.mp hsel).2
  all_goals rfl

/-- The operands are the first NOPS dwords that were given. -/
theorem buildInstr_operands (o : Opcode) (idx : Byte) (imm : Half) (opnd : Nat → Dword) :
    (buildInstr o idx imm opnd).operands = (List.range o.row.nops).map opnd := by
  cases o <;> rfl

theorem range_map_getD {ops : List Dword} : (List.range ops.length).map (ops.getD · 0#64) = ops := by
  apply List.ext_getElem
  · simp
  · intro k _ hk
    simp [hk]

/-- An accepted word with its operand dwords is the encoding of the instruction it decodes to. -/
theorem encode_of_decodeWord {w : Word} {ops : List Dword} {i : Instr} (h : decodeWord w ops = .ok i)
    (hlen : ops.length = nopsOf (opField w)) :
    i.wellFormed = true ∧ encodeWord i = w ∧ i.operands = ops := by
  unfold decodeWord at h
  split at h
  · cases h
  · rename_i o ho
    split at h
    · rename_i hfields
      obtain ⟨hidx, hres⟩ := Bool.and_eq_true_iff.mp hfields
      split at h
      · rename_i hsel
        cases h
        refine ⟨buildInstr_wellFormed hsel, ?_, ?_⟩
        · rw [encodeWord, buildInstr_opcode, buildInstr_idx hidx, buildInstr_imm hres hsel,
            code_of_opcodeOf ho, mkWord_fields]
        · rw [← code_of_opcodeOf ho, nopsOf_code] at hlen
          rw [buildInstr_operands, ← hlen, range_map_getD]
      · cases h
    · cases h

end Sys2Proof
end

section
/-! PROOFS. The statements about the step, the decoder and the encoder: `40_control.md` rule R83,
`30_encoding.md` rules R68 to R78. -/

namespace Sys2Proof.Proofs

open Sys2Proof.Machine

/-- Settles O1, the first arm of the step. -/
theorem stepRunsDecodedCommand : Obligations.StepRunsDecodedCommand := by
  intro s i rest hdec
  simp only [step, hdec]

/-- Settles O2, the last arm of the step. -/
theorem stepWaitsForAWholeCommand : Obligations.StepWaitsForAWholeCommand := by
  intro s hdec
  simp only [step, hdec]

/-- Settles O3: reading back the word's bytes and the operands' leaves the round trip of the word. -/
theorem decodeInvertsEncode : Obligations.DecodeInvertsEncode := by
  intro i rest hwf
  have hnops : nopsOf (opField (encodeWord i)) = i.operands.length := by
    rw [opField_encodeWord, nopsOf_code, operands_length]
  rw [encode, decode_bytes hnops, decodeWord_encodeWord_operands hwf]

/-- Settles O4: the bytes are those of the word and the dwords taken, which are the instruction's. -/
theorem encodeInvertsDecode : Obligations.EncodeInvertsDecode := by
  intro bs rest i hdec
  unfold decode at hdec
  split at hdec
  · cases hdec
  · rename_i w bs' hw
    split at hdec
    · cases hdec
    · rename_i ops rest' hops
      obtain ⟨hlen, hbytes⟩ := bytes_of_takeDwords hops
      split at hdec
      · rename_i j hj
        cases hdec
        obtain ⟨hwf, hword, hoperands⟩ := encode_of_decodeWord hj hlen
        refine ⟨hwf, ?_⟩
        rw [encode, hword, hoperands, bytes_of_takeWord hw, hbytes, List.append_assoc]
      · cases hdec

/-- Settles O5, word by word. -/
theorem specWordsDecode : Obligations.SpecWordsDecode := by
  unfold Obligations.SpecWordsDecode
  and_intros <;> decide +kernel

end Sys2Proof.Proofs
end

section
/-! SUPPORT. The commands that read (`60_exceptions.md` rule R178): their bodies hand the state back, but
for the draw counter. -/

namespace Sys2Proof.Machine

/-- NOP, LAG_SETTLING_LEN and the read paths of R178. -/
def IsRead (i : Instr) : Prop :=
  i = .nop ∨ (∃ a, i = .csrRead a) ∨ (∃ c, i = .fdRead c) ∨ (∃ k, i = .mrmsReadAcc k) ∨
    (∃ k b, i = .luHistRead k b) ∨ (∃ x, i = .luCoefRead x) ∨ (∃ k, i = .luResult k) ∨
    (∃ k, i = .tpResult k) ∨ (∃ x, i = .lagSettlingLen x)

/-- The body of a read command gives its own state back, with as many draws as it took. -/
theorem isRead_body {i : Instr} (hi : IsRead i) (s : State) :
    ∃ body, exec i s = .next (runCommand i body s) ∧
      ∀ t rs, body s = .ok (t, rs) → t = { s with draws := t.draws } := by
  rcases hi with rfl | ⟨a, rfl⟩ | ⟨c, rfl⟩ | ⟨k, rfl⟩ | ⟨k, b, rfl⟩ | ⟨x, rfl⟩ | ⟨k, rfl⟩ | ⟨k, rfl⟩ |
    ⟨x, rfl⟩
  all_goals refine ⟨_, rfl, fun t rs hb => ?_⟩
  case inl => cases hb; rfl
  all_goals simp only [bind_eq_ok] at hb
  -- The cases differ in the number of checks before the state.
  · obtain ⟨_, -, hb⟩ := hb; cases hb; rfl
  · obtain ⟨_, -, _, -, _, -, hb⟩ := hb; cases hb; rfl
  · obtain ⟨_, -, _, -, hb⟩ := hb; cases hb; rfl
  · obtain ⟨_, -, _, -, _, -, hb⟩ := hb; cases hb; rfl
  · obtain ⟨_, -, _, -, hb⟩ := hb; cases hb; rfl
  · obtain ⟨_, -, _, -, hb⟩ := hb; cases hb; rfl
  · obtain ⟨_, -, _, -, hb⟩ := hb; cases hb; rfl
  · obtain ⟨_, -, hb⟩ := hb; cases hb; rfl

/-- Results are only ever appended (R62, R68). -/
theorem results_prefix {i : Instr} {s t : State} (he : exec i s = .next t) : s.results <+: t.results := by
  rcases exec_results he with ⟨rs, hres, -⟩ | hres
  · exact ⟨rs, hres.symm⟩
  · exact ⟨_, hres.symm⟩

/-- Every arm runs a body through the template of R83. -/
theorem exec_next (i : Instr) (s : State) : ∃ t, exec i s = .next t := by
  obtain ⟨body, h, -⟩ := exec_frame i s
  exact ⟨_, h⟩

end Sys2Proof.Machine
end

section
/-! PROOFS. What any command does and leaves alone: `40_control.md` rules R85, R86, `60_exceptions.md`
rules R164, R171, R178, `10_state.md` rule R28. -/

namespace Sys2Proof.Proofs

open Sys2Proof.Machine

/-- Settles O7: no arm faults or refuses. -/
theorem everyCommandAnswersANextState : Obligations.EveryCommandAnswersANextState := exec_next

/-- Settles O11: RESET completes in every state, and whatever else runs keeps a latched error. -/
theorem resetCommandResetsEveryItem : Obligations.ResetCommandResetsEveryItem := by
  refine ⟨exec_reset, fun i s t he h0 h1 => ?clears, fun s t why w rest hdec he h0 => ?illegalWord⟩
  case clears =>
    refine Classical.byContradiction fun hr => ?_
    exact h0 ((exec_keeps_latch he h0 hr).1.symm.trans h1)
  case illegalWord =>
    rw [step_of_illegal_of_latched h0 hdec] at he
    cases he
    rfl

/-- Settles O15: a body that completes has the frame of its family, and nothing else writes a unit. -/
theorem commandsTouchOnlyTheirUnit : Obligations.CommandsTouchOnlyTheirUnit := by
  intro i s t he hr
  have hresults := results_prefix he
  obtain ⟨body, h, frame⟩ := exec_frame i s
  rcases completes_or_keeps h he with ⟨t', rs, hb, rfl⟩ | hk
  case inl =>
    have hf := frame t' rs hb
    obtain ⟨hbq, hfir, hlag, hmmx, hmrms, hfd, hlu, htp, hcp, hcfg⟩ := hf.family hr
    exact ⟨hbq, hfir, hlag, hmmx, hmrms, hfd, hlu, htp, hcp, hcfg, hf.port, hresults, hf.draws⟩
  case inr =>
    refine ⟨fun _ => ?_, fun _ => ?_, fun _ => ?_, fun _ => ?_, fun _ => ?_, fun _ => ?_, fun _ => ?_,
      fun _ => ?_, fun _ => ?_, fun _ => ?_, ?_, hresults, Nat.le_of_eq ?_⟩
    all_goals rw [hk]

/-- Settles O16: a read that raises nothing completes a body that hands the state back. -/
theorem readCommandsHaveNoSideEffect : Obligations.ReadCommandsHaveNoSideEffect := by
  intro i s t hi he herr
  obtain ⟨body, h, hbody⟩ := isRead_body hi s
  rcases completes_or_emits h he herr with ⟨t', rs, hb, rfl⟩ | ⟨rs, rfl⟩
  · rw [hbody t' rs hb]
    rfl
  · rfl

/-- Settles O20: NOP runs with an error latched too. -/
theorem nopCompletes : Obligations.NopCompletes := by
  intro s
  have hruns : runsWhileLatched (some Instr.nop.opcode) = true := rfl
  simp [exec, execNop, runCommand, runWord, hruns]

end Sys2Proof.Proofs
end

section
/-! SUPPORT. The checks that fail (`40_control.md` rule R84, `30_encoding.md` rule R73): each helper on an
input out of range. -/

namespace Sys2Proof.Machine

theorem needChannels_of_bad {s : State} (h : s.cfg.channels.toNat = 0 ∨ 8 < s.cfg.channels.toNat) :
    needChannels s = .error (raiseOf .invalidArgument) :=
  if_neg (by simp only [Config.cMax]; omega)

theorem needFs_of_bad {lo : Nat} {s : State} (h : s.cfg.fs.toNat < lo ∨ 384000 < s.cfg.fs.toNat) :
    needFs lo s = .error (raiseOf .invalidArgument) :=
  if_neg (by simp only [Config.fsMax]; omega)

/-- need_channels either gives CFG_CHANNELS or raises INVALID_ARGUMENT. -/
theorem needChannels_cases (s : State) :
    needChannels s = .ok s.cfg.channels ∨ needChannels s = .error (raiseOf .invalidArgument) := by
  unfold needChannels
  split
  · exact .inl rfl
  · exact .inr rfl

theorem needFs_cases (lo : Nat) (s : State) :
    needFs lo s = .ok s.cfg.fs ∨ needFs lo s = .error (raiseOf .invalidArgument) := by
  unfold needFs
  split
  · exact .inl rfl
  · exact .inr rfl

/-- A body that checks the channels first raises INVALID_ARGUMENT if what follows does. -/
theorem needChannels_bind_bad {s : State} {rest : Byte → Effect}
    (h : rest s.cfg.channels = .error (raiseOf .invalidArgument)) :
    (needChannels s >>= rest) = .error (raiseOf .invalidArgument) := by
  rcases needChannels_cases s with hc | hc
  · rw [hc, ok_bind, h]
  · rw [hc, error_bind]

theorem needFs_bind_bad {lo : Nat} {s : State} {rest : Word → Effect}
    (h : rest s.cfg.fs = .error (raiseOf .invalidArgument)) :
    (needFs lo s >>= rest) = .error (raiseOf .invalidArgument) := by
  rcases needFs_cases lo s with hfs | hfs
  · rw [hfs, ok_bind, h]
  · rw [hfs, error_bind]

theorem windowOk_eq_true {w : Dword} : windowOk w = true ↔ 1 ≤ w.toNat ∧ w.toNat ≤ 1048576 := by
  simp [windowOk]

theorem windowOk_eq_false {w : Dword} : windowOk w = false ↔ w.toNat = 0 ∨ 1048576 < w.toNat := by
  rw [← Bool.not_eq_true, windowOk_eq_true]
  omega

theorem kernelValid_eq_true {p a : Nat} :
    kernelValid p a = true ↔ 1 ≤ p ∧ 1 ≤ a ∧ 2 * (p * a - 1) + 1 ≤ 255 := by
  rw [kernelValid, Bool.and_eq_true, Bool.and_eq_true, decide_eq_true_iff, decide_eq_true_iff,
    decide_eq_true_iff, and_assoc]
  exact Iff.rfl

theorem kernelValid_eq_false {p a : Nat} :
    kernelValid p a = false ↔ p = 0 ∨ a = 0 ∨ 255 < 2 * (p * a - 1) + 1 := by
  rw [← Bool.not_eq_true, kernelValid_eq_true]
  omega

/-- An IDX whose READY bit can be read is one that `instAt` admits. -/
theorem instAt_of_ready {α : Type} {n : Nat} {file : Vector α n} {idx : Byte} {ready : α → Bool} {b : Bool}
    (h : (file[idx.toNat]?).map ready = some b) : ∃ q, instAt file idx = .ok q ∧ ready q = b := by
  obtain ⟨q, hq, hb⟩ := Option.map_eq_some_iff.mp h
  obtain ⟨hlt, rfl⟩ := Vector.getElem?_eq_some_iff.mp hq
  exact ⟨_, instAt_of_lt hlt, hb⟩

/-- A command with an IDX checks the index and then the READY bit, whatever follows (R73, R84). -/
theorem instance_not_ready {α : Type} {n : Nat} {file : Vector α n} {idx : Byte} {ready : α → Bool}
    {rest : α → Effect} (h : (file[idx.toNat]?).map ready = some false) :
    (instAt file idx >>= fun q => needReady (ready q) >>= fun _ => rest q)
      = .error (raiseOf .notReady) := by
  obtain ⟨q, hq, hr⟩ := instAt_of_ready h
  rw [hq, ok_bind, hr, needReady_false, error_bind]

/-- `exec_eq_raised` for INVALID_ARGUMENT. -/
theorem exec_raises_invalidArgument {i : Instr} {body : State → Effect} {s : State}
    (h : exec i s = .next (runCommand i body s)) (h0 : s.err = 0#8)
    (hb : body s = .error (raiseOf .invalidArgument)) :
    exec i s = .next (Claims.raised i .invalidArgument 0#16 0#16 s) :=
  exec_eq_raised (r := raiseOf .invalidArgument) h h0 hb

end Sys2Proof.Machine
end

section
/-! PROOFS. The errors of a bad index, an unready unit and a bad argument: `60_exceptions.md` rules R165,
R168, R169, `40_control.md` rule R84. -/

namespace Sys2Proof.Proofs

open Sys2Proof.Machine Sys2Proof.Claims

/-- Settles O17: the index is the first thing that each of these bodies checks. -/
theorem indexOutOfRangeRaisesIllegalIndex : Obligations.IndexOutOfRangeRaisesIllegalIndex := by
  refine ⟨fun i s idx n h0 hi hge => ?inst, fun s c h0 hge => ?fdRead, fun s k h0 hge => ?luResult,
    fun s k b h0 hge => ?luHistRead, fun s k h0 hge => ?tpResult⟩
  case inst =>
    cases i
    all_goals cases hi
    all_goals exact exec_eq_raised (r := raiseOf .illegalIndex) rfl h0 (by rw [instAt_of_ge hge]; rfl)
  case fdRead =>
    exact exec_eq_raised (r := raiseOf .illegalIndex) rfl h0 (by rw [needIndex_of_ge hge]; rfl)
  case luResult =>
    exact exec_eq_raised (r := raiseOf .illegalIndex) rfl h0 (by rw [needIndex_of_ge hge]; rfl)
  case luHistRead =>
    refine exec_eq_raised (r := raiseOf .illegalIndex) rfl h0 ?_
    by_cases hk : k.toNat < s.lu.na.toNat
    · rw [needIndex_of_lt hk, ok_bind,
        needIndex_of_ge (n := binCount) (hge.resolve_left (Nat.not_le.mpr hk))]
      rfl
    · rw [needIndex_of_ge (Nat.not_lt.mp hk)]
      rfl
  case tpResult =>
    exact exec_eq_raised (r := raiseOf .illegalIndex) rfl h0 (by rw [needIndex_of_ge hge]; rfl)

/-- Settles O18: the READY bit is checked right after the index, where there is one. -/
theorem unreadyUnitRaisesNotReady : Obligations.UnreadyUnitRaisesNotReady := by
  refine ⟨fun i s h0 hready => ?unready, fun s x h0 hr heos => ?afterEnd⟩
  case unready =>
    cases i
    case bqProcess | firProcess | lagProcess | lagProcessInitial | mmxProcess | mrmsProcess | mrmsRefresh |
        mrmsReadAcc =>
      exact exec_eq_raised (r := raiseOf .notReady) rfl h0 (instance_not_ready hready)
    case fdPush | fdEnd | luFrame | luFinalize | tpFrame | cpFrame | cpFrameInitial =>
      have hr := Option.some.inj hready
      exact exec_eq_raised (r := raiseOf .notReady) rfl h0 (by rw [hr]; rfl)
    case fdRead | luResult | tpResult =>
      obtain ⟨hlt, hr⟩ := Option.ite_none_right_eq_some.mp hready
      have hr := Option.some.inj hr
      exact exec_eq_raised (r := raiseOf .notReady) rfl h0 (by rw [needIndex_of_lt hlt, hr]; rfl)
    case luHistRead k b =>
      obtain ⟨⟨hk, hb⟩, hr⟩ := Option.ite_none_right_eq_some.mp hready
      have hr := Option.some.inj hr
      exact exec_eq_raised (r := raiseOf .notReady) rfl h0
        (by rw [needIndex_of_lt hk, ok_bind, needIndex_of_lt (n := binCount) hb, hr]; rfl)
    case luCoefRead sel =>
      obtain ⟨hsel, hr⟩ := Option.ite_none_right_eq_some.mp hready
      have hr := Option.some.inj hr
      have hsel : selectorOk sel = true := decide_eq_true hsel
      exact exec_eq_raised (r := raiseOf .notReady) rfl h0 (by rw [hsel, hr]; rfl)
    all_goals cases hready
  case afterEnd =>
    exact exec_eq_raised (r := raiseOf .notReady) rfl h0 (by rw [hr, heos]; rfl)

/-- Settles O19, check by check in the order of the statement. -/
theorem initArgumentsAreChecked : Obligations.InitArgumentsAreChecked := by
  intro s h0
  refine ⟨fun hc => ⟨?fdInit, ?luInit, ?tpInit, ?cpInit⟩, fun hfs => ?luInitFs,
    fun hfs => ⟨?cpInitFs, fun x => ?settlingFs, fun i a b g hi => ?lagInitFs⟩,
    fun i a b g hi hab => ?lagInit, fun i p a hi hpa => ?firInit,
    fun i w hi hw => ⟨?mmxInit, fun g => ?mrmsInit⟩⟩
  case fdInit => exact exec_raises_invalidArgument rfl h0 (by rw [needChannels_of_bad hc]; rfl)
  case luInit => exact exec_raises_invalidArgument rfl h0 (by rw [needChannels_of_bad hc]; rfl)
  case tpInit => exact exec_raises_invalidArgument rfl h0 (by rw [needChannels_of_bad hc]; rfl)
  case cpInit => exact exec_raises_invalidArgument rfl h0 (by rw [needChannels_of_bad hc]; rfl)
  case luInitFs =>
    refine exec_raises_invalidArgument rfl h0 (needChannels_bind_bad ?_)
    rw [needFs_of_bad hfs, error_bind]
  case cpInitFs =>
    refine exec_raises_invalidArgument rfl h0 (needChannels_bind_bad ?_)
    rw [needFs_of_bad (by omega), error_bind]
  case settlingFs => exact exec_raises_invalidArgument rfl h0 (by rw [needFs_of_bad (by omega)]; rfl)
  case lagInitFs =>
    exact exec_raises_invalidArgument rfl h0 (by rw [instAt_of_lt hi, ok_bind, needFs_of_bad (by omega)]; rfl)
  case lagInit =>
    refine exec_raises_invalidArgument rfl h0 ?_
    rw [instAt_of_lt hi, ok_bind]
    apply needFs_bind_bad
    rw [Bool.and_eq_false_iff.mpr hab]
    rfl
  case firInit =>
    exact exec_raises_invalidArgument rfl h0
      (by rw [instAt_of_lt hi, ok_bind, kernelValid_eq_false.mpr hpa]; rfl)
  case mmxInit =>
    exact exec_raises_invalidArgument rfl h0 (by rw [instAt_of_lt hi, ok_bind, windowOk_eq_false.mpr hw]; rfl)
  case mrmsInit =>
    exact exec_raises_invalidArgument rfl h0 (by rw [instAt_of_lt hi, ok_bind, windowOk_eq_false.mpr hw]; rfl)

end Sys2Proof.Proofs
end

section
/-! SUPPORT. CSR_READ and CSR_WRITE of an implemented register (`40_control.md` rules R87, R88), and the
fields of STATUS (`10_state.md` rule R37). -/

namespace Sys2Proof.Machine

/-- CSR_READ runs while an error is latched too (R167). -/
theorem exec_csrRead_addr (r : Csr) (s : State) :
    exec (.csrRead r.addr) s = .next { s with results := s.results ++ [csrValue r s] } := by
  have hruns : runsWhileLatched (some (Instr.csrRead r.addr).opcode) = true := rfl
  simp [exec, execCsrRead, runCommand, runWord, hruns, State.emit]

/-- A narrow register reads with zero bits above it (R32). -/
theorem setWidth_eq_append {n : Nat} (m : Nat) (x : BitVec n) : x.setWidth (m + n) = 0#m ++ x := by
  apply BitVec.eq_of_toNat_eq
  simp only [BitVec.toNat_setWidth, BitVec.toNat_append, BitVec.toNat_ofNat, Nat.zero_mod, Nat.zero_shiftLeft,
    Nat.zero_or]
  exact Nat.mod_eq_of_lt (Nat.lt_of_lt_of_le x.isLt (Nat.pow_le_pow_right (by decide) (by omega)))

theorem exec_csrWrite_addr {s : State} {r : Csr} {v : Dword} {c : ConfigRegs} (h0 : s.err = 0#8)
    (hw : s.cfg.write r v = some c) : exec (.csrWrite r.addr v) s = .next { s with cfg := c } :=
  exec_csrWrite_of_memWrite h0 (memWrite_eq_ok.mpr ⟨r, c, csrAt_addr r, hw, rfl⟩)

theorem valid_iff {fd : FrameDemux} :
    fd.valid = true ↔ fd.ready = true ∧ fd.cnt.toNat = fd.c.toNat ∧ 1 ≤ fd.c.toNat := by
  simp [FrameDemux.valid, and_assoc]

/-- The bits of STATUS above its seven flags and the error code are 0. -/
theorem statusWord_reserved {s : State} {k : Nat} (h : 15 ≤ k) : (statusWord s).getLsbD k = false := by
  simp only [statusWord, BitVec.getLsbD_append]
  rw [if_neg (by omega), if_neg (by omega), if_neg (by omega), if_neg (by omega), if_neg (by omega),
    if_neg (by omega), if_neg (by omega), if_neg (by omega)]
  exact BitVec.getLsbD_zero

end Sys2Proof.Machine
end

section
/-! PROOFS. The statements about the control commands' registers: `40_control.md` rules R87, R88,
`10_state.md` rule R37. -/

namespace Sys2Proof.Proofs

open Sys2Proof.Machine Sys2Proof.Claims

/-- Settles O21, register by register; the narrow ones read with zero bits above them. -/
theorem csrReadReturnsTheRegister : Obligations.CsrReadReturnsTheRegister := by
  intro s reads
  have reg (r : Csr) : reads r.addr (csrValue r s) := exec_csrRead_addr r s
  refine ⟨reg .id, reg .status, reg .errInfo, reg .params, reg .params2, reg .params3,
    ?channels, ?fs, ?lu, ?tp, ?cp, fun c => reg (.luWeight c),
    reg .cpThresholdDb, reg .cpRatio, reg .cpKneeDb, reg .cpAttackS, reg .cpReleaseS, reg .cpLookaheadS,
    reg .cpHoldS, reg .cpMakeupDb, reg .cpEnv, reg .cpGainDb, reg .cpDelayN, reg .cpWindowN,
    reg .luBlockN, reg .luHopN, reg .luFrames⟩
  case channels => exact setWidth_eq_append 56 s.cfg.channels ▸ reg .cfgChannels
  case fs => exact setWidth_eq_append 32 s.cfg.fs ▸ reg .cfgFs
  case lu => exact setWidth_eq_append 62 s.cfg.lu ▸ reg .luCfg
  case tp => exact setWidth_eq_append 63 s.cfg.tp ▸ reg .tpCfg
  case cp => exact setWidth_eq_append 63 s.cfg.cp ▸ reg .cpCfg

/-- Settles O22: the fields of the word that R37 assembles. -/
theorem statusFields : Obligations.StatusFields := by
  intro s
  rw [← valid_iff]
  refine ⟨BitVec.eq_of_getLsbD_eq fun k hk => ?err, ?_, ?_, ?_, ?_, ?_, ?_, ?_,
    BitVec.eq_of_getLsbD_eq fun k hk => ?reserved⟩
  case err =>
    simp only [statusWord, BitVec.getLsbD_append, BitVec.getLsbD_extractLsb']
    simp [hk]
  case reserved =>
    rw [BitVec.getLsbD_extractLsb', statusWord_reserved (Nat.le_add_right 15 k), Bool.and_false,
      BitVec.getLsbD_zero]
  -- The flags, one bit each.
  all_goals
    simp only [statusWord, BitVec.getLsbD_append]
    simp

/-- Settles O23, register by register. -/
theorem csrWriteStoresTheDefinedBits : Obligations.CsrWriteStoresTheDefinedBits := by
  intro s v h0 writes k
  have reg (r : Csr) {c : ConfigRegs} (hw : k.write r v = some c) : writes r.addr c :=
    exec_csrWrite_addr h0 hw
  exact ⟨reg .cfgChannels rfl, reg .cfgFs rfl, reg .luCfg rfl, reg .tpCfg rfl, reg .cpCfg rfl,
    fun c => reg (.luWeight c) rfl, reg .cpThresholdDb rfl, reg .cpRatio rfl, reg .cpKneeDb rfl,
    reg .cpAttackS rfl, reg .cpReleaseS rfl, reg .cpLookaheadS rfl, reg .cpHoldS rfl, reg .cpMakeupDb rfl⟩

end Sys2Proof.Proofs
end

section
/-! SUPPORT. The shape of the state (`10_state.md` rules R18 to R27) through the template of R83: what
keeps it apart from the bodies, and what each unit's own update does to it. -/

namespace Sys2Proof.Machine

/-! ## The latch, the ports and the draw counter -/

theorem State.Inv.withPort {s : State} (h : s.Inv) (bs : List Byte) : State.Inv { s with port := bs } :=
  { h with }

theorem State.Inv.emit {s : State} (h : s.Inv) (rs : List Dword) : (s.emit rs).Inv := { h with }

/-- Taking an error leaves a code of R165 and a record. -/
theorem State.Inv.latch {s : State} (h : s.Inv) (r : Raise) (w : Word) : (s.latch r w).Inv := by
  unfold State.latch
  split
  · exact { h with
      err_code := r.error.code_le_nine, err_info := fun he => absurd he r.error.code_ne_zero }
  · exact h

theorem runWord_keeps_inv {o : Option Opcode} {w : Word} {body : State → Effect} {s : State} (h : s.Inv)
    (hbody : ∀ t rs, body s = .ok (t, rs) → t.Inv) : (runWord o w body s).Inv := by
  rcases runWord_cases o w body s with ⟨-, -, e⟩ | ⟨-, t, rs, hb, e⟩ | ⟨-, r, -, e⟩
  · exact e ▸ h.emit _
  · exact e ▸ (hbody t rs hb).emit rs
  · exact e ▸ (h.latch r w).emit _

/-- A command keeps the shape if its body does where it completes. -/
theorem inv_of_body {i : Instr} {body : State → Effect} {s t : State}
    (h : exec i s = .next (runCommand i body s)) (he : exec i s = .next t) (hs : s.Inv)
    (hbody : ∀ t rs, body s = .ok (t, rs) → t.Inv) : t.Inv := by
  rw [h] at he
  cases he
  unfold runCommand
  exact runWord_keeps_inv hs hbody

theorem runIllegal_keeps_inv {s : State} (h : s.Inv) (w : Word) : (runIllegal w s).Inv :=
  runWord_keeps_inv h fun _ _ hb => by cases hb

/-- Every unit at its reset value has its shape: no READY bit is set. -/
theorem State.reset_inv : State.reset.Inv where
  err_code := by decide
  err_info _ := rfl
  bq q hq := by
    rw [(Vector.mem_replicate.mp hq).2]
    exact fun _ => rfl
  fir f hf := by
    rw [(Vector.mem_replicate.mp hf).2]
    exact ⟨fun _ => rfl, fun h => by cases h⟩
  lag g hg := by
    rw [(Vector.mem_replicate.mp hg).2]
    exact fun _ => rfl
  mmx m hm := by
    rw [(Vector.mem_replicate.mp hm).2]
    exact ⟨fun _ => rfl, fun h => by cases h⟩
  mrms r hr := by
    rw [(Vector.mem_replicate.mp hr).2]
    exact ⟨fun _ => rfl, fun h => by cases h⟩
  fd := ⟨fun _ => rfl, fun h => by cases h⟩
  lu := ⟨fun _ => rfl, fun h => by cases h⟩
  tp := ⟨fun _ => rfl, fun h => by cases h⟩
  cp := ⟨fun _ => rfl, fun h => by cases h⟩

theorem State.resetItems_inv (s : State) : s.resetItems.Inv := { State.reset_inv with }

/-! ## FIR kernels (R95, R97) -/

@[simp] theorem lanczos_length (p a : Nat) : (lanczos p a).length = kernelLen p a := by
  simp [lanczos]

theorem ringPush_length {buf : List F64} {x : F64} (h : 1 ≤ buf.length) :
    (ringPush buf x).length = buf.length := by
  simp only [ringPush, List.length_append, List.length_tail, List.length_singleton]
  omega

theorem toNat_ofNat_of_lt {n : Nat} (h : n < 2 ^ 64) : (BitVec.ofNat 64 n).toNat = n := by
  rw [BitVec.toNat_ofNat, Nat.mod_eq_of_lt h]

/-- A READY filter with a fresh kernel and ring of a valid (p, a). -/
theorem Fir.fresh_inv {p a : Dword} {d : Nat} (h : kernelValid p.toNat a.toNat = true) :
    Fir.Inv ⟨true, p, a, BitVec.ofNat 64 (kernelLen p.toNat a.toNat),
      drawNaNs d (lanczos p.toNat a.toNat), List.replicate (kernelLen p.toNat a.toNat) f0⟩ := by
  obtain ⟨hp, ha, hlen⟩ := kernelValid_eq_true.mp h
  have hlen : kernelLen p.toNat a.toNat ≤ 255 := hlen
  have htoNat := toNat_ofNat_of_lt (n := kernelLen p.toNat a.toNat) (by omega)
  exact ⟨nofun, fun _ => ⟨hp, ha, htoNat, by rw [htoNat]; exact hlen, by simp [htoNat], by simp [htoNat]⟩⟩

theorem Fir.push_inv {f : Fir} {x : F64} (h : f.Inv) (hr : f.ready = true) :
    Fir.Inv { f with buf := ringPush f.buf x } := by
  obtain ⟨hp, ha, hlen, hmax, htaps, hbuf⟩ := h.2 hr
  have hpos : 1 ≤ f.buf.length := by
    rw [hbuf, hlen, kernelLen]
    omega
  exact ⟨fun hn => absurd hr (Bool.eq_false_iff.mp hn),
    fun _ => ⟨hp, ha, hlen, hmax, htaps, (ringPush_length hpos).trans hbuf⟩⟩

/-! ## The frame demultiplexer (R119, R120) -/

theorem FrameDemux.push_inv {fd : FrameDemux} {x : F64} (h : fd.Inv) (hr : fd.ready = true) :
    (fd.push x).Inv := by
  obtain ⟨hc, hmax, hcnt⟩ := h.2 hr
  refine ⟨fun hn => absurd hr (Bool.eq_false_iff.mp hn), fun _ => ⟨hc, hmax, ?_⟩⟩
  unfold FrameDemux.push
  split
  · exact hc
  · simp only [BitVec.toNat_add]
    simp only [Config.cMax] at hmax
    show (fd.cnt.toNat + 1) % 2 ^ 64 ≤ fd.c.toNat
    omega

end Sys2Proof.Machine
end

section
/-! SUPPORT. The units after their INIT commands have their shape, and the processing commands keep it
(`10_state.md` rules R25 to R27). -/

namespace Sys2Proof.Machine

/-! ## The loudness unit -/

theorem LuAcc.fresh_inv (b : Dword) : LuAcc.fresh.Inv b :=
  ⟨rfl, Nat.zero_le _, List.length_replicate⟩

theorem Loudness.finalized_inv {u : Loudness} {accs : List LuAcc} {committed : Bool} (h : u.Inv)
    (hr : u.ready = true) (haccs : ∀ a ∈ accs, a.Inv u.blockN) (hlen : accs.length = u.accs.length) :
    Loudness.Inv { u with accs := accs, committed := committed } := by
  obtain ⟨hc, hcMax, hfs, hfsMax, hblock, hhop, hna, hchans, hna', -⟩ := h.2 hr
  exact ⟨fun hn => absurd hr (Bool.eq_false_iff.mp hn),
    fun _ => ⟨hc, hcMax, hfs, hfsMax, hblock, hhop, hna, hchans, hlen.trans hna', haccs⟩⟩

/-! ## The true-peak unit -/

theorem tpA_bounds : 1 ≤ Config.tpA ∧ Config.tpA ≤ 32 := by
  unfold Config.tpA
  have := Config.tpAPred.isLt
  omega

theorem TruePeak.framed_inv {u : TruePeak} {xs : List F64} (h : u.Inv) (hr : u.ready = true) :
    TruePeak.Inv { u with
      tbuf := (tpChans u.h u.indep 0 u.tbuf xs u.m).1, m := (tpChans u.h u.indep 0 u.tbuf xs u.m).2 } := by
  obtain ⟨hc, hcMax, hlen, hna, htaps, htbuf, hrings, hm, hmax⟩ := h.2 hr
  obtain ⟨hringsLen, hrings'⟩ := tpChans_length u.h u.indep (by omega) 0 u.tbuf xs u.m hrings
  obtain ⟨hmLen, hmax', -⟩ := tpChans_max u.h u.indep 0 u.tbuf xs u.m hmax
  exact ⟨fun hn => absurd hr (Bool.eq_false_iff.mp hn), fun _ => ⟨hc, hcMax, hlen, hna, htaps,
    hringsLen.trans htbuf, hrings', hmLen.trans hm, hmax'⟩⟩

/-! ## The compressor unit -/

/-- A whole frame of `c` channels has `c` samples (R118). -/
theorem frameSamples_length {fd : FrameDemux} {c : Byte} (h : c.toNat ≤ Config.cMax) :
    (frameSamples fd c).length = c.toNat := by
  simp only [frameSamples, List.length_take, Vector.length_toList]
  omega

theorem needFrame_eq_ok {c : Byte} {s : State} {x : List F64} :
    needFrame c s = .ok x ↔ (s.fd.valid = true ∧ s.fd.c = c) ∧ x = frameSamples s.fd c := by
  unfold needFrame
  split
  · rename_i h
    rw [Bool.and_eq_true, beq_iff_eq] at h
    simp [h, eq_comm]
  · rename_i h
    rw [Bool.and_eq_true, beq_iff_eq] at h
    simp [h]

theorem cpInputFrame_length {z : Bool} {s : State} {x : List F64} (h : cpInputFrame z s = .ok x)
    (hc : s.cp.c.toNat ≤ Config.cMax) : x.length = s.cp.c.toNat := by
  unfold cpInputFrame at h
  split at h
  · cases h
    exact List.length_replicate
  · obtain ⟨-, rfl⟩ := needFrame_eq_ok.mp h
    exact frameSamples_length hc

theorem cpFreshPre_inv {det : Bool} {w : Nat} (h1 : 1 ≤ w) (h2 : w ≤ Config.winMax) :
    (cpFreshPre det w).Inv det (BitVec.ofNat 64 w) := by
  have hw : (BitVec.ofNat 64 w).toNat = w := toNat_ofNat_of_lt (by simp only [Config.winMax] at h2; omega)
  cases det with
  | true => exact ⟨rfl, rfl, by rw [hw]; exact h1, by rw [hw]; exact h2, by simp [hw]⟩
  | false => exact ⟨rfl, rfl, MovMax.empty_inv (by rw [hw]; exact h1) (by rw [hw]; exact h2)⟩

theorem finiteNonneg_iff {x : F64} : finiteNonneg x = true ↔ isFinite x = true ∧ flt x f0 = false := by
  rw [finiteNonneg, Bool.and_eq_true]
  exact and_congr_right fun hx => (flt_false_iff (isFinite_not_nan hx) (by decide)).symm

theorem cpSettingsOk_iff {k : CpSettings} : cpSettingsOk k = true ↔
    flt f1 k.ratio = true ∧ isFinite k.thresholdDb = true ∧ isFinite k.makeupDb = true ∧
      (isFinite k.kneeDb = true ∧ flt k.kneeDb f0 = false) ∧
      isFinite k.attackS = true ∧ isFinite k.releaseS = true ∧
      (isFinite k.lookaheadS = true ∧ flt k.lookaheadS f0 = false) ∧
      isFinite k.holdS = true ∧ flt k.holdS f0 = false := by
  simp only [cpSettingsOk, Bool.and_eq_true, finiteNonneg_iff, and_assoc]

theorem ratio_of_cpSettingsOk {k : CpSettings} (h : cpSettingsOk k = true) : flt f1 k.ratio = true := by
  obtain ⟨hratio, -⟩ := cpSettingsOk_iff.mp h
  exact hratio

/-- CP_INIT's unit: the lengths are the numbers of R151, since none exceeds WIN_MAX. -/
theorem cpFresh_inv {k : CpSettings} {det : Bool} {c : Byte} {fs : Word} {l hn w : Nat}
    (h : cpLengths k c fs = some (l, hn, w)) (hc : 1 ≤ c.toNat) (hcMax : c.toNat ≤ Config.cMax)
    (hfs : 1 ≤ fs.toNat) (hfsMax : fs.toNat ≤ Config.fsMax) :
    (cpFresh k det c fs l hn w).Inv := by
  obtain ⟨hl, hlMax, hw, hwMax, hok⟩ := cpLengths_some h
  have hle : l + hn ≤ w := by
    rw [hw]
    exact Nat.le_mul_of_pos_right _ hc
  have el : (BitVec.ofNat 64 l).toNat = l := toNat_ofNat_of_lt (by omega)
  have ehn : (BitVec.ofNat 64 hn).toNat = hn := toNat_ofNat_of_lt (by omega)
  have ew : (BitVec.ofNat 64 w).toNat = w := toNat_ofNat_of_lt (by omega)
  refine ⟨(fun h => by cases h), fun _ => ⟨hc, hcMax, hfs, hfsMax, ratio_of_cpSettingsOk hok, ?_, ?_, ?_, ?_,
    ?_, ?_, cpFreshPre_inv (by omega) hwMax⟩⟩
  · exact Nat.le_trans hl (Nat.le_of_eq el.symm)
  · exact Nat.le_trans (Nat.le_of_eq el) hlMax
  · simp only [cpFresh, el, ehn, ew]
    exact hw
  · exact Nat.le_trans (Nat.le_of_eq ew) hwMax
  · simp only [cpFresh, el]
    exact List.length_replicate
  · intro f hf
    rw [List.eq_of_mem_replicate hf]
    exact List.length_replicate

/-- CP_FRAME takes the oldest frame off the FIFO and puts a frame of C samples on it (R160). -/
theorem Compressor.framed_inv {u : Compressor} {x : List F64} {e g : F64} (h : u.Inv)
    (hr : u.ready = true) (hx : x.length = u.c.toNat) :
    Compressor.Inv { u with fifo := u.fifo.tail ++ [x], envObs := e, gainDb := g } := by
  obtain ⟨hc, hcMax, hfs, hfsMax, hratio, hl, hlMax, hw, hwMax, hfifo, hframes, hpre⟩ := h.2 hr
  refine ⟨fun hn => absurd hr (Bool.eq_false_iff.mp hn), fun _ => ⟨hc, hcMax, hfs, hfsMax, hratio, hl,
    hlMax, hw, hwMax, ?_, ?_, hpre⟩⟩
  · simp only [List.length_append, List.length_tail, List.length_singleton]
    omega
  · intro f hf
    rcases List.mem_append.mp hf with hf | hf
    · exact hframes f (List.mem_of_mem_tail hf)
    · exact List.mem_singleton.mp hf ▸ hx

end Sys2Proof.Machine
end

section
/-! SUPPORT. Every command keeps the shape of the state, one lemma for each family (R18 to R27). -/

namespace Sys2Proof.Machine

variable {s t : State}

theorem biquad_keeps_inv {i : Instr} (hf : i.opcode.row.family = .biquad) (he : exec i s = .next t)
    (hs : s.Inv) : t.Inv := by
  cases i
  case bqInit =>
    refine inv_of_body rfl he hs fun t rs hb => ?_
    obtain ⟨q, -, hb⟩ := bind_eq_ok.mp hb
    cases hb
    exact { hs with bq := putInst_all hs.bq fun h => by cases h }
  case bqProcess =>
    refine inv_of_body rfl he hs fun t rs hb => ?_
    simp only [bind_eq_ok, needReady_eq_ok] at hb
    obtain ⟨q, -, _, hr, hb⟩ := hb
    cases hb
    exact { hs with bq := putInst_all hs.bq fun h => absurd hr (Bool.eq_false_iff.mp h) }
  all_goals cases hf

theorem fir_keeps_inv {i : Instr} (hf : i.opcode.row.family = .fir) (he : exec i s = .next t)
    (hs : s.Inv) : t.Inv := by
  cases i
  case firInit inst p a =>
    refine inv_of_body rfl he hs fun t rs hb => ?_
    simp only [bind_eq_ok, need_eq_ok] at hb
    obtain ⟨_, -, _, hvalid, hb⟩ := hb
    cases hb
    exact { hs with fir := putInst_all hs.fir (Fir.fresh_inv hvalid) }
  case firProcess inst x =>
    refine inv_of_body rfl he hs fun t rs hb => ?_
    simp only [bind_eq_ok, needReady_eq_ok] at hb
    obtain ⟨f, hat, _, hr, hb⟩ := hb
    cases hb
    exact { hs with fir := putInst_all hs.fir (Fir.push_inv (hs.fir f (instAt_mem hat)) hr) }
  all_goals cases hf

theorem lag_keeps_inv {i : Instr} (hf : i.opcode.row.family = .lag1) (he : exec i s = .next t)
    (hs : s.Inv) : t.Inv := by
  cases i
  case lagInit =>
    refine inv_of_body rfl he hs fun t rs hb => ?_
    simp only [bind_eq_ok] at hb
    obtain ⟨_, -, _, -, _, -, hb⟩ := hb
    cases hb
    exact { hs with lag := putInst_all hs.lag fun h => by cases h }
  case lagProcess | lagProcessInitial =>
    refine inv_of_body rfl he hs fun t rs hb => ?_
    simp only [bind_eq_ok, needReady_eq_ok] at hb
    obtain ⟨g, -, _, hr, hb⟩ := hb
    cases hb
    exact { hs with lag := putInst_all hs.lag fun h => absurd hr (Bool.eq_false_iff.mp h) }
  case lagSettlingLen =>
    refine inv_of_body rfl he hs fun t rs hb => ?_
    obtain ⟨_, -, hb⟩ := bind_eq_ok.mp hb
    cases hb
    exact hs
  all_goals cases hf

theorem movMax_keeps_inv {i : Instr} (hf : i.opcode.row.family = .movMax) (he : exec i s = .next t)
    (hs : s.Inv) : t.Inv := by
  cases i
  case mmxInit inst w =>
    refine inv_of_body rfl he hs fun t rs hb => ?_
    simp only [bind_eq_ok, need_eq_ok, windowOk_eq_true] at hb
    obtain ⟨_, -, _, ⟨hw, hwMax⟩, hb⟩ := hb
    cases hb
    exact { hs with
      mmx := putInst_all hs.mmx ⟨(fun h => by cases h), fun _ => MovMax.empty_inv hw hwMax⟩ }
  case mmxProcess inst x =>
    refine inv_of_body rfl he hs fun t rs hb => ?_
    simp only [bind_eq_ok, needReady_eq_ok, need_eq_ok, Bool.not_eq_true'] at hb
    obtain ⟨q, hat, _, hr, _, hx, hb⟩ := hb
    cases hb
    have hq := (hs.mmx q (instAt_mem hat)).2 hr
    exact { hs with
      mmx := putInst_all hs.mmx
        ⟨fun h => absurd hr (Bool.eq_false_iff.mp h), fun _ => (mmxPush_inv hq hx).1⟩ }
  all_goals cases hf

theorem movRms_keeps_inv {i : Instr} (hf : i.opcode.row.family = .movRms) (he : exec i s = .next t)
    (hs : s.Inv) : t.Inv := by
  cases i
  case mrmsInit inst w gain =>
    refine inv_of_body rfl he hs fun t rs hb => ?_
    simp only [bind_eq_ok, need_eq_ok, windowOk_eq_true] at hb
    obtain ⟨_, -, _, ⟨hw, hwMax⟩, hb⟩ := hb
    cases hb
    exact { hs with
      mrms := putInst_all hs.mrms
        ⟨(fun h => by cases h), fun _ => ⟨hw, hwMax, List.length_replicate⟩⟩ }
  case mrmsProcess inst x =>
    refine inv_of_body rfl he hs fun t rs hb => ?_
    simp only [bind_eq_ok, needReady_eq_ok] at hb
    obtain ⟨q, hat, _, hr, hb⟩ := hb
    cases hb
    have hq := (hs.mrms q (instAt_mem hat)).2 hr
    exact { hs with
      mrms := putInst_all hs.mrms
        ⟨fun h => absurd hr (Bool.eq_false_iff.mp h), fun _ => mrmsNext_inv hq⟩ }
  case mrmsRefresh inst =>
    refine inv_of_body rfl he hs fun t rs hb => ?_
    simp only [bind_eq_ok, needReady_eq_ok] at hb
    obtain ⟨q, hat, _, hr, hb⟩ := hb
    cases hb
    exact { hs with
      mrms := putInst_all hs.mrms
        ⟨fun h => absurd hr (Bool.eq_false_iff.mp h), (hs.mrms q (instAt_mem hat)).2⟩ }
  case mrmsReadAcc =>
    refine inv_of_body rfl he hs fun t rs hb => ?_
    simp only [bind_eq_ok] at hb
    obtain ⟨q, -, _, -, hb⟩ := hb
    cases hb
    exact { hs with }
  all_goals cases hf

theorem frameDemux_keeps_inv {i : Instr} (hf : i.opcode.row.family = .frameDemux)
    (he : exec i s = .next t) (hs : s.Inv) : t.Inv := by
  cases i
  case fdInit =>
    refine inv_of_body rfl he hs fun t rs hb => ?_
    simp only [bind_eq_ok, needChannels_eq_ok] at hb
    obtain ⟨c, ⟨-, hc, hcMax⟩, hb⟩ := hb
    cases hb
    exact { hs with fd := ⟨(fun h => by cases h), fun _ => ⟨hc, hcMax, Nat.zero_le _⟩⟩ }
  case fdPush x =>
    refine inv_of_body rfl he hs fun t rs hb => ?_
    simp only [bind_eq_ok, needReady_eq_ok] at hb
    obtain ⟨_, hr, _, -, hb⟩ := hb
    cases hb
    exact { hs with fd := FrameDemux.push_inv hs.fd hr }
  case fdPushErr => exact inv_of_body rfl he hs fun t rs hb => by cases hb
  case fdEnd =>
    refine inv_of_body rfl he hs fun t rs hb => ?_
    simp only [bind_eq_ok, needReady_eq_ok] at hb
    obtain ⟨_, hr, _, -, hb⟩ := hb
    cases hb
    exact { hs with fd := ⟨fun h => absurd hr (Bool.eq_false_iff.mp h), hs.fd.2⟩ }
  case fdRead =>
    refine inv_of_body rfl he hs fun t rs hb => ?_
    simp only [bind_eq_ok] at hb
    obtain ⟨_, -, _, -, _, -, hb⟩ := hb
    cases hb
    exact hs
  all_goals cases hf

/-- LU_INIT's unit: the lengths are the numbers of R129, since FS_MAX bounds them. -/
theorem luInit_keeps_inv (he : exec .luInit s = .next t) (hs : s.Inv) : t.Inv := by
  refine inv_of_body rfl he hs fun t rs hb => ?_
  simp only [bind_eq_ok, needChannels_eq_ok, needFs_eq_ok] at hb
  obtain ⟨c, ⟨-, hc, hcMax⟩, fs, ⟨-, hfs, hfsMax⟩, hb⟩ := hb
  cases hb
  simp only [Config.fsMax] at hfsMax
  refine { hs with lu := ⟨(fun h => by cases h), fun _ => ⟨hc, hcMax, hfs, hfsMax, ?_, ?_, rfl, ?_,
    List.length_replicate, fun a ha => ?_⟩⟩ }
  · exact toNat_ofNat_of_lt (by unfold blockLen; omega)
  · exact toNat_ofNat_of_lt (by unfold hopLen; omega)
  · simp only [List.length_map, List.length_take, Vector.length_toList]
    omega
  · rw [List.eq_of_mem_replicate ha]
    exact LuAcc.fresh_inv _

theorem luFrame_keeps_inv (he : exec .luFrame s = .next t) (hs : s.Inv) : t.Inv := by
  refine inv_of_body rfl he hs fun t rs hb => ?_
  simp only [bind_eq_ok, needReady_eq_ok] at hb
  obtain ⟨_, hr, x, -, u, hu, hb⟩ := hb
  cases hb
  exact { hs with lu := luFrameStep_inv hs.lu hr hu }

theorem luFinalize_keeps_inv (he : exec .luFinalize s = .next t) (hs : s.Inv) : t.Inv := by
  refine inv_of_body rfl he hs fun t rs hb => ?_
  obtain ⟨_, hr, hb⟩ := bind_eq_ok.mp hb
  have hr := needReady_eq_ok.mp hr
  obtain ⟨-, -, -, -, -, -, -, -, -, haccs⟩ := hs.lu.2 hr
  split at hb
  · cases hb
    exact { hs with lu := Loudness.finalized_inv hs.lu hr haccs rfl }
  · obtain ⟨accs, hcommit, hb⟩ := bind_eq_ok.mp hb
    cases hb
    obtain ⟨haccs', hlen⟩ := luCommitPartial_inv 0 _ _ haccs hcommit
    exact { hs with lu := Loudness.finalized_inv hs.lu hr haccs' hlen }

theorem isRead_keeps_inv {i : Instr} (hi : IsRead i) (he : exec i s = .next t) (hs : s.Inv) : t.Inv := by
  obtain ⟨body, h, hbody⟩ := isRead_body hi s
  refine inv_of_body h he hs fun t rs hb => ?_
  rw [hbody t rs hb]
  exact { hs with }

theorem loudness_keeps_inv {i : Instr} (hf : i.opcode.row.family = .loudness) (he : exec i s = .next t)
    (hs : s.Inv) : t.Inv := by
  rcases family_eq_loudness.mp hf with rfl | rfl | rfl | ⟨k, rfl⟩ | ⟨k, b, rfl⟩ | ⟨x, rfl⟩
  · exact luInit_keeps_inv he hs
  · exact luFrame_keeps_inv he hs
  · exact luFinalize_keeps_inv he hs
  all_goals exact isRead_keeps_inv (by simp [IsRead]) he hs

theorem truePeak_keeps_inv {i : Instr} (hf : i.opcode.row.family = .truePeak) (he : exec i s = .next t)
    (hs : s.Inv) : t.Inv := by
  cases i
  case tpInit =>
    refine inv_of_body rfl he hs fun t rs hb => ?_
    simp only [bind_eq_ok, needChannels_eq_ok] at hb
    obtain ⟨c, ⟨-, hc, hcMax⟩, hb⟩ := hb
    cases hb
    have hlen : (BitVec.ofNat 64 (kernelLen tpFactor Config.tpA)).toNat = kernelLen tpFactor Config.tpA :=
      toNat_ofNat_of_lt (by have := tpA_bounds; unfold kernelLen tpFactor; omega)
    refine { hs with tp := ⟨(fun h => by cases h), fun _ => ⟨hc, hcMax, hlen, rfl, ?_,
      List.length_replicate, fun b hb => ?_, List.length_replicate, fun v hv => ?_⟩⟩ }
    · simp [hlen]
    · rw [List.eq_of_mem_replicate hb, hlen]
      exact List.length_replicate
    · rw [List.eq_of_mem_replicate hv]
      decide
  case tpFrame =>
    refine inv_of_body rfl he hs fun t rs hb => ?_
    simp only [bind_eq_ok, needReady_eq_ok] at hb
    obtain ⟨_, hr, x, -, hb⟩ := hb
    cases hb
    exact { hs with tp := TruePeak.framed_inv hs.tp hr }
  case tpResult k => exact isRead_keeps_inv (by simp [IsRead]) he hs
  all_goals cases hf

theorem compressor_keeps_inv {i : Instr} (hf : i.opcode.row.family = .compressor) (he : exec i s = .next t)
    (hs : s.Inv) : t.Inv := by
  rcases family_eq_compressor.mp hf with rfl | ⟨z, rfl⟩ | rfl
  all_goals
    refine inv_of_body rfl he hs fun t rs hb => ?_
    simp only [bind_eq_ok, needReady_eq_ok, needChannels_eq_ok, needFs_eq_ok] at hb
  · obtain ⟨c, ⟨-, hc, hcMax⟩, fs, ⟨-, hfs, hfsMax⟩, hb⟩ := hb
    split at hb
    · cases hb
    · rename_i l hn w hlen
      cases hb
      exact { hs with cp := cpFresh_inv hlen hc hcMax hfs hfsMax }
  · obtain ⟨_, hr, x, hx, r, hdetect, hb⟩ := hb
    cases hb
    have hx := cpInputFrame_length hx (hs.cp.2 hr).2.1
    obtain ⟨hu, hur, huc, hfifo⟩ := cpDetect_inv hs.cp hr hdetect
    rw [← hfifo]
    exact { hs with cp := Compressor.framed_inv hu hur (hx.trans (congrArg BitVec.toNat huc.symm)) }
  · obtain ⟨_, hr, x, -, r, hdetect, hb⟩ := hb
    cases hb
    exact { hs with cp := (cpDetect_inv hs.cp hr hdetect).1 }

theorem control_keeps_inv {i : Instr} (hf : i.opcode.row.family = .control) (he : exec i s = .next t)
    (hs : s.Inv) : t.Inv := by
  cases i
  case nop | csrRead => exact isRead_keeps_inv (by simp [IsRead]) he hs
  case reset =>
    rw [exec_reset] at he
    cases he
    exact s.resetItems_inv
  case csrWrite a v =>
    refine inv_of_body rfl he hs fun t rs hb => ?_
    simp only [bind_eq_ok, memWrite_eq_ok] at hb
    obtain ⟨_, ⟨r, cfg, -, -, rfl⟩, hb⟩ := hb
    cases hb
    exact { hs with }
  all_goals cases hf

/-- The families are those of the ten lemmas above. -/
theorem exec_keeps_inv {i : Instr} (he : exec i s = .next t) (hs : s.Inv) : t.Inv := by
  cases hf : i.opcode.row.family with
  | control => exact control_keeps_inv hf he hs
  | biquad => exact biquad_keeps_inv hf he hs
  | fir => exact fir_keeps_inv hf he hs
  | lag1 => exact lag_keeps_inv hf he hs
  | movMax => exact movMax_keeps_inv hf he hs
  | movRms => exact movRms_keeps_inv hf he hs
  | frameDemux => exact frameDemux_keeps_inv hf he hs
  | loudness => exact loudness_keeps_inv hf he hs
  | truePeak => exact truePeak_keeps_inv hf he hs
  | compressor => exact compressor_keeps_inv hf he hs

end Sys2Proof.Machine
end

section
/-! PROOFS. The invariant of the state: `10_state.md` rules R18 to R27, R50. -/

namespace Sys2Proof.Proofs

open Sys2Proof.Machine

/-- Settles O13: a step runs a command, refuses a word or waits, and each keeps the shape. -/
theorem stepKeepsInvariant : Obligations.StepKeepsInvariant := by
  intro s t hs he
  unfold step at he
  split at he
  · exact exec_keeps_inv he (hs.withPort _)
  · cases he
    exact runIllegal_keeps_inv (hs.withPort _) _
  · cases he
    exact hs

/-- Settles O14. -/
theorem resetMeetsInvariant : Obligations.ResetMeetsInvariant := State.reset_inv

end Sys2Proof.Proofs
end

section
/-! SUPPORT. The instances of a family and the pieces of the filters' effects: `30_encoding.md` rule R73,
`41_biquad.md` rules R91, R92, `42_fir.md` rule R96, `45_movrms.md` rules R112, R113. -/

namespace Sys2Proof.Machine

open Claims

theorem setIfInBounds_of_lt {α : Type} {n : Nat} {xs : Vector α n} {k : Nat} {x : α} (h : k < n) :
    xs.setIfInBounds k x = xs.set k x h := by
  apply Vector.ext
  intro j hj
  rw [Vector.getElem_set, Vector.getElem_setIfInBounds]

theorem putInst_of_lt {α : Type} {n : Nat} {file : Vector α n} {idx : Byte} {q : α}
    (h : idx.toNat < n) : putInst file idx q = file.set idx.toNat q h :=
  setIfInBounds_of_lt h

/-- A command whose IDX is in range and READY runs what follows its two checks (R73, R84). -/
theorem instance_ready {α : Type} {n : Nat} {file : Vector α n} {idx : Byte} {ready : α → Bool}
    {rest : α → Effect} (h : idx.toNat < n) (hr : ready file[idx.toNat] = true) :
    (instAt file idx >>= fun q => needReady (ready q) >>= fun _ => rest q) = rest file[idx.toNat] := by
  rw [instAt_of_lt h, ok_bind, hr, needReady_true, ok_bind]

/-- A NaN operand x or y1 goes through the differences of R91. -/
theorem isNaN_bqOutput {st : BqState} {k : BqCoef} {x : F64} (h : isNaN x = true ∨ isNaN st.y1 = true) :
    isNaN (bqOutput st k x) = true := by
  unfold bqOutput
  rcases h with hx | hy
  · simp [hx]
  · simp [hy]

end Sys2Proof.Machine
end

section
/-! PROOFS. The statements about the Biquad filter: `41_biquad.md` rules R91 to R94. -/

namespace Sys2Proof.Proofs

open Sys2Proof.Machine Sys2Proof.Claims

/-- Settles O27: with the index in range and READY set the bodies complete. -/
theorem biquadCommandsComplete : Obligations.BiquadCommandsComplete := by
  refine ⟨fun s i b0 b1 b2 a1 a2 h0 h => ?init, fun s i x h0 h hr => ?process⟩
  case init =>
    have he := exec_of_ok (i := .bqInit i b0 b1 b2 a1 a2) rfl h0 (by rw [instAt_of_lt h]; rfl)
    rwa [putInst_of_lt h, State.emit_nil] at he
  case process =>
    have he := exec_of_ok (i := .bqProcess i x) rfl h0 (instance_ready h hr)
    rw [putInst_of_lt h] at he
    exact ⟨_, isResult_drawNaN s.draws _, he⟩

/-- Settles O28, from the effect of BQ_PROCESS: its output is R91's, and becomes y1. -/
theorem nanPoisonsBiquad : Obligations.NanPoisonsBiquad := by
  intro s i x h0 h hr hnan
  obtain ⟨y, hy, he⟩ := biquadCommandsComplete.2 s i x h0 h hr
  have hny : isNaN y = true := hy.2 (isNaN_bqOutput hnan)
  refine ⟨_, y, he, rfl, hny, ?_, ?_, h0⟩
  · simpa using hny
  · simpa using hr

end Sys2Proof.Proofs
end

section
/-! SUPPORT. The taps of a Lanczos kernel as R96 writes them (`42_fir.md`), with the offset counted from
the centre. -/

namespace Sys2Proof.Machine

open Claims

theorem lanczosTap_eq_kernelTap (p a : Nat) (k : Int) : lanczosTap p a k = kernelTap p a k := rfl

theorem kernelTap_zero (p a : Nat) : kernelTap p a 0 = 0x3FF0000000000000#64 := if_pos rfl

theorem lanczos_getElem {p a j : Nat} (hpa : 1 ≤ p * a) (hj : j < (lanczos p a).length) :
    (lanczos p a)[j] = kernelTap p a ((j : Int) - ((p * a : Nat) : Int) + 1) := by
  have hoffset : (j : Int) - ((p * a - 1 : Nat) : Int) = (j : Int) - ((p * a : Nat) : Int) + 1 := by omega
  simp only [lanczos, List.getElem_map, List.getElem_range, lanczosTap_eq_kernelTap, hoffset]

/-- The taps that an INIT command stores are results of R96's products. -/
theorem drawn_taps {d p a : Nat} (hpa : 1 ≤ p * a) (j : Nat) (hj : j < (drawNaNs d (lanczos p a)).length) :
    isResult (kernelTap p a ((j : Int) - ((p * a : Nat) : Int) + 1)) (drawNaNs d (lanczos p a))[j] := by
  rw [drawNaNs_getElem, lanczos_getElem hpa]
  exact isResult_drawNaN _ _

end Sys2Proof.Machine
end

section
/-! PROOFS. The statements about the FIR filter: `42_fir.md` rules R95 to R99. -/

namespace Sys2Proof.Proofs

open Sys2Proof.Machine Sys2Proof.Claims

/-- Settles O29: a valid (p, a) passes the check of FIR_INIT, and a READY filter that of FIR_PROCESS. -/
theorem firCommandsComplete : Obligations.FirCommandsComplete := by
  refine ⟨fun s i p a h0 h hp ha hlen => ?init, fun s i x h0 h hr => ?process⟩
  case init =>
    have hvalid := kernelValid_eq_true.mpr ⟨hp, ha, hlen⟩
    have he := exec_of_ok (i := .firInit i p a) rfl h0 (by rw [instAt_of_lt h, ok_bind, hvalid]; rfl)
    rw [putInst_of_lt h, State.emit_nil] at he
    exact ⟨_, by simp [kernelLen], drawn_taps (Nat.mul_pos hp ha), he⟩
  case process =>
    have he := exec_of_ok (i := .firProcess i x) rfl h0 (instance_ready h hr)
    rw [putInst_of_lt h] at he
    exact ⟨_, isResult_drawNaN s.draws _, he⟩

/-- Settles O30: the offset of tap j is j less the index of the centre. -/
theorem lanczosKernelShape : Obligations.LanczosKernelShape := by
  refine ⟨fun p a hp ha => ?shape, ?one⟩
  case shape =>
    have hpa : 1 ≤ p * a := Nat.mul_pos hp ha
    have hlen : (lanczos p a).length = 2 * (p * a - 1) + 1 := lanczos_length p a
    have htap : ∀ j, j < 2 * (p * a - 1) + 1 →
        (lanczos p a)[j]? = some (kernelTap p a ((j : Int) - ((p * a : Nat) : Int) + 1)) := by
      intro j hj
      rw [List.getElem?_eq_getElem (hlen.symm ▸ hj), lanczos_getElem hpa]
    refine ⟨hlen, by omega, ?_, htap⟩
    have hcentre : ((p * a - 1 : Nat) : Int) - ((p * a : Nat) : Int) + 1 = 0 := by omega
    rw [htap (p * a - 1) (by omega), hcentre, kernelTap_zero]
  case one => rfl

end Sys2Proof.Proofs
end

section
/-! SUPPORT. The Lag1 level with the factor of R101 as one expression (`43_lag1.md`). -/

namespace Sys2Proof.Machine

open Claims

/-- The level that lag_step stores, with the factor of R101 chosen by the sign. -/
theorem lagStep_level (d : Nat) (g : Lag) (x : F64) :
    isResult (fadd g.level (fmul (if fle g.level x then g.rise else g.fall) (fsub x g.level)))
      (lagStep d g x).level := by
  have hlevel : lagLevel g x
      = fadd g.level (fmul (if fle g.level x then g.rise else g.fall) (fsub x g.level)) := by
    unfold lagLevel
    split <;> rfl
  rw [← hlevel]
  exact lagStep_level_isResult d g x

end Sys2Proof.Machine
end

section
/-! PROOFS. The statements about the Lag1 commands: `43_lag1.md` rules R100 to R105. -/

namespace Sys2Proof.Proofs

open Sys2Proof.Machine Sys2Proof.Claims

/-- Settles O31: the checks pass, and the bodies are R100 and R101. -/
theorem lagCommandsComplete : Obligations.LagCommandsComplete := by
  refine ⟨fun s i tr tf g h0 h hfs hfsMax htr htf => ?init,
    fun s i x h0 h hr => ⟨?process, ?processInitial⟩, fun s tau h0 hfs hfsMax => ?settling⟩
  case init =>
    have hfinite : (isFinite tr && isFinite tf) = true := by rw [htr, htf]; rfl
    have he := exec_of_ok (i := .lagInit i tr tf g) rfl h0
      (by rw [instAt_of_lt h, ok_bind, needFs_of_ok hfs hfsMax, ok_bind, hfinite]; rfl)
    rwa [putInst_of_lt h, State.emit_nil] at he
  case process =>
    have he := exec_of_ok (i := .lagProcess i x) rfl h0 (instance_ready h hr)
    rw [putInst_of_lt h, hr] at he
    exact ⟨_, _, lagStep_level s.draws _ x, isResult_drawNaN (s.draws + 1) _, he⟩
  case processInitial =>
    have he := exec_of_ok (i := .lagProcessInitial i x) rfl h0 (instance_ready h hr)
    rw [putInst_of_lt h, hr] at he
    exact ⟨_, lagStep_level s.draws _ x, he⟩
  case settling =>
    exact exec_of_ok (i := .lagSettlingLen tau) rfl h0 (by rw [needFs_of_ok hfs hfsMax]; rfl)

end Sys2Proof.Proofs
end

section
/-! PROOFS. The statements about the MovMax commands: `44_movmax.md` rules R109, R110. -/

namespace Sys2Proof.Proofs

open Sys2Proof.Machine

/-- Settles O33: a legal window length and a sample that is no NaN pass the checks. -/
theorem movMaxCommandsComplete : Obligations.MovMaxCommandsComplete := by
  refine ⟨fun s i w h0 h hw hwMax => ?init, fun s i x h0 h hr hx => ?process⟩
  case init =>
    have hwindow := windowOk_eq_true.mpr ⟨hw, hwMax⟩
    have he := exec_of_ok (i := .mmxInit i w) rfl h0 (by rw [instAt_of_lt h, ok_bind, hwindow]; rfl)
    rwa [putInst_of_lt h, State.emit_nil] at he
  case process =>
    have he := exec_of_ok (i := .mmxProcess i x) rfl h0 (by rw [instance_ready h hr, hx]; rfl)
    rwa [putInst_of_lt h, hr] at he

end Sys2Proof.Proofs
end

section
/-! SUPPORT. The MovRms accumulator (`45_movrms.md` rules R111 to R113): one step as R112 writes it, and
a NaN sum through it. -/

namespace Sys2Proof.Machine

open Claims

theorem mrmsNext_of_refresh {d : Nat} {r : MovRms} {x : F64}
    (h : mrmsMustRefresh (mrmsPush d r x) = true) :
    mrmsNext d r x = mrmsRefreshed (d + 1) (mrmsPush d r x) := if_pos h

theorem mrmsNext_of_not_refresh {d : Nat} {r : MovRms} {x : F64}
    (h : ¬ mrmsMustRefresh (mrmsPush d r x) = true) : mrmsNext d r x = mrmsPush d r x := if_neg h

/-- mrms_step: the square, the running sum, and the sum that the refresh test leaves (R112). -/
theorem mrmsNext_eq (d : Nat) (r : MovRms) (x : F64) :
    ∃ sq sum acc : F64, isResult (fmul x x) sq ∧ isResult (fadd r.acc (fsub sq (r.sq.headD 0#64))) sum ∧
      (if (r.cnt + 1#64).toNat % 1048576 = 0 ∨ flt sum 0#64 = true then
        isResult ((r.sq.tail ++ [sq]).foldl fadd 0#64) acc else acc = sum) ∧
      mrmsNext d r x = ⟨r.w, r.gain, r.sq.tail ++ [sq], acc, r.cnt + 1#64⟩ := by
  have hmust : mrmsMustRefresh (mrmsPush d r x) = true ↔
      (r.cnt + 1#64).toNat % 1048576 = 0 ∨ flt (mrmsPush d r x).acc 0#64 = true := by
    simp [mrmsMustRefresh, mrmsPush, refreshInterval, f0]
  by_cases h : mrmsMustRefresh (mrmsPush d r x) = true
  · refine ⟨_, (mrmsPush d r x).acc, (mrmsRefreshed (d + 1) (mrmsPush d r x)).acc, isResult_drawNaN d _,
      isResult_drawNaN (d + 1) _, ?_, mrmsNext_of_refresh h⟩
    rw [if_pos (hmust.mp h)]
    exact isResult_drawNaN (d + 1) _
  · refine ⟨_, (mrmsPush d r x).acc, (mrmsPush d r x).acc, isResult_drawNaN d _,
      isResult_drawNaN (d + 1) _, ?_, mrmsNext_of_not_refresh h⟩
    rw [if_neg fun hc => h (hmust.mpr hc)]

/-- A NaN sum stays one, and no comparison with it asks for a refresh (R113). -/
theorem mrmsNext_of_nan {d : Nat} {r : MovRms} {x : F64} (hnan : isNaN r.acc = true)
    (hcnt : (r.cnt + 1#64).toNat % 1048576 ≠ 0) : isNaN (mrmsNext d r x).acc = true := by
  obtain ⟨sq, sum, acc, -, hsum, hacc, hnext⟩ := mrmsNext_eq d r x
  have hnanSum : isNaN sum = true := hsum.2 (by simp [hnan])
  rw [if_neg (not_or.mpr ⟨hcnt, by simp [hnanSum]⟩)] at hacc
  rw [hnext]
  exact hacc ▸ hnanSum

end Sys2Proof.Machine
end

section
/-! PROOFS. The statements about MovRms: `45_movrms.md` rules R111 to R117. -/

namespace Sys2Proof.Proofs

open Sys2Proof.Machine Sys2Proof.Claims

/-- Settles O36: the checks pass, and MRMS_PROCESS is a step as R112 writes it. -/
theorem movRmsCommandsComplete : Obligations.MovRmsCommandsComplete := by
  refine ⟨fun s i w g h0 h hw hwMax => ?init, fun s i x h0 h hr => ?process,
    fun s i h0 h hr => ⟨?refresh, ?readAcc⟩⟩
  case init =>
    have hwindow := windowOk_eq_true.mpr ⟨hw, hwMax⟩
    have he := exec_of_ok (i := .mrmsInit i w g) rfl h0 (by rw [instAt_of_lt h, ok_bind, hwindow]; rfl)
    rwa [putInst_of_lt h, State.emit_nil] at he
  case process =>
    obtain ⟨sq, sum, acc, hsq, hsum, hacc, hnext⟩ := mrmsNext_eq s.draws s.mrms[i.toNat].rms x
    have he := exec_of_ok (i := .mrmsProcess i x) rfl h0 (instance_ready h hr)
    rw [putInst_of_lt h, hr, hnext] at he
    exact ⟨sq, sum, acc, _, hsq, hsum, hacc, isResult_drawNaN (s.draws + 2) _, he⟩
  case refresh =>
    have he := exec_of_ok (i := .mrmsRefresh i) rfl h0 (instance_ready h hr)
    rw [putInst_of_lt h, hr, State.emit_nil] at he
    exact ⟨_, isResult_drawNaN s.draws _, he⟩
  case readAcc =>
    have he := exec_of_ok (i := .mrmsReadAcc i) rfl h0 (instance_ready h hr)
    exact ⟨_, isResult_drawNaN s.draws _, he⟩

/-- Settles O37: a NaN in the quotient passes the root and the gain. -/
theorem movRmsNanLastsUntilTheRefresh : Obligations.MovRmsNanLastsUntilTheRefresh := by
  intro d r x hnan hcnt
  have hacc := mrmsNext_of_nan (d := d) (x := x) hnan hcnt
  refine ⟨hacc, ?_⟩
  simp [mrmsOutput, hacc]

end Sys2Proof.Proofs
end

section
/-! SUPPORT. The frame under pushes (`46_frame.md` rules R118, R120). -/

namespace Sys2Proof.Machine

theorem needReady_bind {ready : Bool} {rest : Unit → Effect} (h : ready = true) :
    (needReady ready >>= rest) = rest () := by
  rw [h, needReady_true, ok_bind]

theorem need_bind {c : Bool} {e : ErrCode} {rest : Unit → Effect} (h : c = true) :
    (need c e >>= rest) = rest () := by
  rw [h, need_true, ok_bind]

theorem push_inside {fd : FrameDemux} {x : F64} (h : fd.cnt.toNat ≠ fd.c.toNat) :
    fd.push x = { fd with
      frame := fd.frame.setIfInBounds fd.cnt.toNat x, cnt := fd.cnt + 1#64 } := by
  simp only [FrameDemux.push, if_neg h]

/-- A push after a complete frame starts the next one. -/
theorem push_complete {fd : FrameDemux} {x : F64} (h : fd.cnt.toNat = fd.c.toNat) :
    fd.push x = { fd with frame := fd.frame.set 0 x, cnt := 1#64 } := by
  have hset : fd.frame.setIfInBounds 0 x = fd.frame.set 0 x := setIfInBounds_of_lt (by decide)
  rw [← hset]
  simp only [FrameDemux.push, if_pos h]
  rfl

theorem exec_fdPush {s : State} {x : F64} (h0 : s.err = 0#8) (hr : s.fd.ready = true)
    (heos : s.fd.eos = false) : exec (.fdPush x) s = .next { s with fd := s.fd.push x } := by
  have he := exec_of_ok (i := .fdPush x) rfl h0 (by rw [hr, heos]; rfl)
  rwa [State.emit_nil] at he

theorem take_succ_set {xs : List F64} {k : Nat} {x : F64} (h : k < xs.length) :
    (xs.set k x).take (k + 1) = xs.take k ++ [x] := by
  have hlen : (xs.take k).length = k := List.length_take_of_le (Nat.le_of_lt h)
  rw [List.set_eq_take_append_cons_drop, if_pos h, List.take_append, hlen,
    List.take_of_length_le (by omega), Nat.add_sub_cancel_left]
  rfl

/-- The record of FD_PUSH_ERR holds the stream's code twice, once in the command word (R121). -/
theorem encodeWord_fdPushErr (code : Half) : encodeWord (.fdPushErr code) = 0x6200#16 ++ code :=
  congrArg (· ++ code) (show 0x62#8 ++ 0#8 = 0x6200#16 by decide)

theorem insideFrame_iff {fd : FrameDemux} :
    (decide (0 < fd.cnt.toNat) && decide (fd.cnt.toNat < fd.c.toNat)) = true ↔
      0 < fd.cnt.toNat ∧ fd.cnt.toNat < fd.c.toNat := by
  rw [Bool.and_eq_true, decide_eq_true_eq, decide_eq_true_eq]

/-- The frame in which the samples `ys` of the current frame of `c` channels stand so far. -/
structure FrameHolds (c : Byte) (ys : List F64) (fd : FrameDemux) : Prop where
  ready : fd.ready = true
  eos : fd.eos = false
  channels : fd.c = c
  count : fd.cnt.toNat = ys.length
  samples : fd.frame.toList.take ys.length = ys

/-- A push inside the frame adds its sample. -/
theorem FrameHolds.push {c : Byte} {ys : List F64} {fd : FrameDemux} (h : FrameHolds c ys fd) (x : F64)
    (hlt : ys.length < c.toNat) (hc : c.toNat ≤ 8) : FrameHolds c (ys ++ [x]) (fd.push x) := by
  obtain ⟨hr, heos, rfl, hcnt, hsamples⟩ := h
  rw [push_inside (by omega)]
  refine ⟨hr, heos, rfl, ?_, ?_⟩
  · rw [BitVec.toNat_add, hcnt, List.length_append]
    exact Nat.mod_eq_of_lt (by simp; omega)
  · rw [Vector.toList_setIfInBounds, hcnt, List.length_append, List.length_singleton,
      take_succ_set (Vector.length_toList ▸ Nat.lt_of_lt_of_le hlt hc), hsamples]

/-- The run of FD_PUSH commands that stops at the first outcome that is no next state. -/
def pushThen (o : Host.Outcome State Fault Refusal) (x : F64) : Host.Outcome State Fault Refusal :=
  match o with
  | .next v => exec (.fdPush x) v
  | .fault r => .fault r
  | .refused r => .refused r

/-- Pushing samples that still fit in the frame adds them in order and changes the FD only. -/
theorem pushes_fill {c : Byte} (hc : c.toNat ≤ 8) {xs ys : List F64} {s : State} (h0 : s.err = 0#8)
    (h : FrameHolds c ys s.fd) (hlen : ys.length + xs.length ≤ c.toNat) :
    ∃ fd, xs.foldl pushThen (.next s) = .next { s with fd := fd } ∧ FrameHolds c (ys ++ xs) fd := by
  induction xs generalizing ys s with
  | nil => exact ⟨s.fd, rfl, by rwa [List.append_nil]⟩
  | cons x xs ih =>
    rw [List.length_cons] at hlen
    have hpush := h.push x (by omega) hc
    obtain ⟨fd, hrun, hfd⟩ := ih (s := { s with fd := s.fd.push x }) h0 hpush
      (by rw [List.length_append, List.length_singleton]; omega)
    refine ⟨fd, ?_, by rwa [List.append_cons]⟩
    rw [List.foldl_cons, ← hrun]
    exact congrArg (List.foldl pushThen · xs) (exec_fdPush h0 h.ready h.eos)

end Sys2Proof.Machine
end

section
/-! PROOFS. The statements about the frame commands: `46_frame.md` rules R118 to R123. -/

namespace Sys2Proof.Proofs

open Sys2Proof.Machine Sys2Proof.Claims

/-- Settles O38: the effect of each command where its checks pass, and the error where one fails. -/
theorem frameCommandsComplete : Obligations.FrameCommandsComplete := by
  intro s h0
  refine ⟨fun hc hcMax => ?init, fun x hr heos hcnt => ?pushInside, fun x hr heos hcnt => ?pushComplete,
    fun e => ?pushErr, fun hr hcnt => ?endAtBoundary, fun hr hpos hlt => ?endInside,
    fun c hc hlt hr hcnt => ?readValid, fun c hlt hr hcnt => ?readInvalid⟩
  case init =>
    have he := exec_of_ok (i := .fdInit) rfl h0 (by rw [needChannels_of_ok hc hcMax]; rfl)
    rwa [State.emit_nil] at he
  case pushInside => rw [exec_fdPush h0 hr heos, push_inside hcnt]
  case pushComplete => rw [exec_fdPush h0 hr heos, push_complete hcnt]
  case pushErr =>
    have he := exec_of_raise (i := .fdPushErr e) (r := ⟨.streamError, 0#16, e⟩) rfl h0 rfl
    have hnone : List.replicate (nres (Instr.fdPushErr e).opcode s) poison = [] := rfl
    rw [he, encodeWord_fdPushErr, hnone, List.append_nil]
    rfl
  case endAtBoundary =>
    have hboundary := Bool.eq_false_iff.mpr fun h => absurd (insideFrame_iff (fd := s.fd).mp h) (by omega)
    have he := exec_of_ok (i := .fdEnd) rfl h0
      ((needReady_bind hr).trans (need_bind (by rw [hboundary]; rfl)))
    rwa [State.emit_nil] at he
  case endInside =>
    have hinside := insideFrame_iff.mpr ⟨hpos, hlt⟩
    exact exec_eq_raised (i := .fdEnd) (r := raiseOf .invalidFrame) rfl h0 (by rw [hr, hinside]; rfl)
  case readValid =>
    have hvalid : s.fd.valid = true := valid_iff.mpr ⟨hr, hcnt, by omega⟩
    have he := exec_of_ok (i := .fdRead c) rfl h0 (by rw [needIndex_of_lt hlt, hr, hvalid]; rfl)
    have hsample : s.fd.frame.toList.getD c.toNat f0 = s.fd.frame[c.toNat] := by
      simp [List.getD_eq_getElem?_getD, hc]
    rwa [hsample] at he
  case readInvalid =>
    have hinvalid : s.fd.valid = false := Bool.eq_false_iff.mpr fun h => hcnt (valid_iff.mp h).2.1
    exact exec_eq_raised (i := .fdRead c) (r := raiseOf .invalidFrame) rfl h0
      (by rw [needIndex_of_lt hlt, hr, hinvalid]; rfl)

/-- Settles O39: FD_INIT leaves a frame that holds no samples, and the pushes fill it. -/
theorem pushedSamplesFormTheFrame : Obligations.PushedSamplesFormTheFrame := by
  intro s t xs h0 he h1 hlen
  obtain ⟨t', rs, hb, rfl⟩ := body_of_exec rfl he h0 h1
  simp only [bind_eq_ok, needChannels_eq_ok] at hb
  obtain ⟨c, ⟨rfl, hc, hcMax⟩, hb⟩ := hb
  cases hb
  have hempty : FrameHolds s.cfg.channels [] ⟨true, s.cfg.channels, Vector.replicate _ f0, 0#64, false⟩ :=
    ⟨rfl, rfl, rfl, rfl, rfl⟩
  obtain ⟨fd, hrun, hfd⟩ := pushes_fill hcMax (xs := xs)
    (s := { s with fd := ⟨true, s.cfg.channels, Vector.replicate _ f0, 0#64, false⟩ }) h0 hempty
    (by rw [List.length_nil]; omega)
  rw [State.emit_nil]
  refine ⟨{ s with fd := fd }, hrun, rfl, ?_, ?_⟩
  · exact valid_iff.mpr ⟨hfd.ready, by rw [hfd.count, hfd.channels, List.nil_append, hlen],
      by rw [hfd.channels]; exact hc⟩
  · rw [hfd.channels, ← hlen]
    exact hfd.samples

end Sys2Proof.Proofs
end

section
/-! SUPPORT. The appends and commits of the loudness unit (`47_loudness.md` rules R133 to R137) in the
words of the claims. -/

namespace Sys2Proof.Machine

open Claims

/-! ## Appends (R135) -/

theorem luAppend_eq_ringAppend (b : Dword) (a : LuAcc) (v : Option F64) :
    luAppend b a v = ringAppend b a v := by
  cases v with
  | none => rfl
  | some v =>
    unfold luAppend ringAppend
    simp only [BitVec.sub_add_cancel]

theorem luAppends_eq_ringAppends (b : Dword) (accs : List LuAcc) (vs : List (Option F64)) :
    luAppends b accs vs = ringAppends b accs vs := by
  rw [luAppends_eq_mapIdx]
  simp only [luAppend_eq_ringAppend]
  rfl

/-! ## One commit (R134) -/

theorem fOfNat_binCount : fOfNat binCount = 0x40BE790000000000#64 := by decide +kernel

theorem luCommit_of_commitOk {k : Nat} {a : LuAcc} {e : F64} (h : commitOk e) :
    luCommit k a e = .ok (commitAcc a e) := by
  obtain ⟨hn, hhigh⟩ := h
  rw [← luIndex_eq_energyIndex] at hn hhigh
  rw [← fOfNat_binCount] at hhigh
  unfold commitAcc
  rw [← luIndex_eq_energyIndex]
  split
  · rename_i hlow
    exact luCommit_of_below hlow
  · rename_i hlow
    exact luCommit_of_bin hn hhigh (Bool.eq_false_iff.mpr hlow)

/-! ## The commits of a list of accumulators (R135, R137) -/

/-- The commits from accumulator `k` on, of the mean energy `e a` where `p a` says that there is one. -/
def commitWhere (p : LuAcc → Bool) (e : LuAcc → F64) : Nat → List LuAcc → Except Raise (List LuAcc)
  | _, [] => .ok []
  | k, a :: as => do
    let a' ← if p a then luCommit k a (e a) else .ok a
    let rest ← commitWhere p e (k + 1) as
    .ok (a' :: rest)

theorem luCommitPartial_eq_commitWhere (k : Nat) (as : List LuAcc) :
    luCommitPartial k as
      = commitWhere (fun a => decide (0 < a.len.toNat)) (fun a => ringMean a a.len) k as := by
  induction as generalizing k with
  | nil => rfl
  | cons a as ih =>
    simp only [luCommitPartial, commitWhere, ih, decide_eq_true_eq]
    rfl

/-- LU_FRAME's commits also say whether any ring was full. -/
theorem luCommitFull_eq_commitWhere (b : Dword) (k : Nat) (as : List LuAcc) :
    luCommitFull b k as
      = (commitWhere (fun a => decide (b.toNat ≤ a.len.toNat)) (fun a => ringMean a b) k as >>= fun as' =>
          .ok (as', as.any fun a => decide (b.toNat ≤ a.len.toNat))) := by
  induction as generalizing k with
  | nil => rfl
  | cons a as ih =>
    simp only [luCommitFull, commitWhere, ih, decide_eq_true_eq, List.any_cons]
    -- Both sides commit `a` in the same way, and fail where a later commit fails.
    have hbind : ∀ (x : Except Raise LuAcc) (y : Except Raise (List LuAcc)) (full rest : Bool),
        (x >>= fun a' => y >>= (fun as' => .ok (as', rest)) >>= fun r => .ok (a' :: r.1, full || r.2))
          = ((x >>= fun a' => y >>= fun as' => .ok (a' :: as')) >>= fun as' =>
              (.ok (as', full || rest) : Except Raise (List LuAcc × Bool))) := by
      intro x y full rest
      cases x <;> cases y <;> rfl
    split <;> exact hbind _ _ _ _

theorem commitWhere_ok {p : LuAcc → Bool} {e : LuAcc → F64} {k : Nat} {as : List LuAcc}
    (h : ∀ a ∈ as, p a = true → commitOk (e a)) :
    commitWhere p e k as = .ok (as.map fun a => if p a then commitAcc a (e a) else a) := by
  induction as generalizing k with
  | nil => rfl
  | cons a as ih =>
    obtain ⟨ha, has⟩ := List.forall_mem_cons.mp h
    rw [commitWhere, ih has]
    cases hp : p a with
    | true => simp [luCommit_of_commitOk (ha hp), hp]
    | false => simp [hp]

/-- The accumulators before the first that raises are committed in vain. -/
theorem commitWhere_error {p : LuAcc → Bool} {e : LuAcc → F64} {k : Nat} {before after : List LuAcc}
    {a : LuAcc} {r : Raise} (hbefore : ∀ b ∈ before, p b = true → commitOk (e b)) (hp : p a = true)
    (ha : luCommit (k + before.length) a (e a) = .error r) :
    commitWhere p e k (before ++ a :: after) = .error r := by
  induction before generalizing k with
  | nil =>
    rw [List.nil_append, commitWhere, if_pos hp]
    exact congrArg (· >>= _) ha
  | cons b before ih =>
    obtain ⟨hb, hbefore⟩ := List.forall_mem_cons.mp hbefore
    have hindex : k + (b :: before).length = k + 1 + before.length := by
      rw [List.length_cons]
      omega
    have hrest := ih (k := k + 1) hbefore (hindex ▸ ha)
    rw [List.cons_append, commitWhere, hrest]
    cases hp : p b with
    | true => simp [luCommit_of_commitOk (hb hp)]
    | false => simp

theorem luCommitFull_ok {b : Dword} {k : Nat} {as : List LuAcc}
    (h : ∀ a ∈ as, b.toNat ≤ a.len.toNat → commitOk (ringMean a b)) :
    luCommitFull b k as
      = .ok (as.map fun a => if b.toNat ≤ a.len.toNat then commitAcc a (ringMean a b) else a,
          as.any fun a => decide (b.toNat ≤ a.len.toNat)) := by
  rw [luCommitFull_eq_commitWhere, commitWhere_ok fun a ha hfull => h a ha (of_decide_eq_true hfull), ok_bind]
  simp only [decide_eq_true_eq]

theorem luCommitFull_error {b : Dword} {before after : List LuAcc} {a : LuAcc} {r : Raise}
    (hbefore : ∀ c ∈ before, b.toNat ≤ c.len.toNat → commitOk (ringMean c b))
    (hfull : b.toNat ≤ a.len.toNat) (ha : luCommit before.length a (ringMean a b) = .error r) :
    luCommitFull b 0 (before ++ a :: after) = .error r := by
  rw [luCommitFull_eq_commitWhere]
  refine congrArg (· >>= _) (commitWhere_error ?_ ?_ ?_)
  · exact fun c hc hfull => hbefore c hc (of_decide_eq_true hfull)
  · exact decide_eq_true hfull
  · rwa [Nat.zero_add]

theorem luCommitPartial_ok {k : Nat} {as : List LuAcc}
    (h : ∀ a ∈ as, 0 < a.len.toNat → commitOk (ringMean a a.len)) :
    luCommitPartial k as
      = .ok (as.map fun a => if 0 < a.len.toNat then commitAcc a (ringMean a a.len) else a) := by
  rw [luCommitPartial_eq_commitWhere, commitWhere_ok fun a ha hpos => h a ha (of_decide_eq_true hpos)]
  simp only [decide_eq_true_eq]

theorem luCommitPartial_error {before after : List LuAcc} {a : LuAcc} {r : Raise}
    (hbefore : ∀ c ∈ before, 0 < c.len.toNat → commitOk (ringMean c c.len)) (hpos : 0 < a.len.toNat)
    (ha : luCommit before.length a (ringMean a a.len) = .error r) :
    luCommitPartial 0 (before ++ a :: after) = .error r := by
  rw [luCommitPartial_eq_commitWhere]
  refine commitWhere_error ?_ ?_ ?_
  · exact fun c hc hpos => hbefore c hc (of_decide_eq_true hpos)
  · exact decide_eq_true hpos
  · rwa [Nat.zero_add]

end Sys2Proof.Machine
end

section
/-! SUPPORT. One frame of the loudness unit (`47_loudness.md` rules R135, R136): the branch of
lu_accumulate inside a hop and at its end. -/

namespace Sys2Proof.Machine

open Claims

theorem luAccumulate_of_inside {u : Loudness} {vs : List (Option F64)}
    (h : (u.n + 1#64).toNat % u.hopN.toNat ≠ 0) :
    luAccumulate u vs = .ok { u with accs := ringAppends u.blockN u.accs vs, n := u.n + 1#64 } := by
  rw [← luAppends_eq_ringAppends]
  exact if_neg h

theorem luAccumulate_of_hop {u : Loudness} {vs : List (Option F64)}
    (h : (u.n + 1#64).toNat % u.hopN.toNat = 0) :
    luAccumulate u vs = (luCommitFull u.blockN 0 (ringAppends u.blockN u.accs vs) >>= fun r =>
      .ok { u with accs := r.1, n := u.n + 1#64, committed := u.committed || r.2 }) := by
  rw [← luAppends_eq_ringAppends]
  exact if_pos h

/-- The values v[k] that lu_weigh gives for the frame `x` (R132). -/
def frameValues (d : Nat) (u : Loudness) (x : List F64) : List (Option F64) :=
  luValues (d + 3 * u.chans.length) u.indep (luWeighChans u.ks u.kh d u.chans x).2

theorem luFrameStep_of_inside {d : Nat} {u : Loudness} {x : List F64}
    (h : (u.n + 1#64).toNat % u.hopN.toNat ≠ 0) :
    luFrameStep d u x = .ok { u with
      chans := (luWeighChans u.ks u.kh d u.chans x).1
      accs := ringAppends u.blockN u.accs (frameValues d u x), n := u.n + 1#64 } :=
  luAccumulate_of_inside (u := { u with chans := (luWeighChans u.ks u.kh d u.chans x).1 }) h

theorem luFrameStep_of_hop {d : Nat} {u : Loudness} {x : List F64}
    (h : (u.n + 1#64).toNat % u.hopN.toNat = 0) :
    luFrameStep d u x = (luCommitFull u.blockN 0 (ringAppends u.blockN u.accs (frameValues d u x)) >>=
      fun r => .ok { u with
        chans := (luWeighChans u.ks u.kh d u.chans x).1
        accs := r.1, n := u.n + 1#64, committed := u.committed || r.2 }) :=
  luAccumulate_of_hop (u := { u with chans := (luWeighChans u.ks u.kh d u.chans x).1 }) h

/-- LU_FRAME with a READY unit and a frame of its channels is the step of its unit (R136). -/
theorem luFrame_body {s : State} {rest : Loudness → Effect} (hr : s.lu.ready = true)
    (hv : s.fd.valid = true) (hc : s.fd.c = s.lu.c) :
    (needReady s.lu.ready >>= fun _ => needFrame s.lu.c s >>= fun x =>
      luFrameStep s.draws s.lu x >>= rest)
      = (luFrameStep s.draws s.lu (frameSamples s.fd s.lu.c) >>= rest) := by
  rw [needReady_bind hr, needFrame_of_valid hv hc, ok_bind]

theorem histOf_of_getElem? {u : Loudness} {k : Nat} {a : LuAcc} (h : u.accs[k]? = some a) :
    u.histOf k = a.hist := by
  simp only [Loudness.histOf, h]

/-- LU_COEF_READ of a selector that R77 admits. -/
theorem exec_luCoefRead {s : State} {sel : BitVec 4} {v : F64} (h0 : s.err = 0#8) (hr : s.lu.ready = true)
    (hsel : selectorOk sel = true)
    (hv : (if sel.getLsbD 3 then s.lu.kh else s.lu.ks).select (sel.extractLsb' 0 3) = v) :
    ∃ y : F64, isResult v y ∧ exec (.luCoefRead sel) s = .next { s with
      results := s.results ++ [y], draws := s.draws + 1 } := by
  have he := exec_of_ok (i := .luCoefRead sel) rfl h0 ((need_bind hsel).trans (needReady_bind hr))
  exact ⟨_, hv ▸ isResult_drawNaN s.draws _, he⟩

end Sys2Proof.Machine
end

section
/-! PROOFS. The statements about the loudness commands: `47_loudness.md` rules R131 to R143. -/

namespace Sys2Proof.Proofs

open Sys2Proof.Machine Sys2Proof.Claims

/-- Settles O41: both checks pass, and the unit is R131's. -/
theorem luInitCompletes : Obligations.LuInitCompletes := by
  intro s h0 hc hcMax hfs hfsMax coefs na
  have he := exec_of_ok (i := .luInit) rfl h0
    (by rw [needChannels_of_ok hc hcMax, ok_bind, needFs_of_ok hfs hfsMax]; rfl)
  rwa [State.emit_nil] at he

/-- Settles O42: inside a hop the rings take the values; at its end every commit of a full ring is one
that raises nothing. -/
theorem luFrameCompletes : Obligations.LuFrameCompletes := by
  refine ⟨fun b a => ⟨rfl, fun v => ⟨fun hfull => ?full, fun hroom => ?room⟩⟩,
    fun b accs vs k a hk => ?appends, fun a n => rfl, fun s h0 hr hv hc => ⟨fun hin => ?inside,
      fun hhop hok => ?hopEnd⟩⟩
  case full => rw [luAppend_eq_ringAppend, ringAppend, if_pos hfull]
  case room => rw [luAppend_eq_ringAppend, ringAppend, if_neg hroom]
  case appends => simp [luAppends_eq_mapIdx, hk]
  case inside =>
    have he := exec_of_ok (i := .luFrame) rfl h0
      ((luFrame_body hr hv hc).trans (by rw [luFrameStep_of_inside hin]; rfl))
    rwa [State.emit_nil] at he
  case hopEnd =>
    have hok : ∀ a ∈ ringAppends s.lu.blockN s.lu.accs
        (frameValues s.draws s.lu (frameSamples s.fd s.lu.c)),
        s.lu.blockN.toNat ≤ a.len.toNat → commitOk (ringMean a s.lu.blockN) := hok
    have he := exec_of_ok (i := .luFrame) rfl h0
      ((luFrame_body hr hv hc).trans (by rw [luFrameStep_of_hop hhop, luCommitFull_ok hok]; rfl))
    rwa [State.emit_nil] at he

/-- Settles O45: the commits before the first that raises raise nothing, so it is the error taken. -/
theorem luRaisesForTheLowestAccumulator : Obligations.LuRaisesForTheLowestAccumulator := by
  rintro s k before after a e h0 hr rfl
  refine ⟨fun hv hc hhop haccs hbefore hfull herr => ?frame,
    fun hcommitted haccs hbefore hpos herr => ?finalize⟩
  case frame =>
    have haccs : ringAppends s.lu.blockN s.lu.accs
        (frameValues s.draws s.lu (frameSamples s.fd s.lu.c)) = before ++ a :: after := haccs
    exact exec_eq_raised (i := .luFrame) (r := ⟨e, BitVec.ofNat 16 before.length, 0#16⟩) rfl h0
      ((luFrame_body hr hv hc).trans
        (by rw [luFrameStep_of_hop hhop, haccs, luCommitFull_error hbefore hfull herr]; rfl))
  case finalize =>
    exact exec_eq_raised (i := .luFinalize) (r := ⟨e, BitVec.ofNat 16 before.length, 0#16⟩) rfl h0
      ((needReady_bind hr).trans
        (by rw [hcommitted, haccs, luCommitPartial_error hbefore hpos herr]; rfl))

/-- Settles O46: with a block committed the body keeps the accumulators, and otherwise every commit is
one that raises nothing. -/
theorem luFinalizeCompletes : Obligations.LuFinalizeCompletes := by
  intro s h0 hr
  refine ⟨fun hcommitted => ?done, fun hcommitted hok => ?commits⟩
  case done =>
    have hsame : ({ s.lu with committed := true } : Loudness) = s.lu := by rw [← hcommitted]
    have he := exec_of_ok (i := .luFinalize) rfl h0 ((needReady_bind hr).trans (by rw [hcommitted]; rfl))
    rwa [State.emit_nil, hsame] at he
  case commits =>
    have he := exec_of_ok (i := .luFinalize) rfl h0
      ((needReady_bind hr).trans (by rw [hcommitted, luCommitPartial_ok hok]; rfl))
    rwa [State.emit_nil] at he

/-- Settles O47: the index and READY checks pass, and each of the ten selectors is admitted. -/
theorem luReadCommandsComplete : Obligations.LuReadCommandsComplete := by
  intro s h0 hr
  refine ⟨fun k a hk ha => ⟨?result, fun b hb => ?histRead⟩, ?coefs⟩
  case result =>
    have he := exec_of_ok (i := .luResult k) rfl h0
      ((congrArg (· >>= _) (needIndex_of_lt hk)).trans (needReady_bind hr))
    rw [histOf_of_getElem? ha] at he
    exact ⟨_, isResult_drawNaN s.draws _, he⟩
  case histRead =>
    have he := exec_of_ok (i := .luHistRead k b) rfl h0 (by
      rw [needIndex_of_lt hk, ok_bind, needIndex_of_lt (n := binCount) hb, ok_bind, needReady_bind hr])
    rwa [histOf_of_getElem? ha] at he
  case coefs =>
    refine ⟨?_, ?_, ?_, ?_, ?_, ?_, ?_, ?_, ?_, ?_⟩
    all_goals exact exec_luCoefRead h0 hr (by decide) rfl

end Sys2Proof.Proofs
end

section
/-! SUPPORT. The two sums of the gated mean (`47_loudness.md` rules R138, R139). -/

namespace Sys2Proof.Machine

open Claims

theorem fBinW_eq_binW : fBinW = binW := by decide +kernel

theorem binEnergy_eq_energyOfBin (i : Nat) : binEnergy i = energyOfBin i := by
  rw [energyOfBin, ← fBinW_eq_binW]
  rfl

theorem luIndexOfDb_eq_dbIndex (l : F64) : luIndexOfDb l = dbIndex l := by
  rw [dbIndex, ← fScale_eq_scale]
  rfl

theorem range_filter_le (lo : Nat) : ∀ n : Nat,
    (List.range n).filter (fun i => decide (lo ≤ i)) = (List.range n).drop lo
  | 0 => by simp
  | n + 1 => by
    rw [List.range_succ, List.filter_append, range_filter_le lo n, List.drop_append, List.length_range]
    rcases Nat.lt_or_ge n lo with hlt | hge
    · obtain ⟨m, hm⟩ : ∃ m, lo - n = m + 1 := ⟨lo - n - 1, by omega⟩
      simp [hm, Nat.not_le.mpr hlt]
    · simp [Nat.sub_eq_zero_of_le hge, hge]

theorem zipIdx_eq_map_range (hist : List Dword) :
    hist.zipIdx = (List.range hist.length).map fun i => (hist.getD i 0#64, i) := by
  apply List.ext_getElem
  · simp
  · intro i h _
    have hi : i < hist.length := by simpa using h
    simp [List.getD_eq_getElem?_getD, hi]

/-- Two sums taken together are the two sums taken one after the other. -/
theorem foldl_pair {α β γ : Type} (f : β → α → β) (g : γ → α → γ) : ∀ (l : List α) (b : β) (c : γ),
    l.foldl (fun p x => (f p.1 x, g p.2 x)) (b, c) = (l.foldl f b, l.foldl g c)
  | [], _, _ => rfl
  | x :: xs, b, c => foldl_pair f g xs (f b x) (g c x)

theorem gatedMean_eq_meanOver {hist : List Dword} (h : hist.length = 7801) (lo : Nat) :
    gatedMean hist lo = meanOver hist lo := by
  rw [gatedMean, meanOver, zipIdx_eq_map_range, h, range_filter_le, ← List.map_drop, List.foldl_map]
  simp only [binEnergy_eq_energyOfBin]
  rw [foldl_pair (fun n i => fadd n (fmul (fOfNat (hist.getD i 0#64).toNat) (energyOfBin i)))
    (fun n i => fadd n (fOfNat (hist.getD i 0#64).toNat))]
  rfl

theorem gateIndex_eq_dbIndex (m : F64) :
    gateIndex m = dbIndex (fsub (fmul 0x4024000000000000#64 (fnLog10 m)) 0x4024000000000000#64) :=
  luIndexOfDb_eq_dbIndex _

theorem luIntegrate_of_empty {d : Nat} {hist : List Dword} (h : ∀ n ∈ hist, n = 0#64) :
    luIntegrate d hist = f0 :=
  if_pos (List.all_eq_true.mpr fun n hn => beq_iff_eq.mpr (h n hn))

theorem luIntegrate_of_count {d : Nat} {hist : List Dword} (h : ∃ n ∈ hist, n ≠ 0#64) :
    luIntegrate d hist = gatedMean hist (gateBin d (gateIndex (gatedMean hist 0))) := by
  refine if_neg fun hall => ?_
  obtain ⟨n, hn, hne⟩ := h
  exact hne (beq_iff_eq.mp (List.all_eq_true.mp hall n hn))

theorem gateBin_of_negative {d : Nat} {j : F64} (h : flt j f0 = true) : gateBin d j = 0 := by
  simp [gateBin, h, isNaN_eq_false_of_flt h]

theorem gateBin_of_finite {d : Nat} {j : F64} (hfin : isFinite j = true) (h : fle f0 j = true) :
    gateBin d j = fToNat j := by
  have hn : isNaN j = false := isFinite_not_nan hfin
  have hlow : flt j f0 = false := (flt_false_iff hn (by decide)).mpr h
  have hinf : isInf j = false := isFinite_not_inf hfin
  simp [gateBin, hn, hlow, hinf]

end Sys2Proof.Machine
end

section
/-! PROOFS. The integration (`47_loudness.md` rule R139). -/

namespace Sys2Proof.Proofs

open Sys2Proof.Machine Sys2Proof.Claims

/-- Settles O48: the model's one pass over numbered counts is the two sums over the bins, and its second
pass starts at the gate's bin. -/
theorem luIntegratesInTwoGatedPasses : Obligations.LuIntegratesInTwoGatedPasses := by
  refine ⟨by decide +kernel, fun d hist hlen => ⟨luIntegrate_of_empty, fun hcount => ?_⟩⟩
  rw [luIntegrate_of_count hcount, gatedMean_eq_meanOver hlen, gatedMean_eq_meanOver hlen,
    gateIndex_eq_dbIndex]
  exact ⟨_, rfl, gateBin_of_negative, gateBin_of_finite⟩

end Sys2Proof.Proofs
end

section
/-! SUPPORT. Silence in the loudness unit (`47_loudness.md` rule R144): zeros stay zeros through the
filters, the weights, the rings and the means. -/

namespace Sys2Proof.Machine

open Claims

/-! ## Filters and weights -/

theorem drawNaN_of_zero {d : Nat} {x : F64} (h : isZero x = true) : drawNaN d x = x :=
  drawNaN_of_not_nan (isZero_not_nan h)

theorem isZero_bqOutput {st : BqState} {k : BqCoef} {x : F64} (hk : finiteCoef k) (hst : zeroFilter st)
    (hx : isZero x = true) : isZero (bqOutput st k x) = true := by
  obtain ⟨hb0, hb1, hb2, ha1, ha2⟩ := hk
  obtain ⟨hx1, hx2, hy1, hy2⟩ := hst
  have hfeed := fadd_zero_zero (fmul_finite_zero hb0 hx) (fmul_finite_zero hb1 hx1)
  have hforward := fadd_zero_zero hfeed (fmul_finite_zero hb2 hx2)
  have hback := fsub_zero_zero hforward (fmul_finite_zero ha1 hy1)
  exact fsub_zero_zero hback (fmul_finite_zero ha2 hy2)

theorem bqStep_zero {d : Nat} {st : BqState} {k : BqCoef} {x : F64} (hk : finiteCoef k)
    (hst : zeroFilter st) (hx : isZero x = true) :
    zeroFilter (bqStep d st k x).1 ∧ isZero (bqStep d st k x).2 = true := by
  have hy := isZero_bqOutput hk hst hx
  have hdraw : isZero (drawNaN d (bqOutput st k x)) = true := by rwa [drawNaN_of_zero hy]
  obtain ⟨hx1, -, hy1, -⟩ := hst
  exact ⟨⟨hx, hx1, hdraw, hy1⟩, hdraw⟩

/-- A channel whose filters hold zeros and whose weight is finite. -/
def quietChan (ch : LuChan) : Prop := isFinite ch.w = true ∧ zeroFilter ch.shelf ∧ zeroFilter ch.hp

/-- An accumulator whose ring holds zeros and whose counts are all 0. -/
def quietAcc (a : LuAcc) : Prop := (∀ v ∈ a.blk, isZero v = true) ∧ ∀ n ∈ a.hist, n = 0#64

theorem luWeighChan_quiet {d : Nat} {ks kh : BqCoef} {ch : LuChan} {x : F64} (hks : finiteCoef ks)
    (hkh : finiteCoef kh) (hch : quietChan ch) (hx : isZero x = true) :
    quietChan (luWeighChan d ks kh ch x).1 ∧
      ∀ v, (luWeighChan d ks kh ch x).2 = some v → isZero v = true := by
  cases hw : feq ch.w f0 with
  | true =>
    rw [luWeighChan_of_skipped hw]
    exact ⟨hch, nofun⟩
  | false =>
    obtain ⟨hfin, hshelf, hhp⟩ := hch
    obtain ⟨hshelf', hy1⟩ := bqStep_zero (d := d) hks hshelf hx
    obtain ⟨hhp', hy2⟩ := bqStep_zero (d := d + 1) hkh hhp hy1
    have hvalue := fmul_finite_zero hfin (fmul_finite_zero (isZero_finite hy2) hy2)
    rw [luWeighChan, hw]
    refine ⟨⟨hfin, hshelf', hhp'⟩, fun v hv => ?_⟩
    cases hv
    rwa [drawNaN_of_zero hvalue]

theorem luWeighChans_quiet {ks kh : BqCoef} (hks : finiteCoef ks) (hkh : finiteCoef kh) :
    ∀ (d : Nat) (chs : List LuChan) (xs : List F64), (∀ ch ∈ chs, quietChan ch) →
      (∀ x ∈ xs, isZero x = true) →
      (∀ ch ∈ (luWeighChans ks kh d chs xs).1, quietChan ch) ∧
        ∀ v, some v ∈ (luWeighChans ks kh d chs xs).2 → isZero v = true
  | _, [], _, hch, _ => ⟨hch, nofun⟩
  | _, _ :: _, [], hch, _ => ⟨hch, nofun⟩
  | d, ch :: chs, x :: xs, hch, hx => by
    obtain ⟨hch, hchs⟩ := List.forall_mem_cons.mp hch
    obtain ⟨hx, hxs⟩ := List.forall_mem_cons.mp hx
    obtain ⟨hfirst, hvalue⟩ := luWeighChan_quiet (d := d) hks hkh hch hx
    obtain ⟨hrest, hvalues⟩ := luWeighChans_quiet hks hkh (d + 3) chs xs hchs hxs
    refine ⟨List.forall_mem_cons.mpr ⟨hfirst, hrest⟩, fun v hv => ?_⟩
    rcases List.mem_cons.mp hv with h | h
    · exact hvalue v h.symm
    · exact hvalues v h

theorem isZero_foldl_fadd : ∀ (vs : List F64) (z : F64), isZero z = true →
    (∀ v ∈ vs, isZero v = true) → isZero (vs.foldl fadd z) = true
  | [], _, hz, _ => hz
  | v :: vs, z, hz, hvs => by
    obtain ⟨hv, hvs⟩ := List.forall_mem_cons.mp hvs
    exact isZero_foldl_fadd vs (fadd z v) (fadd_zero_zero hz hv) hvs

theorem isZero_luValues {d : Nat} {indep : Bool} {es : List (Option F64)}
    (h : ∀ v, some v ∈ es → isZero v = true) : ∀ v, some v ∈ luValues d indep es → isZero v = true := by
  intro v hv
  cases indep with
  | true => exact h v hv
  | false =>
    have hsum : isZero (luCombine es) = true := by
      rw [luCombine_eq_foldl]
      exact isZero_foldl_fadd _ f0 (by decide) fun v hv => h v (by simpa using hv)
    cases List.mem_singleton.mp hv
    rwa [drawNaN_of_zero hsum]

/-! ## Rings and commits -/

theorem ringAppend_quiet {b : Dword} {a : LuAcc} {v : Option F64} (ha : quietAcc a)
    (hv : ∀ z, v = some z → isZero z = true) : quietAcc (ringAppend b a v) := by
  obtain ⟨hblk, hhist⟩ := ha
  cases v with
  | none => exact ⟨hblk, hhist⟩
  | some z =>
    have hlast : ∀ y ∈ [z], isZero y = true := by simpa using hv z rfl
    rw [ringAppend]
    split
    · exact ⟨List.forall_mem_append.mpr ⟨fun y hy => hblk y (List.mem_of_mem_tail hy), hlast⟩, hhist⟩
    · exact ⟨List.forall_mem_append.mpr ⟨hblk, hlast⟩, hhist⟩

theorem ringAppends_quiet {b : Dword} {accs : List LuAcc} {vs : List (Option F64)}
    (ha : ∀ a ∈ accs, quietAcc a) (hv : ∀ v, some v ∈ vs → isZero v = true) :
    ∀ a ∈ ringAppends b accs vs, quietAcc a := by
  intro a hmem
  obtain ⟨k, hk, rfl⟩ := List.mem_mapIdx.mp hmem
  refine ringAppend_quiet (ha _ (List.getElem_mem hk)) fun z hz => hv z ?_
  rw [List.getD_eq_getElem?_getD] at hz
  cases hget : vs[k]? with
  | none => rw [hget] at hz; cases hz
  | some v =>
    rw [hget] at hz
    cases hz
    exact List.mem_of_getElem? hget

/-- The mean of a ring of zeros is a zero. -/
theorem isZero_ringMean {a : LuAcc} {n : Dword} (ha : quietAcc a) (hn : 1 ≤ n.toNat) :
    isZero (ringMean a n) = true :=
  fdiv_zero_of_nonzero (isZero_foldl_fadd _ _ (by decide) ha.1) (isNaN_fOfNat _) (fOfNat_ne_zero hn)

theorem energyIndex_of_zero {e : F64} (h : isZero e = true) : energyIndex e = fInf true := by
  rw [← luIndex_eq_energyIndex, luIndex_of_zero h]

theorem commitOk_of_zero {e : F64} (h : isZero e = true) : commitOk e := by
  rw [commitOk, energyIndex_of_zero h]
  decide

/-- A commit of silence counts nothing: its index lies below every bin. -/
theorem commitAcc_of_zero {a : LuAcc} {e : F64} (h : isZero e = true) : commitAcc a e = a := by
  rw [commitAcc, energyIndex_of_zero h]
  exact if_pos (by decide)

theorem map_commitAcc_of_zero {as : List LuAcc} {p : LuAcc → Prop} [DecidablePred p] {e : LuAcc → F64}
    (h : ∀ a ∈ as, p a → isZero (e a) = true) :
    (as.map fun a => if p a then commitAcc a (e a) else a) = as := by
  refine (List.map_congr_left fun a ha => ?_).trans (List.map_id' as)
  split
  · rename_i hp
    exact commitAcc_of_zero (h a ha hp)
  · rfl

theorem luCommitFull_quiet {b : Dword} {as : List LuAcc} (hb : 1 ≤ b.toNat)
    (h : ∀ a ∈ as, quietAcc a) :
    luCommitFull b 0 as = .ok (as, as.any fun a => decide (b.toNat ≤ a.len.toNat)) := by
  have hmean : ∀ a ∈ as, b.toNat ≤ a.len.toNat → isZero (ringMean a b) = true :=
    fun a ha _ => isZero_ringMean (h a ha) hb
  rw [luCommitFull_ok fun a ha hfull => commitOk_of_zero (hmean a ha hfull), map_commitAcc_of_zero hmean]

theorem luCommitPartial_quiet {as : List LuAcc} (h : ∀ a ∈ as, quietAcc a) :
    luCommitPartial 0 as = .ok as := by
  have hmean : ∀ a ∈ as, 0 < a.len.toNat → isZero (ringMean a a.len) = true :=
    fun a ha hpos => isZero_ringMean (h a ha) hpos
  rw [luCommitPartial_ok fun a ha hpos => commitOk_of_zero (hmean a ha hpos), map_commitAcc_of_zero hmean]

/-! ## The unit -/

/-- One frame of silence: the channels and rings stay quiet, and the commits at the end of a hop change
no accumulator. -/
theorem luFrameStep_silent {d : Nat} {u : Loudness} {x : List F64} (hu : silent u) (hf : finiteFilters u)
    (hx : ∀ v ∈ x, isZero v = true) :
    ∃ u', luFrameStep d u x = .ok u' ∧ silent u' ∧ finiteFilters u' := by
  obtain ⟨hr, hc, hcMax, hb, ho, hchans, haccs, hquiet⟩ := hu
  obtain ⟨hks, hkh, hw⟩ := hf
  obtain ⟨hchans, hvalues⟩ := luWeighChans_quiet hks hkh d u.chans x
    (fun ch hch => ⟨hw ch hch, hchans ch hch⟩) hx
  have hrings : ∀ a ∈ ringAppends u.blockN u.accs (frameValues d u x), quietAcc a :=
    ringAppends_quiet hquiet (isZero_luValues hvalues)
  have hcount : (ringAppends u.blockN u.accs (frameValues d u x)).length = u.na.toNat := by
    rw [ringAppends, List.length_mapIdx, haccs]
  have hsilent : ∀ committed : Bool, silent { u with
      chans := (luWeighChans u.ks u.kh d u.chans x).1
      accs := ringAppends u.blockN u.accs (frameValues d u x)
      n := u.n + 1#64, committed := committed } :=
    fun _ => ⟨hr, hc, hcMax, hb, ho, fun ch hch => (hchans ch hch).2, hcount, hrings⟩
  have hfinite : ∀ ch ∈ (luWeighChans u.ks u.kh d u.chans x).1, isFinite ch.w = true :=
    fun ch hch => (hchans ch hch).1
  rcases Nat.decEq ((u.n + 1#64).toNat % u.hopN.toNat) 0 with hin | hhop
  · exact ⟨_, luFrameStep_of_inside hin, hsilent _, hks, hkh, hfinite⟩
  · rw [luFrameStep_of_hop hhop, luCommitFull_quiet hb hrings, ok_bind]
    exact ⟨_, rfl, hsilent _, hks, hkh, hfinite⟩

/-- LU_INIT's unit is silent: R129's lengths are at least 1 because the rate is at least 10. -/
theorem silent_of_luInit {s t : State} (h0 : s.err = 0#8) (he : exec .luInit s = .next t)
    (h1 : t.err = 0#8) : silent t.lu := by
  obtain ⟨t', rs, hb, rfl⟩ := body_of_exec rfl he h0 h1
  simp only [bind_eq_ok, needChannels_eq_ok, needFs_eq_ok] at hb
  obtain ⟨c, ⟨-, hc, hcMax⟩, fs, ⟨-, hfs, hfsMax⟩, hb⟩ := hb
  cases hb
  simp only [Config.fsMax] at hfsMax
  have hblock : (BitVec.ofNat 64 (blockLen fs)).toNat = blockLen fs :=
    toNat_ofNat_of_lt (by unfold blockLen; omega)
  have hhop : (BitVec.ofNat 64 (hopLen fs)).toNat = hopLen fs :=
    toNat_ofNat_of_lt (by unfold hopLen; omega)
  refine ⟨rfl, hc, hcMax, ?block, ?hop, fun ch hch => ?chans, List.length_replicate, fun a ha => ?accs⟩
  case block =>
    show 1 ≤ (BitVec.ofNat 64 (blockLen fs)).toNat
    rw [hblock, blockLen]
    omega
  case hop =>
    show 1 ≤ (BitVec.ofNat 64 (hopLen fs)).toNat
    rw [hhop, hopLen]
    omega
  case chans =>
    obtain ⟨w, -, rfl⟩ := List.mem_map.mp hch
    have hzero : zeroFilter .zero := ⟨rfl, rfl, rfl, rfl⟩
    exact ⟨hzero, hzero⟩
  case accs =>
    rw [List.eq_of_mem_replicate ha]
    exact ⟨nofun, fun n hn => List.eq_of_mem_replicate hn⟩

/-- The result of an empty histogram is exactly +0.0: R140's factor 2/C is finite. -/
theorem luResultValue_of_empty {d : Nat} {u : Loudness} {hist : List Dword} (hc : 1 ≤ u.c.toNat)
    (hcMax : u.c.toNat ≤ 8) (h : ∀ n ∈ hist, n = 0#64) : luResultValue d u hist = f0 := by
  have hscale : ∀ c : Fin 9, 1 ≤ c.val → fmul f0 (fdiv f2 (fOfNat c)) = f0 := by decide +kernel
  rw [luResultValue, luIntegrate_of_empty h]
  split
  · rfl
  · exact hscale ⟨u.c.toNat, by omega⟩ hc

end Sys2Proof.Machine
end

section
/-! PROOFS. The silence property (`47_loudness.md` rule R144). -/

namespace Sys2Proof.Proofs

open Sys2Proof.Machine Sys2Proof.Claims

/-- Settles O49: silence is kept by the filters, rings and commits, and an empty histogram gives +0.0. -/
theorem silenceGivesZeroLoudness : Obligations.SilenceGivesZeroLoudness := by
  refine ⟨fun s t => silent_of_luInit, fun s h0 hs hf hv hc hzero => ?frame, fun s h0 hs => ?rest⟩
  case frame =>
    have hx : ∀ v ∈ frameSamples s.fd s.lu.c, isZero v = true := by
      intro v hmem
      obtain ⟨k, hk, rfl⟩ := List.mem_iff_getElem.mp (List.mem_of_mem_take hmem)
      exact hzero ⟨k, by simpa using hk⟩
    obtain ⟨u', hstep, hsilent, hfinite⟩ := luFrameStep_silent (d := s.draws) hs hf hx
    have he := exec_of_ok (i := .luFrame) rfl h0
      ((luFrame_body hs.1 hv hc).trans (by rw [hstep]; rfl))
    exact ⟨_, he, h0, hsilent, hfinite⟩
  case rest =>
    obtain ⟨hr, hc, hcMax, hb, ho, hchans, haccs, hquiet⟩ := hs
    have hcommits (rest : List LuAcc → Effect) :
        (if s.lu.committed = true then Except.ok s.lu.accs >>= rest
          else luCommitPartial 0 s.lu.accs >>= rest) = rest s.lu.accs := by
      split
      · rfl
      · rw [luCommitPartial_quiet hquiet, ok_bind]
    refine ⟨?finalize, fun k hk => ?result⟩
    case finalize =>
      have he := exec_of_ok (i := .luFinalize) rfl h0
        ((needReady_bind hr).trans (hcommits _))
      exact ⟨_, he, h0, hr, hc, hcMax, hb, ho, hchans, haccs, hquiet⟩
    case result =>
      have hk' : k.toNat < s.lu.accs.length := haccs ▸ hk
      have hhist : s.lu.histOf k.toNat = s.lu.accs[k.toNat].hist :=
        histOf_of_getElem? (List.getElem?_eq_getElem hk')
      have hempty := luResultValue_of_empty (d := s.draws) hc hcMax
        (hquiet _ (List.getElem_mem hk')).2
      have he := exec_of_ok (i := .luResult k) rfl h0
        ((congrArg (· >>= _) (needIndex_of_lt hk)).trans (needReady_bind hr))
      rw [hhist, hempty] at he
      exact he

end Sys2Proof.Proofs
end

section
/-! SUPPORT. The true-peak channels and maxima (`48_truepeak.md` rule R147). -/

namespace Sys2Proof.Machine

open Claims

theorem fle_refl {x : F64} (h : isNaN x = false) : fle x x = true := (fle_iff h h).mpr (Int.le_refl _)

/-- The maximum over several sub-samples: at least each of them, and one of them or the old one. -/
theorem tpMax_foldl_spec : ∀ (vs : List F64) {m : F64}, isNaN m = false →
    isNaN (vs.foldl tpMax m) = false ∧ fle m (vs.foldl tpMax m) = true ∧
      (∀ v ∈ vs, isNaN v = false → fle (fabs v) (vs.foldl tpMax m) = true) ∧
      (vs.foldl tpMax m = m ∨ ∃ v ∈ vs, isNaN v = false ∧ vs.foldl tpMax m = fabs v)
  | [], _, hm => ⟨hm, fle_refl hm, nofun, .inl rfl⟩
  | v :: vs, m, hm => by
    obtain ⟨hnan, hold, hnew, hone⟩ := tpMax_spec (v := v) hm
    obtain ⟨hnan', hold', hnew', hone'⟩ := tpMax_foldl_spec vs hnan
    refine ⟨hnan', fle_trans hold hold', List.forall_mem_cons.mpr ⟨?first, hnew'⟩, ?oneOf⟩
    case first => exact fun hv => fle_trans (hnew hv) hold'
    case oneOf =>
      rcases hone' with hkept | ⟨w, hw, hfin, hmax⟩
      · rcases hone with hm' | ⟨hv, hmax⟩
        · exact .inl (hkept.trans hm')
        · exact .inr ⟨v, List.mem_cons_self, hv, hkept.trans hmax⟩
      · exact .inr ⟨w, List.mem_cons_of_mem v hw, hfin, hmax⟩

/-- The ring of a channel does not depend on the maxima. -/
theorem tpChannel_ring (h buf : List F64) (m x : F64) :
    (tpChannel h buf m x).1 = (tpChannel h buf 0#64 x).1 := by
  simp only [tpChannel, tpSubSample, List.foldl_cons, List.foldl_nil]

/-- With INDEP = 1 the channels from the `pre.length`-th on update the maxima past `pre`. -/
theorem tpChans_independent (h : List F64) : ∀ (bufs : List (List F64)) (xs pre ms : List F64),
    bufs.length = xs.length → ms.length = xs.length →
    tpChans h true pre.length bufs xs (pre ++ ms) =
      (List.zipWith (fun b x => (tpChannel h b 0#64 x).1) bufs xs,
        pre ++ List.zipWith (fun k b => (tpChannel h b.1 k b.2).2) ms (bufs.zip xs))
  | [], [], pre, [], _, _ => rfl
  | b :: bufs, x :: xs, pre, m :: ms, hbufs, hms => by
    have hget : (pre ++ m :: ms).getD pre.length f0 = m := by simp [List.getD_eq_getElem?_getD]
    have hset : (pre ++ m :: ms).set pre.length (tpChannel h b m x).2
        = (pre ++ [(tpChannel h b m x).2]) ++ ms := by simp
    have hrest := tpChans_independent h bufs xs (pre ++ [(tpChannel h b m x).2]) ms
      (Nat.succ.inj hbufs) (Nat.succ.inj hms)
    rw [List.length_append, List.length_singleton] at hrest
    rw [tpChans, if_pos rfl, hget, hset, hrest, tpChannel_ring h b m x]
    simp

/-- With INDEP = 0 the channels update the one maximum in ascending order. -/
theorem tpChans_shared (h : List F64) : ∀ (c : Nat) (bufs : List (List F64)) (xs : List F64) (m : F64),
    bufs.length = xs.length →
    tpChans h false c bufs xs [m] =
      (List.zipWith (fun b x => (tpChannel h b 0#64 x).1) bufs xs,
        [(bufs.zip xs).foldl (fun k b => (tpChannel h b.1 k b.2).2) m])
  | _, [], [], _, _ => rfl
  | c, b :: bufs, x :: xs, m, hlen => by
    have hrest := tpChans_shared h (c + 1) bufs xs (tpChannel h b m x).2 (Nat.succ.inj hlen)
    rw [tpChans]
    simp only [Bool.false_eq_true, if_false, List.getD_cons_zero, List.set_cons_zero, hrest,
      tpChannel_ring h b m x, List.zipWith_cons_cons, List.zip_cons_cons, List.foldl_cons]

theorem family_eq_truePeak {i : Instr} :
    i.opcode.row.family = .truePeak ↔ i = .tpInit ∨ i = .tpFrame ∨ ∃ k, i = .tpResult k := by
  cases i <;> simp [Instr.opcode, Opcode.row]

theorem exec_keeps_tp {i : Instr} {s t : State} (he : exec i s = .next t) (hr : i ≠ .reset)
    (hf : i.opcode.row.family ≠ .truePeak) : t.tp = s.tp := by
  obtain ⟨body, h, frame⟩ := exec_frame i s
  rcases completes_or_keeps h he with ⟨t', rs, hb, rfl⟩ | hk
  · obtain ⟨-, -, -, -, -, -, -, htp, -⟩ := (frame t' rs hb).family hr
    exact htp hf
  · rw [hk]

/-- TP_FRAME writes the rings and maxima of one frame (R147). -/
theorem tpFrame_writes {s t : State} (he : exec .tpFrame s = .next t) :
    t.tp = s.tp ∨ ∃ x, t.tp = { s.tp with
      tbuf := (tpChans s.tp.h s.tp.indep 0 s.tp.tbuf x s.tp.m).1
      m := (tpChans s.tp.h s.tp.indep 0 s.tp.tbuf x s.tp.m).2 } := by
  rcases completes_or_keeps rfl he with ⟨t', rs, hb, rfl⟩ | hk
  · simp only [bind_eq_ok] at hb
    obtain ⟨_, -, x, -, hb⟩ := hb
    cases hb
    exact .inr ⟨x, rfl⟩
  · rw [hk]
    exact .inl rfl

theorem tpResult_keeps_tp {k : Byte} {s t : State} (he : exec (.tpResult k) s = .next t) :
    t.tp = s.tp := by
  rcases completes_or_keeps rfl he with ⟨t', rs, hb, rfl⟩ | hk
  · simp only [bind_eq_ok] at hb
    obtain ⟨_, -, _, -, hb⟩ := hb
    cases hb
    rfl
  · rw [hk]

/-- What a command other than TP_INIT and RESET can do to the unit: nothing, or one frame. -/
theorem exec_tp_cases {i : Instr} {s t : State} (he : exec i s = .next t) (hinit : i ≠ .tpInit)
    (hreset : i ≠ .reset) :
    t.tp = s.tp ∨ ∃ x, t.tp = { s.tp with
      tbuf := (tpChans s.tp.h s.tp.indep 0 s.tp.tbuf x s.tp.m).1
      m := (tpChans s.tp.h s.tp.indep 0 s.tp.tbuf x s.tp.m).2 } := by
  by_cases hf : i.opcode.row.family = .truePeak
  · rcases family_eq_truePeak.mp hf with rfl | rfl | ⟨k, rfl⟩
    · exact absurd rfl hinit
    · exact tpFrame_writes he
    · exact .inl (tpResult_keeps_tp he)
  · exact .inl (exec_keeps_tp he hreset hf)

/-- No maximum is a NaN or negative; before TP_INIT there is none. -/
theorem TruePeak.Inv.maxima {u : TruePeak} (h : u.Inv) : ∀ v ∈ u.m, isNaN v = false ∧ fsign v = false := by
  obtain ⟨hunready, hready⟩ := h
  cases hr : u.ready with
  | false =>
    rw [hunready hr]
    nofun
  | true =>
    obtain ⟨-, -, -, -, -, -, -, -, hm⟩ := hready hr
    exact hm

end Sys2Proof.Machine
end

section
/-! PROOFS. The statements about the true-peak detector: `48_truepeak.md` rules R145 to R148. -/

namespace Sys2Proof.Proofs

open Sys2Proof.Machine Sys2Proof.Claims

/-- Settles O50: the checks pass, and the kernel's taps are R96's. -/
theorem truePeakCommandsComplete : Obligations.TruePeakCommandsComplete := by
  intro s h0
  refine ⟨?init, ?frame, fun k hr hk => ?result⟩
  case init =>
    intro hc hcMax len na
    have he := exec_of_ok (i := .tpInit) rfl h0 (by rw [needChannels_of_ok hc hcMax]; rfl)
    rw [State.emit_nil] at he
    have hpa : 1 ≤ tpFactor * Config.tpA := by
      have := tpA_bounds
      unfold tpFactor
      omega
    exact ⟨_, (drawNaNs_length _ _).trans (lanczos_length _ _), drawn_taps hpa, he⟩
  case frame =>
    intro hr hv hc r
    have he := exec_of_ok (i := .tpFrame) rfl h0
      ((needReady_bind hr).trans (by rw [needFrame_of_valid hv hc]; rfl))
    rwa [State.emit_nil] at he
  case result =>
    have he := exec_of_ok (i := .tpResult k) rfl h0
      ((congrArg (· >>= _) (needIndex_of_lt hk)).trans (needReady_bind hr))
    exact ⟨_, isResult_drawNaN s.draws _, he⟩

/-- Settles O51: a channel is its filter stepped four times and the maximum over the four outputs, and
the channels follow one another. -/
theorem truePeakKeepsTheLargestSubSample : Obligations.TruePeakKeepsTheLargestSubSample := by
  refine ⟨?channel, fun h bufs xs m hbufs => ⟨fun hm => ?independent, fun m0 => ?shared⟩⟩
  case channel =>
    intro h buf m x hm r0 r1 r2 r3 vs p
    exact ⟨rfl, tpMax_foldl_spec vs hm⟩
  case independent => exact tpChans_independent h bufs xs [] m hbufs hm
  case shared => exact tpChans_shared h 0 bufs xs m0 hbufs

/-- Settles O52: a frame only raises the maxima, and nothing else writes them. -/
theorem truePeakMaximaNeverDecrease : Obligations.TruePeakMaximaNeverDecrease := by
  intro i s t hinv he hinit hreset
  have hm := hinv.maxima
  rcases exec_tp_cases he hinit hreset with htp | ⟨x, htp⟩
  case inl =>
    rw [htp]
    refine ⟨rfl, fun k hk => ?_⟩
    have hget : s.tp.m.getD k 0#64 = s.tp.m[k] := by simp [List.getD_eq_getElem?_getD, hk]
    obtain ⟨hnan, hsign⟩ := hm _ (List.getElem_mem hk)
    rw [hget]
    exact ⟨fle_refl hnan, hnan, hsign⟩
  case inr =>
    obtain ⟨hlen, hall, hle⟩ := tpChans_max s.tp.h s.tp.indep 0 s.tp.tbuf x s.tp.m hm
    rw [htp]
    refine ⟨hlen, fun k hk => ⟨hle k hk, ?_⟩⟩
    have hk' := hlen.symm ▸ hk
    rw [List.getD_eq_getElem?_getD, List.getElem?_eq_getElem hk', Option.getD_some]
    exact hall _ (List.getElem_mem hk')

end Sys2Proof.Proofs
end

section
/-! SUPPORT. The settings that CP_INIT admits (`49_compressor.md` rules R151, R152). -/

namespace Sys2Proof.Machine

open Claims

theorem framesOf_eq_some {time : F64} {fs : Word} {n : Nat} : framesOf time fs = some n ↔
    isFinite (fmul time (fOfNat fs.toNat)) = true ∧ fToNat (ftrunc (fmul time (fOfNat fs.toNat))) = n := by
  simp [framesOf]

theorem cpLengths_eq_some {k : CpSettings} {c : Byte} {fs : Word} {l hn w : Nat} :
    cpLengths k c fs = some (l, hn, w) ↔
      framesOf k.lookaheadS fs = some l ∧ framesOf k.holdS fs = some hn ∧ cpSettingsOk k = true ∧
        1 ≤ l ∧ l ≤ 65536 ∧ (l + hn) * c.toNat ≤ 1048576 ∧ (l + hn) * c.toNat = w := by
  unfold cpLengths
  split
  · rename_i l' hn' hl' hhn'
    rw [hl', hhn']
    simp only [Option.ite_none_right_eq_some, Bool.and_eq_true, decide_eq_true_eq, Option.some.injEq,
      Prod.mk.injEq]
    constructor
    · rintro ⟨⟨⟨⟨hok, hl⟩, hlMax⟩, hw⟩, rfl, rfl, rfl⟩
      exact ⟨rfl, rfl, hok, hl, hlMax, hw, rfl⟩
    · rintro ⟨rfl, rfl, hok, hl, hlMax, hw, rfl⟩
      exact ⟨⟨⟨⟨hok, hl⟩, hlMax⟩, hw⟩, rfl, rfl, rfl⟩
  · rename_i hnone
    refine ⟨nofun, fun h => ?_⟩
    obtain ⟨hl, hhn, -⟩ := h
    exact absurd hhn (hnone l hn hl)

/-- One setting outside R152's bounds leaves no lengths. -/
theorem cpLengths_of_bad {k : CpSettings} {c : Byte} {fs : Word}
    (h : flt f1 k.ratio = false ∨ isFinite k.thresholdDb = false ∨ isFinite k.makeupDb = false ∨
      isFinite k.kneeDb = false ∨ flt k.kneeDb f0 = true ∨
      isFinite k.attackS = false ∨ isFinite k.releaseS = false ∨
      isFinite k.lookaheadS = false ∨ flt k.lookaheadS f0 = true ∨
      isFinite k.holdS = false ∨ flt k.holdS f0 = true ∨
      isFinite (fmul k.lookaheadS (fOfNat fs.toNat)) = false ∨
      isFinite (fmul k.holdS (fOfNat fs.toNat)) = false ∨
      fToNat (ftrunc (fmul k.lookaheadS (fOfNat fs.toNat))) < 1 ∨
      65536 < fToNat (ftrunc (fmul k.lookaheadS (fOfNat fs.toNat))) ∨
      1048576 < (fToNat (ftrunc (fmul k.lookaheadS (fOfNat fs.toNat)))
        + fToNat (ftrunc (fmul k.holdS (fOfNat fs.toNat)))) * c.toNat) :
    cpLengths k c fs = none := by
  refine Option.eq_none_iff_forall_ne_some.mpr fun ⟨l, hn, w⟩ hsome => ?_
  obtain ⟨hl, hhn, hok, hl1, hlMax, hw, -⟩ := cpLengths_eq_some.mp hsome
  obtain ⟨hlFinite, rfl⟩ := framesOf_eq_some.mp hl
  obtain ⟨hhnFinite, rfl⟩ := framesOf_eq_some.mp hhn
  obtain ⟨hratio, hthreshold, hmakeup, ⟨hknee, hknee0⟩, hattack, hrelease, ⟨hlook, hlook0⟩, hhold,
    hhold0⟩ := cpSettingsOk_iff.mp hok
  simp only [hratio, hthreshold, hmakeup, hknee, hknee0, hattack, hrelease, hlook, hlook0, hhold, hhold0,
    hlFinite, hhnFinite, Bool.true_eq_false, Bool.false_eq_true, false_or] at h
  omega

end Sys2Proof.Machine
end

section
/-! PROOFS. The statements about CP_INIT: `49_compressor.md` rules R150 to R155. -/

namespace Sys2Proof.Proofs

open Sys2Proof.Machine Sys2Proof.Claims

/-- Settles O53: the settings have the lengths of R151, and the unit is R155's. -/
theorem cpInitCompletes : Obligations.CpInitCompletes := by
  intro s h0 hc hcMax hfs hfsMax k fs l hn wp per factor hratio hthreshold hmakeup hknee hknee0 hattack
    hrelease hlook hlook0 hhold hhold0 hlFinite hhnFinite hl hlMax hwp
  have hnonneg : ∀ {x : F64}, isFinite x = true → fle f0 x = true → flt x f0 = false :=
    fun hx h => (flt_false_iff (isFinite_not_nan hx) (by decide)).mpr h
  have hok : cpSettingsOk s.cfg.set = true := cpSettingsOk_iff.mpr
    ⟨hratio, hthreshold, hmakeup, ⟨hknee, hnonneg hknee hknee0⟩, hattack, hrelease,
      ⟨hlook, hnonneg hlook hlook0⟩, hhold, hnonneg hhold hhold0⟩
  have hlengths : cpLengths s.cfg.set s.cfg.channels s.cfg.fs = some (l, hn, wp) :=
    cpLengths_eq_some.mpr ⟨framesOf_eq_some.mpr ⟨hlFinite, rfl⟩, framesOf_eq_some.mpr ⟨hhnFinite, rfl⟩,
      hok, hl, hlMax, hwp, rfl⟩
  have he := exec_of_ok (i := .cpInit) rfl h0
    (by rw [needChannels_of_ok hc hcMax, ok_bind, needFs_of_ok hfs hfsMax, ok_bind, hlengths])
  rwa [State.emit_nil] at he

/-- Settles O54: channels and rate are checked first, and a bad setting leaves no lengths. -/
theorem cpInitRefusesBadSettings : Obligations.CpInitRefusesBadSettings := by
  intro s h0 k la ho hbad
  refine exec_raises_invalidArgument rfl h0 ?_
  rcases hbad with hc | hc | hfs | hfs | hbad
  · rw [needChannels_of_bad (by omega)]
    rfl
  · rw [needChannels_of_bad (by omega)]
    rfl
  · refine needChannels_bind_bad ?_
    rw [needFs_of_bad (by omega), error_bind]
  · refine needChannels_bind_bad ?_
    rw [needFs_of_bad (by omega), error_bind]
  · refine needChannels_bind_bad (needFs_bind_bad ?_)
    rw [cpLengths_of_bad hbad]

end Sys2Proof.Proofs
end

section
/-! SUPPORT. The regions of the gain computer (`49_compressor.md` rule R158). -/

namespace Sys2Proof.Machine

open Claims

/-! ## +inf above every finite value (R11, R12) -/

theorem fkey_lt_posInf_of_finite {x : F64} (h : isFinite x = true) : fkey x < fkey (fInf false) := by
  have hmag : fmag x < infMag := fmag_of_finite h
  have hinf : fkey (fInf false) = (infMag : Int) := by decide
  rw [hinf, fkey]
  split <;> omega

/-- +inf is at or below no finite value. -/
theorem fle_posInf_of_finite {x : F64} (h : isFinite x = true) : fle (fInf false) x = false := by
  rw [← Bool.not_eq_true, fle_iff (isNaN_fInf false) (isFinite_not_nan h), Int.not_le]
  exact fkey_lt_posInf_of_finite h

theorem flt_posInf_of_finite {x : F64} (h : isFinite x = true) : flt (fInf false) x = false := by
  rw [flt_false_iff (isNaN_fInf false) (isFinite_not_nan h), fle_iff (isFinite_not_nan h) (isNaN_fInf false)]
  exact Int.le_of_lt (fkey_lt_posInf_of_finite h)

theorem fsub_posInf_finite {x : F64} (h : isFinite x = true) : fsub (fInf false) x = fInf false :=
  fsub_inf_finite (by decide) (isNaN_fInf false) h

theorem isNaN_eq_false_of_above {x y : F64} (h : flt x y = true) : isNaN y = false := by
  obtain ⟨⟨-, hy⟩, -⟩ : (_ ∧ isNaN y = false) ∧ _ := by simpa [flt] using h
  exact hy

/-- A ratio above 1.0 is positive. -/
theorem fsign_of_above_one {r : F64} (h : flt f1 r = true) : fsign r = false := by
  have hone : 0 < fkey f1 := by decide
  have hkey : fkey f1 < fkey r := (flt_iff (by decide) (isNaN_eq_false_of_above h)).mp h
  refine Bool.eq_false_iff.mpr fun hs => ?_
  have hneg : fkey r = -(fmag r : Int) := if_pos hs
  omega

/-- +inf over a positive value is +inf, or a NaN when that value is infinite too. -/
theorem fdiv_posInf {r : F64} (hn : isNaN r = false) (hs : fsign r = false) :
    fdiv (fInf false) r = if isInf r then qNaN else fInf false := by
  have hinf : isInf (fInf false) = true := by decide
  have hsign : fsign (fInf false) = false := by decide
  simp [fdiv, hn, hinf, hs, hsign]

/-! ## The three regions -/

theorem cpGain_inside_knee {u : Compressor} {ld : F64}
    (hbelow : flt (fmul f2 (fsub ld u.t)) (fneg u.kw) = false) (hkw : flt f0 u.kw = true)
    (hle : fle (fmul f2 (fsub ld u.t)) u.kw = true) :
    cpGain u ld = Config.kneeGain ld u.t u.kw u.r u.m := by
  simp [cpGain, hbelow, hkw, hle]

theorem cpGain_above_knee {u : Compressor} {ld : F64}
    (hbelow : flt (fmul f2 (fsub ld u.t)) (fneg u.kw) = false)
    (hpast : flt f0 u.kw = false ∨ fle (fmul f2 (fsub ld u.t)) u.kw = false) :
    cpGain u ld = fsub (fadd (fadd u.t (fdiv (fsub ld u.t) u.r)) u.m) ld := by
  have hinside : (flt f0 u.kw && fle (fmul f2 (fsub ld u.t)) u.kw) = false :=
    Bool.and_eq_false_iff.mpr hpast
  simp only [cpGain, hbelow, hinside, Bool.false_eq_true, if_false]

/-- At +inf dB the gain above the knee is +inf less +inf. -/
theorem isNaN_cpGain_posInf {u : Compressor} (ht : isFinite u.t = true) (hkw : isFinite u.kw = true)
    (hr : flt f1 u.r = true) (hm : isFinite u.m = true) : isNaN (cpGain u (fInf false)) = true := by
  have hkc : fmul f2 (fsub (fInf false) u.t) = fInf false := by
    rw [fsub_posInf_finite ht]
    decide
  rw [cpGain_above_knee (by rw [hkc]; exact flt_posInf_of_finite (isFinite_fneg hkw))
    (.inr (by rw [hkc]; exact fle_posInf_of_finite hkw)), fsub_posInf_finite ht,
    fdiv_posInf (isNaN_eq_false_of_above hr) (fsign_of_above_one hr)]
  split
  · simp
  · have hinf : isInf (fInf false) = true := by decide
    rw [(fadd_inf_finite hinf (isNaN_fInf false) ht).2, (fadd_inf_finite hinf (isNaN_fInf false) hm).1]
    decide

end Sys2Proof.Machine
end

section
/-! SUPPORT. The detector on a whole frame (`49_compressor.md` rules R154, R156). -/

namespace Sys2Proof.Machine

open Claims

theorem rect_eq_rectified (x : F64) : rect x = rectified x := by
  rw [rect, rectified, fabs_eq_and]

/-- One channel of R156 in RMS mode, channel `v.2` with the sample `v.1`, as `fed` takes it. -/
def rmsFed (d : Nat) (p : MovRms × F64) (v : F64 × Nat) : MovRms × F64 :=
  (mrmsNext (d + 3 * v.2) p.1 v.1, drawNaN (d + 3 * v.2 + 2) (mrmsOutput (mrmsNext (d + 3 * v.2) p.1 v.1)))

/-- One channel of R156 in Peak mode, as `fed` takes it. -/
def peakFed (p : MovMax × F64) (v : F64) : MovMax × F64 := mmxStep p.1 (rectified v)

theorem fed_peak (d : Nat) (mm : MovMax) (x : List F64) :
    fed d (.peak mm) x = (.peak (x.foldl peakFed (mm, f0)).1, (x.foldl peakFed (mm, f0)).2) := rfl

theorem fed_rms (d : Nat) (m : MovRms) (x : List F64) :
    fed d (.rms m) x
      = (.rms (x.zipIdx.foldl (rmsFed d) (m, f0)).1, (x.zipIdx.foldl (rmsFed d) (m, f0)).2) := rfl

theorem cpFeed_peak (d : Nat) : ∀ (x : List F64) (c : Nat) (mm : MovMax) (pv : F64),
    (∀ v ∈ x, isNaN (rectified v) = false) →
    cpFeed d c (.peak mm) pv x = .ok (.peak (x.foldl peakFed (mm, pv)).1, (x.foldl peakFed (mm, pv)).2)
  | [], _, _, _, _ => rfl
  | v :: x, c, mm, pv, h => by
    obtain ⟨hv, hx⟩ := List.forall_mem_cons.mp h
    have hrect : ¬ isNaN (rect v) = true := by rw [rect_eq_rectified, hv]; exact Bool.false_ne_true
    rw [cpFeed, if_neg hrect, cpFeed_peak d x (c + 1) _ _ hx, rect_eq_rectified]
    rfl

theorem cpFeed_rms (d : Nat) : ∀ (x : List F64) (k c : Nat) (m : MovRms) (pv : F64),
    cpFeed (d + 3 * k) c (.rms m) pv x
      = .ok (.rms ((x.zipIdx k).foldl (rmsFed d) (m, pv)).1, ((x.zipIdx k).foldl (rmsFed d) (m, pv)).2)
  | [], _, _, _, _ => rfl
  | v :: x, k, c, m, pv => by
    have hdraws : d + 3 * k + 3 = d + 3 * (k + 1) := by omega
    rw [cpFeed, hdraws, cpFeed_rms d x (k + 1)]
    rfl

/-- The loop of R156 over a frame without NaNs for MovMax. -/
theorem cpFeed_eq_fed {d : Nat} {pre : CpPre} {x : List F64} (h : feedable pre x) :
    cpFeed d 0 pre f0 x = .ok (fed d pre x) := by
  cases pre with
  | peak mm => rw [fed_peak, cpFeed_peak d x 0 mm f0 (h mm rfl)]
  | rms m => exact (cpFeed_rms d x 0 0 m f0).trans (by rw [fed_rms])

theorem cpDetect_of_feedable {d : Nat} {u : Compressor} {x : List F64} (h : feedable u.pre x) :
    cpDetect d u x = .ok
      ({ u with pre := (fed d u.pre x).1, env := lagStep (d + 3 * x.length) u.env (fed d u.pre x).2 },
        drawNaN (d + 3 * x.length + 1)
          (fmul (lagStep (d + 3 * x.length) u.env (fed d u.pre x).2).level u.env.gain)) := by
  rw [cpDetect, cpFeed_eq_fed h]
  rfl

theorem cpInputFrame_of_ok {z : Bool} {s : State}
    (h : z = false → s.fd.valid = true ∧ s.fd.c = s.cp.c) :
    cpInputFrame z s = .ok (cpConsumed z s) := by
  cases z with
  | true => rfl
  | false =>
    obtain ⟨hv, hc⟩ := h rfl
    exact needFrame_of_valid hv hc

theorem cpInputFrame_eq_ok {z : Bool} {s : State} {x : List F64} (h : cpInputFrame z s = .ok x) :
    x = cpConsumed z s := by
  cases z with
  | true => cases h; rfl
  | false => exact (needFrame_eq_ok.mp h).2

theorem cpOutputs_length (d : Nat) (c : Byte) (frame : List F64) (g : F64) :
    (cpOutputs d c frame g).length = c.toNat := by
  simp [cpOutputs]

/-- Each result of a CP_FRAME is the delayed sample times the gain (R160). -/
theorem cpOutputs_getElem (d : Nat) (c : Byte) (frame : List F64) (g : F64) (k : Nat)
    (hk : k < (cpOutputs d c frame g).length) :
    isResult (fmul (frame.getD k 0#64) g) (cpOutputs d c frame g)[k] := by
  simp only [cpOutputs, drawNaNs_getElem, List.getElem_map, List.getElem_range]
  exact isResult_drawNaN _ _

/-- What a CP_FRAME that raises nothing leaves (R160). -/
theorem cpFrame_completed {z : Bool} {s t : State} (h0 : s.err = 0#8) (he : exec (.cpFrame z) s = .next t)
    (h1 : t.err = 0#8) :
    ∃ (d : Nat) (pre : CpPre) (env : Lag),
      t.cp = { s.cp with
        pre := pre, env := env, fifo := s.cp.fifo.tail ++ [cpConsumed z s], envObs := t.cp.envObs,
        gainDb := drawNaN d (cpGain s.cp (cpLevel t.cp.envObs)) } ∧
      t.results = s.results ++
        cpOutputs (d + 1) s.cp.c (s.cp.fifo.headD []) (cpLinear t.cp.gainDb) := by
  obtain ⟨t', rs, hb, rfl⟩ := body_of_exec rfl he h0 h1
  simp only [bind_eq_ok] at hb
  obtain ⟨_, -, x, hx, ⟨u, e⟩, hdetect, hb⟩ := hb
  cases hb
  obtain ⟨pre, env, hu⟩ := cpDetect_frame hdetect
  cases cpInputFrame_eq_ok hx
  exact ⟨_, pre, env, by rw [show u = _ from hu]; rfl, rfl⟩

end Sys2Proof.Machine
end

section
/-! PROOFS. The statements about the gain and a frame of the compressor: `49_compressor.md` rules R154 to
R163. -/

namespace Sys2Proof.Proofs

open Sys2Proof.Machine Sys2Proof.Claims

/-- Settles O55: the detector's loop over a frame it can take, and the results one for each channel. -/
theorem cpFrameCompletes : Obligations.CpFrameCompletes := by
  refine ⟨rect_eq_rectified, fun s zero h0 hr hframe => ?_⟩
  intro x hfeed p out
  have he := exec_of_ok (i := .cpFrame zero) rfl h0
    ((needReady_bind hr).trans (by rw [cpInputFrame_of_ok hframe, ok_bind, cpDetect_of_feedable hfeed]; rfl))
  exact ⟨_, _, _, _, lagStep_level _ _ _, isResult_drawNaN _ _, isResult_drawNaN _ _,
    cpOutputs_length _ _ _ _, cpOutputs_getElem _ _ _ _, he⟩

/-- Settles O56: CP_FRAME_INITIAL is the detector on the FD's frame. -/
theorem cpFrameInitialCompletes : Obligations.CpFrameInitialCompletes := by
  intro s h0 hr hv hc x hfeed p
  have hfeed : feedable s.cp.pre (frameSamples s.fd s.cp.c) := hfeed
  have he := exec_of_ok (i := .cpFrameInitial) rfl h0
    ((needReady_bind hr).trans (by rw [needFrame_of_valid hv hc, ok_bind, cpDetect_of_feedable hfeed]; rfl))
  rw [State.emit_nil] at he
  exact ⟨_, lagStep_level _ _ _, he⟩

/-- Settles O58, region by region; +inf dB lies above every finite knee. -/
theorem cpGainRegions : Obligations.CpGainRegions := by
  intro u ld kc above
  refine ⟨cpGain_of_below_knee, cpGain_inside_knee, cpGain_above_knee, fun ht hkw => ⟨?_, fun hr hm => ?_⟩⟩
  · have hinf : (0xFFF0000000000000#64 : F64) = fInf true := by decide
    rw [hinf]
    exact cpGain_negInf ht hkw
  · have hinf : (0x7FF0000000000000#64 : F64) = fInf false := by decide
    rw [hinf]
    exact isNaN_cpGain_posInf ht hkw hr hm

/-- Settles O60: below the knee the gain is M, which is no draw. -/
theorem belowTheKneeOnlyMakeupApplies : Obligations.BelowTheKneeOnlyMakeupApplies := by
  intro s t zero h0 hm he h1 hbelow
  obtain ⟨d, pre, env, hcp, hresults⟩ := cpFrame_completed h0 he h1
  have hgain : t.cp.gainDb = s.cp.m := by
    rw [hcp]
    show drawNaN d (cpGain s.cp (cpLevel t.cp.envObs)) = s.cp.m
    rw [cpGain_of_below_knee hbelow, drawNaN_of_not_nan hm]
  rw [hgain] at hresults
  exact ⟨hgain, _, hresults, cpOutputs_length _ _ _ _, cpOutputs_getElem _ _ _ _⟩

end Sys2Proof.Proofs
end

section
/-! SUPPORT. Runs of commands and the delay FIFO (`49_compressor.md` rules R160, R161). -/

namespace Sys2Proof.Machine

open Claims

theorem afterAll_cons {i : Instr} {is : List Instr} {s t : State} (he : exec i s = .next t) :
    afterAll (i :: is) s = afterAll is t := by
  simp only [afterAll, he]

theorem cpEvents_cpFrame {z : Bool} {is : List Instr} {s t : State} (he : exec (.cpFrame z) s = .next t) :
    cpEvents (.cpFrame z :: is) s
      = ⟨cpConsumed z s, t.results.drop s.results.length, t.cp.gainDb⟩ :: cpEvents is t := by
  simp only [cpEvents, he]

theorem cpEvents_other {i : Instr} {is : List Instr} {s t : State} (he : exec i s = .next t)
    (hi : ∀ z, i ≠ .cpFrame z) : cpEvents (i :: is) s = cpEvents is t := by
  simp only [cpEvents, he]

/-- Without RESET an error stays latched to the end of a run (R167). -/
theorem err_of_afterAll : ∀ (is : List Instr) (s : State), (∀ i ∈ is, i ≠ .reset) →
    (afterAll is s).err = 0#8 → s.err = 0#8
  | [], _, _, h => h
  | i :: is, s, hall, h => by
    obtain ⟨hi, his⟩ := List.forall_mem_cons.mp hall
    obtain ⟨t, he⟩ := exec_next i s
    rw [afterAll_cons he] at h
    have ht : t.err = 0#8 := err_of_afterAll is t his h
    refine Classical.byContradiction fun hs => ?_
    obtain ⟨hkept, -⟩ := exec_keeps_latch he hs hi
    exact hs (hkept ▸ ht)

/-- This CP_FRAME returned the frame `frame` of `c` samples times its gain. -/
def ReturnsScaled (frame : List F64) (c : Nat) (e : CpEvent) : Prop :=
  e.returned.length = c ∧ ∀ k (hk : k < e.returned.length),
    isResult (fmul (frame.getD k 0#64) (cpLinear e.gain)) e.returned[k]

/-- A command that is no CP_FRAME, CP_INIT or RESET leaves the FIFO and the channels. -/
theorem exec_keeps_fifo {i : Instr} {s t : State} (he : exec i s = .next t) (hframe : ∀ z, i ≠ .cpFrame z)
    (hinit : i ≠ .cpInit) (hreset : i ≠ .reset) : t.cp.fifo = s.cp.fifo ∧ t.cp.c = s.cp.c := by
  rcases exec_cp_cases he with h | h | ⟨z, h, -⟩ | ⟨pre, env, hcp⟩
  · exact absurd h hreset
  · exact absurd h hinit
  · exact absurd h (hframe z)
  · rw [hcp]
    exact ⟨rfl, rfl⟩

/-- A CP_FRAME without error returns the FIFO's oldest frame scaled, and queues the frame it consumed. -/
theorem cpFrame_shifts {z : Bool} {s t : State} (h0 : s.err = 0#8) (he : exec (.cpFrame z) s = .next t)
    (h1 : t.err = 0#8) :
    t.cp.fifo = s.cp.fifo.tail ++ [cpConsumed z s] ∧ t.cp.c = s.cp.c ∧
      ReturnsScaled (s.cp.fifo.headD []) s.cp.c.toNat
        ⟨cpConsumed z s, t.results.drop s.results.length, t.cp.gainDb⟩ := by
  obtain ⟨d, pre, env, hcp, hresults⟩ := cpFrame_completed h0 he h1
  refine ⟨by rw [hcp], by rw [hcp], ?_⟩
  rw [hresults, List.drop_left]
  exact ⟨cpOutputs_length _ _ _ _, cpOutputs_getElem _ _ _ _⟩

/-- In a run without CP_INIT, RESET and error, the n-th CP_FRAME returns the n-th of the frames that were
in the FIFO and then those consumed. -/
theorem cpEvents_returnScaled : ∀ (is : List Instr) (s : State), (∀ i ∈ is, i ≠ .cpInit ∧ i ≠ .reset) →
    (afterAll is s).err = 0#8 → s.cp.fifo ≠ [] → ∀ n (hn : n < (cpEvents is s).length),
      ReturnsScaled ((s.cp.fifo ++ (cpEvents is s).map (·.consumed)).getD n []) s.cp.c.toNat
        (cpEvents is s)[n]
  | [], _, _, _, _, _, hn => absurd hn (Nat.not_lt_zero _)
  | i :: is, s, hall, hend, hfifo, n, hn => by
    obtain ⟨⟨hinit, hreset⟩, his⟩ := List.forall_mem_cons.mp hall
    have h0 : s.err = 0#8 := err_of_afterAll (i :: is) s (fun j hj => (hall j hj).2) hend
    obtain ⟨t, he⟩ := exec_next i s
    rw [afterAll_cons he] at hend
    have h1 : t.err = 0#8 := err_of_afterAll is t (fun j hj => (his j hj).2) hend
    by_cases hframe : ∃ z, i = .cpFrame z
    case neg =>
      have hframe : ∀ z, i ≠ .cpFrame z := fun z hz => hframe ⟨z, hz⟩
      obtain ⟨hfifo', hc⟩ := exec_keeps_fifo he hframe hinit hreset
      have hrest := cpEvents_returnScaled is t his hend (hfifo' ▸ hfifo)
      simp only [cpEvents_other he hframe] at hn ⊢
      rw [← hfifo', ← hc]
      exact hrest n hn
    case pos =>
      obtain ⟨z, rfl⟩ := hframe
      obtain ⟨hfifo', hc, hreturns⟩ := cpFrame_shifts h0 he h1
      obtain ⟨front, rest, hcons⟩ := List.exists_cons_of_ne_nil hfifo
      simp only [cpEvents_cpFrame he] at hn ⊢
      cases n with
      | zero => simpa [hcons] using hreturns
      | succ n =>
        have hrest := cpEvents_returnScaled is t his hend (by simp [hfifo']) n (Nat.lt_of_succ_lt_succ hn)
        simpa [hcons, hfifo', hc] using hrest

/-- CP_INIT without error leaves L frames of zeros in the FIFO, L at least 1 (R152, R155). -/
theorem cpInit_fifo {s t : State} (h0 : s.err = 0#8) (he : exec .cpInit s = .next t) (h1 : t.err = 0#8) :
    1 ≤ t.cp.len.toNat ∧
      t.cp.fifo = List.replicate t.cp.len.toNat (List.replicate t.cp.c.toNat f0) := by
  obtain ⟨t', rs, hb, rfl⟩ := body_of_exec rfl he h0 h1
  simp only [bind_eq_ok] at hb
  obtain ⟨c, -, fs, -, hb⟩ := hb
  split at hb
  · cases hb
  · rename_i l hn w hlen
    cases hb
    obtain ⟨hl, hlMax, -⟩ := cpLengths_some hlen
    have hlen : (BitVec.ofNat 64 l).toNat = l := toNat_ofNat_of_lt (by omega)
    exact ⟨Nat.le_trans hl (Nat.le_of_eq hlen.symm), by simp only [State.emit, cpFresh, hlen]⟩

end Sys2Proof.Machine
end

section
/-! PROOFS. The look-ahead delay (`49_compressor.md` rule R161). -/

namespace Sys2Proof.Proofs

open Sys2Proof.Machine Sys2Proof.Claims

/-- Settles O57: the FIFO of CP_INIT's L zero frames and the consumed frames behind it, read in order. -/
theorem cpDelaysFramesByTheLookAhead : Obligations.CpDelaysFramesByTheLookAhead := by
  intro s t cmds h0 he hcmds hend ev l
  have h1 : t.err = 0#8 := err_of_afterAll cmds t (fun i hi => (hcmds i hi).2) hend
  obtain ⟨hl, hfifo⟩ := cpInit_fifo h0 he h1
  have hne : t.cp.fifo ≠ [] := by
    rw [hfifo]
    exact List.ne_nil_of_length_pos (by rw [List.length_replicate]; exact hl)
  refine ⟨hl, fun n hn => ?_⟩
  obtain ⟨hlength, hreturned⟩ := cpEvents_returnScaled cmds t hcmds hend hne n hn
  refine ⟨hlength, fun c hc => ?_⟩
  have hdelayed : ((t.cp.fifo ++ ev.map (·.consumed)).getD n []).getD c 0#64
      = if l ≤ n then ((ev.map (·.consumed)).getD (n - l) []).getD c 0#64 else 0#64 := by
    have hlen : t.cp.fifo.length = l := by rw [hfifo, List.length_replicate]
    simp only [List.getD_eq_getElem?_getD, List.getElem?_append, hlen]
    by_cases hle : l ≤ n
    · rw [if_pos hle, if_neg (Nat.not_lt.mpr hle)]
    · rw [if_neg hle, if_pos (Nat.not_le.mp hle), hfifo, List.getElem?_replicate,
        if_pos (Nat.not_le.mp hle), Option.getD_some, List.getElem?_replicate]
      split <;> rfl
  rw [← hdelayed]
  exact hreturned c hc

end Sys2Proof.Proofs
end
